-- ==== Sys2Proof/Word.lean ====
section
/-! DEFINITION. The word types of the engine (00_scope.md R11, R12; 20_memory.md R62 to R64). -/

namespace Sys2Proof

/-- A register word: 16 bits, bit 0 least significant (R11). -/
abbrev Word := BitVec 16

/-- A direct address 0..31 (R63). -/
abbrev Direct5 := BitVec 5

/-- An extended (MMD) address (R64). -/
abbrev Ext16 := BitVec 16

/-- A transport-failure kind: an opaque 8-bit number (R167). -/
abbrev Kind := BitVec 8

/-- A command word (R85). -/
abbrev Opcode := BitVec 8

end Sys2Proof
end

