-- ==== Sys2Proof/Syntax.lean ====
section
/-! DEFINITION. The commands, one constructor per row of spec/opcode_table.json (30_encoding.md R87).
A command word carries no operand fields (R85, R93), so no constructor has an argument. -/

namespace Sys2Proof

/-- The 23 commands of R87, in the table's order. -/
inductive Instr where
  | rdd | wrd | rmwd | rdx | wrx | rmwx
  | ident | linksup
  | setlink | setclksh | setclkdly | setimped | setfifo | setgpio | setled | setmdix | setidle
  | setdspeq | fldfix | setloop
  | configure
  | reset | isrstdone
  deriving DecidableEq, Repr

/-- The commands in the table's order. -/
def Instr.all : List Instr :=
  [.rdd, .wrd, .rmwd, .rdx, .wrx, .rmwx, .ident, .linksup, .setlink, .setclksh, .setclkdly, .setimped,
   .setfifo, .setgpio, .setled, .setmdix, .setidle, .setdspeq, .fldfix, .setloop, .configure, .reset,
   .isrstdone]

end Sys2Proof
end

