-- ==== Sys2Proof/Decode.lean ====
section
/-! DEFINITION. Decoding and encoding of the command word: format `C8` (30_encoding.md R86), the opcode map
(R87), illegal values (R91). -/

namespace Sys2Proof

/-- Why bytes are no command. -/
inductive DecodeError where
  /-- There is no byte: a command is exactly one byte long (R85). -/
  | noByte
  /-- The byte is not in the opcode map (R91). -/
  | illegalOpcode (w : Opcode)
  deriving DecidableEq, Repr

/-- A row of the opcode map: a byte is the command when its masked bits are the pattern. -/
structure OpcodeRow where
  mask : Opcode
  pattern : Opcode
  instr : Instr
  deriving DecidableEq, Repr

/-- The opcode map (R87); a decoder matches the whole byte, mask `0xFF` (R86). -/
def opcodeMap : List OpcodeRow :=
  [⟨0xFF, 0x00, .rdd⟩, ⟨0xFF, 0x01, .wrd⟩, ⟨0xFF, 0x02, .rmwd⟩, ⟨0xFF, 0x03, .rdx⟩, ⟨0xFF, 0x04, .wrx⟩,
   ⟨0xFF, 0x05, .rmwx⟩] ++
  [⟨0xFF, 0x10, .ident⟩, ⟨0xFF, 0x11, .linksup⟩] ++
  [⟨0xFF, 0x20, .setlink⟩, ⟨0xFF, 0x21, .setclksh⟩, ⟨0xFF, 0x22, .setclkdly⟩, ⟨0xFF, 0x23, .setimped⟩,
   ⟨0xFF, 0x24, .setfifo⟩, ⟨0xFF, 0x25, .setgpio⟩, ⟨0xFF, 0x26, .setled⟩, ⟨0xFF, 0x27, .setmdix⟩,
   ⟨0xFF, 0x28, .setidle⟩, ⟨0xFF, 0x29, .setdspeq⟩, ⟨0xFF, 0x2A, .fldfix⟩, ⟨0xFF, 0x2B, .setloop⟩] ++
  [⟨0xFF, 0x30, .configure⟩, ⟨0xFF, 0x40, .reset⟩, ⟨0xFF, 0x41, .isrstdone⟩]

/-- R91: what is not in the map is refused, by name. -/
def decodeOpcode (w : Opcode) : Except DecodeError Instr :=
  match opcodeMap.find? fun r => w &&& r.mask == r.pattern with
  | some r => .ok r.instr
  | none => .error (.illegalOpcode w)

/-- Decoding from bytes: one command is one byte (R85, R93); the rest follows. -/
def decode : List (BitVec 8) → Except DecodeError (Instr × List (BitVec 8))
  | [] => .error .noByte
  | b :: bs =>
    match decodeOpcode b with
    | .ok i => .ok (i, bs)
    | .error e => .error e

/-- The command word of a command: family in bits 7:4, operation in bits 3:0 (R86, R87). -/
def encode : Instr → Opcode
  | .rdd => 0x00
  | .wrd => 0x01
  | .rmwd => 0x02
  | .rdx => 0x03
  | .wrx => 0x04
  | .rmwx => 0x05
  | .ident => 0x10
  | .linksup => 0x11
  | .setlink => 0x20
  | .setclksh => 0x21
  | .setclkdly => 0x22
  | .setimped => 0x23
  | .setfifo => 0x24
  | .setgpio => 0x25
  | .setled => 0x26
  | .setmdix => 0x27
  | .setidle => 0x28
  | .setdspeq => 0x29
  | .fldfix => 0x2A
  | .setloop => 0x2B
  | .configure => 0x30
  | .reset => 0x40
  | .isrstdone => 0x41

/-- The bytes of a command. -/
def encodeBytes (i : Instr) : List (BitVec 8) := [encode i]

/-- The command that a table word of `nbits` bits stands for: its one byte, given to the decoder. -/
def decodeTableWord (nbits w : Nat) : Option Instr :=
  if nbits ≤ 8 ∧ w < 256 then
    match decode [BitVec.ofNat 8 w] with
    | .ok (i, _) => some i
    | .error _ => none
  else none

end Sys2Proof
end

