-- ==== Sys2Proof/Machine/Fields.lean ====
section
/-! DEFINITION. Field masks and field packing (00_scope.md R13, 30_encoding.md R90). -/

namespace Sys2Proof.Machine

/-- `shift(m)`: the position of the lowest set bit (R13). A mask of 0 is no field; 0 is answered (log entry 16). -/
def fieldShift (m : Word) : Nat := ((List.range 16).find? fun i => m.getLsbD i).getD 0

/-- `width(m)`: the number of set bits (R13). -/
def fieldWidth (m : Word) : Nat := ((List.range 16).filter fun i => m.getLsbD i).length

/-- R13: a field's set bits are contiguous and non-empty. -/
def isField (m : Word) : Bool :=
  m != 0 && m == BitVec.ofNat 16 ((2 ^ fieldWidth m - 1) * 2 ^ fieldShift m)

/-- R13: a field of the stated width. -/
def isFieldOf (n : Nat) (m : Word) : Bool := isField m && fieldWidth m == n

/-- `place(m, v) = (v << shift(m)) & m` (R13, R90): the low `width(m)` bits of `v`, in the field. -/
def place (m : Word) (v : Nat) : Word := BitVec.ofNat 16 (v <<< fieldShift m) &&& m

end Sys2Proof.Machine
end

