-- ==== Sys2Proof/Config.lean ====
section
/-! DEFINITION. What an implementation fixes (the register map `RM` and `DEVADDR`), what the environment
may choose at a transport event, and the free values. The free constants have no body: nothing can be
proved about what they are (log entries 3, 4, 9). -/

namespace Sys2Proof

/-- A register location of the PHY: direct, or extended (00_scope.md R15). -/
inductive RegLoc where
  | direct (a : Direct5)
  | ext (x : Ext16)
  deriving DecidableEq, Repr, Inhabited

/-- The register map `RM` (10_state.md R40 to R55). A `Word` documented as a field is a 16-bit mask
(00_scope.md R13). `fifoField` is not here: the spec fixes it (R47), see `RegMap.fifoField`. -/
structure RegMap where
  /-- R41: the MMD control register. -/
  mmdCtl : Direct5
  /-- R41: the MMD data register. -/
  mmdData : Direct5
  /-- R41: the word that selects address mode. -/
  mmdAddrWord : Word
  /-- R41: the word that selects data mode without post-increment. -/
  mmdDataWord : Word
  /-- R42: the control register with the reset bit. -/
  ctrl : RegLoc
  /-- R42: the self-clearing reset bit, a field of width 1. -/
  resetBit : Word
  /-- R43: the mode-control register. -/
  modeCtl : Ext16
  /-- R43: the RMII-enable bit, a field of width 1. -/
  rmiiEn : Word
  /-- R44: the clock-shift register; may equal `modeCtl`. -/
  clkShift : Ext16
  /-- R44: TX clock-shift enable, a field of width 1. -/
  txShift : Word
  /-- R44: RX clock-shift enable, a field of width 1. -/
  rxShift : Word
  /-- R45: the clock-delay register. -/
  clkDelay : RegLoc
  /-- R45: TX delay steps, a field of width 4. -/
  txDelay : Word
  /-- R45: RX delay steps; `0x000F` in a well-formed map. -/
  rxDelay : Word
  /-- R46: the output-impedance register. -/
  imped : RegLoc
  /-- R46: the impedance code, a field of width 5. -/
  impedField : Word
  /-- R47: the FIFO control register. -/
  fifo : RegLoc
  /-- R47: the code of depth 3. -/
  fifoCode3 : BitVec 2
  /-- R47: the code of depth 4. -/
  fifoCode4 : BitVec 2
  /-- R47: the code of depth 6. -/
  fifoCode6 : BitVec 2
  /-- R47: the code of depth 8. -/
  fifoCode8 : BitVec 2
  /-- R48: the GPIO mux register. -/
  gpio : RegLoc
  /-- R48: GPIO0 mode code, a field of width 4. -/
  gpio0 : Word
  /-- R48: GPIO1 mode code, a field of width 4. -/
  gpio1 : Word
  /-- R49: the LED mode register. -/
  led : RegLoc
  /-- R49: `ledField[0]`, a field of width 4. -/
  ledField0 : Word
  /-- R49: `ledField[1]`. -/
  ledField1 : Word
  /-- R49: `ledField[2]`. -/
  ledField2 : Word
  /-- R49: `ledField[3]`. -/
  ledField3 : Word
  /-- R50: the register with the crossover-mode field. -/
  mdix : Direct5
  /-- R50: the crossover-mode field, width 2. -/
  mdixField : Word
  /-- R50: the code written when enabling. -/
  mdixAuto : BitVec 2
  /-- R50: the code written when not enabling. -/
  mdixOff : BitVec 2
  /-- R50: the second register. -/
  mdix2 : Direct5
  /-- R50: the robust auto-MDIX bit, a field of width 1. -/
  robustBit : Word
  /-- R51: the loopback control register. -/
  loop : Ext16
  /-- R51: the value that enables loopback. -/
  loopOn : Word
  /-- R51: the value for normal operation. -/
  loopOff : Word
  /-- R52: the strap-status register. -/
  strap : Ext16
  /-- R52: the status bit that triggers the fix-up, a field of width 1. -/
  fldStrapBit : Word
  /-- R52: the threshold register. -/
  fldThr : RegLoc
  /-- R52: the threshold field, width 3. -/
  fldThrField : Word
  /-- R52: the forced value. -/
  fldThrVal : BitVec 3
  /-- R53: the idle-detect threshold register. -/
  idle : Ext16
  /-- R53: the threshold field. -/
  idleField : Word
  /-- R54: the equalizer tuning register. -/
  dspEq : Ext16
  /-- R54: the bits the tuning occupies. -/
  dspEqMask : Word
  /-- R54: the tuning constant, pre-shifted. -/
  dspEqVal : Word
  /-- R55: expected organizationally-unique id. -/
  idOui : BitVec 32
  /-- R55: expected model. -/
  idModel : BitVec 32
  /-- R55: expected revision. -/
  idRev : BitVec 32
  deriving DecidableEq, Repr, Inhabited

/-- R47, R8: the FIFO field is bits 15:14, fixed by the source. -/
def RegMap.fifoField : Word := 0xC000

/-- A step the environment takes on its own (20_memory.md R80 (a), (b)). -/
inductive EnvMove where
  /-- R80 (a): the reset bit, if set, clears itself. -/
  | clearReset
  /-- R80 (b): while a PHY reset is under way, any register changes to any value (but for the strap bit, R80 (d)). -/
  | change (loc : RegLoc) (v : Word)
  /-- R80 (b) for the address latch, which is PHY state too (R77). -/
  | changeLatch (v : Word)
  deriving DecidableEq, Repr, Inhabited

/-- What the environment chooses at one transport event (R76, R80). -/
structure Draw where
  /-- Its own steps since the last event, in order. -/
  moves : List EnvMove
  /-- `none`: the event succeeds; `some k`: it fails with kind `k`. -/
  fail : Option Kind
  /-- For a failed event: whether it took effect at the PHY all the same (R80 (c), R173). -/
  lands : Bool
  /-- For a successful read: `some v` is the general oracle's own answer (R76); `none` is the value ENV_REF
  gives (R79). -/
  value : Option Word
  deriving DecidableEq, Repr, Inhabited

/-- FREE VALUE: the register map the engine is instantiated with (R9). Log entry 3. -/
opaque Config.regMap : RegMap

/-- FREE VALUE: `DEVADDR` (R10). Log entry 3. -/
opaque Config.devAddr : Nat

/-- FREE VALUE: what the environment chooses at the `n`-th transport event when `State.env` lists no choice
(R76). Log entry 4. -/
opaque Config.freeDraw : Nat → Draw

/-- FREE VALUE: what the `n`-th transport event reads where ENV_REF has no meaning (R79, U17). Log entry 9. -/
opaque Config.freeWord : Nat → Word

end Sys2Proof
end

