-- ==== Sys2Proof/Machine/State.lean ====
section
/-! DEFINITION. The state of the engine, of the environment behind its transport port and of the host's and
environment's pending choices, as plain data (10_state.md; 20_memory.md part E), and the state after reset. -/

namespace Sys2Proof.Machine

/-- The operand and parameter registers by name (R22, indices 0x08 to 0x22). -/
inductive Operand where
  | aAddr | aMask | aVal
  | pTxShift | pRxShift | pTxDelay | pRxDelay | pFifo | pImped | pGpio0 | pGpio1
  | pLed0 | pLed1 | pLed2 | pLed3 | pIdleThr | pMdixEn | pLoopEn | pLinkMode
  | pOui | pModel | pRev
  deriving DecidableEq, Repr

/-- Every operand register. -/
def Operand.all : List Operand :=
  [.aAddr, .aMask, .aVal, .pTxShift, .pRxShift, .pTxDelay, .pRxDelay, .pFifo, .pImped, .pGpio0, .pGpio1,
   .pLed0, .pLed1, .pLed2, .pLed3, .pIdleThr, .pMdixEn, .pLoopEn, .pLinkMode, .pOui, .pModel, .pRev]

/-- The host-visible registers (R22). -/
inductive HostReg where
  | cmd | status | rval | rbool | rstate
  | operand (o : Operand)
  deriving DecidableEq, Repr

/-- The operand registers' contents, each at the width of R22. -/
structure Operands where
  aAddr : BitVec 16
  aMask : BitVec 16
  aVal : BitVec 16
  pTxShift : BitVec 1
  pRxShift : BitVec 1
  pTxDelay : BitVec 32
  pRxDelay : BitVec 32
  pFifo : BitVec 32
  pImped : BitVec 32
  pGpio0 : BitVec 32
  pGpio1 : BitVec 32
  pLed0 : BitVec 32
  pLed1 : BitVec 32
  pLed2 : BitVec 32
  pLed3 : BitVec 32
  pIdleThr : BitVec 32
  pMdixEn : BitVec 1
  pLoopEn : BitVec 1
  pLinkMode : BitVec 32
  pOui : BitVec 32
  pModel : BitVec 32
  pRev : BitVec 32
  deriving DecidableEq, Repr

/-- The states of the Reset State Machine (R29, R158); the code 3 is never held. -/
inductive ResetState where
  | idle | requested | complete
  deriving DecidableEq, Repr

/-- The sequencer position `SEQ` (R30): `IDLE`, or the opcode in progress, the sub-operation index and the
number of transport events completed. -/
inductive Seq where
  | idle
  | running (op : Opcode) (k : Nat) (n : Nat)
  deriving DecidableEq, Repr

/-- A transport event of the bus trace (R16), with the device address it went to (R60). -/
inductive BusEvent where
  /-- `TR(a)=v` -/
  | read (dev : Nat) (a : Direct5) (v : Word)
  /-- `TR(a)!k` -/
  | readFailed (dev : Nat) (a : Direct5) (k : Kind)
  /-- `TW(a,v)` -/
  | write (dev : Nat) (a : Direct5) (v : Word)
  /-- `TW(a,v)!k` -/
  | writeFailed (dev : Nat) (a : Direct5) (v : Word) (k : Kind)
  deriving DecidableEq, Repr

/-- A register space of the PHY: (register number, word) pairs, numbers rising, no entry equal to what an
unlisted register reads as (`Mem.wf`). The unit is the 16-bit word, the only unit the spec has (R66). -/
abbrev Mem := List (Nat × Word)

/-- What an unlisted PHY register reads as. DESIGN CHOICE, unsafe: the spec gives the PHY's registers no
initial value (R77, R191). Log entry 2. -/
def Mem.unlisted : Word := 0

/-- The PHY as `ENV_REF` sees it (R77). -/
structure Phy where
  /-- `D[0..31]`. -/
  d : Mem
  /-- `X[0..65535]`. -/
  x : Mem
  /-- `XA`, the extended address last written in address mode. -/
  xa : Word
  /-- ENV_REF was asked for something it has no meaning for (R78, R79 `refuse`); from then on what the PHY
  holds is unknown and reads return free values. Log entry 9. -/
  lost : Bool
  deriving DecidableEq, Repr

/-- A move of the host (R20, R94): `SET` or a mnemonic (a write to `CMD`), `GET`, or the engine's reset
(R190). A register is named by its index (R22). -/
inductive HostMove where
  | write (index : BitVec 8) (v : BitVec 32)
  | read (index : BitVec 8)
  | engineReset
  deriving DecidableEq, Repr

/-- The machine's state. -/
structure State where
  /-- `RM`: a parameter, which no step changes (R20, R40). -/
  rm : RegMap
  /-- `DEVADDR`: a parameter, which no step changes (R10). -/
  devAddr : Nat
  /-- The operand registers (R22, R24 to R27). -/
  ops : Operands
  /-- `STATUS` (R32). -/
  status : Word
  /-- `RVAL` (R23). -/
  rval : Word
  /-- `RBOOL` (R23). -/
  rbool : BitVec 1
  /-- `RSTATE` (R29). -/
  rstate : ResetState
  /-- `SEQ` (R30). -/
  seq : Seq
  /-- The bus trace of the command in progress or last ended, oldest event first (R16). -/
  trace : List BusEvent
  /-- The PHY (R77). -/
  phy : Phy
  /-- The environment's coming choices, one per transport event (R76). Log entry 4. -/
  env : List Draw
  /-- How many transport events have been drawn: the argument of the free values. Log entry 4. -/
  tick : Nat
  /-- The host's coming moves, next first. Log entry 6. -/
  host : List HostMove
  /-- What the host's reads returned, oldest first. Log entry 6. -/
  got : List (HostReg × BitVec 32)
  /-- The operand registers the host has not written since reset (R58, R193). -/
  unwritten : List Operand
  /-- A command has read an operand register the host never wrote: the host program's fault of R58 and U12,
  recorded. Log entry 1. -/
  hostFault : Bool
  deriving DecidableEq, Repr

/-- Why the machine stops with a fault. -/
inductive Fault where
  /-- Raised by `engineStep` alone: SEQ names no command, or the bus trace is not one the command in progress
  leads to. Safe: no command leaves such a state. Log entry 15. -/
  | sequencerCorrupt
  deriving DecidableEq, Repr

/-- Why the machine gives a step no meaning. -/
inductive Refusal where
  /-- Raised by an arm of `exec` that has no meaning yet. Safe. -/
  | notModelled (mnemonic : String)
  /-- Raised by a host access to an index that is no register (R22, U13). Safe. -/
  | noHostRegister (index : BitVec 8)
  /-- Raised by a host write to a register the host may only read (R22). Safe. Log entry 7. -/
  | hostMayNotWrite (r : HostReg)
  /-- Raised by a host read of a register the host may only write (R22). Safe. Log entry 7. -/
  | hostMayNotRead (r : HostReg)
  deriving DecidableEq, Repr

/-- A step's outcome. -/
abbrev Outcome := Host.Outcome State Fault Refusal

/-- `BUSY` (R31): 1 exactly while `SEQ` is not `IDLE`. Log entry 14. -/
def State.busy (s : State) : Bool := s.seq != .idle

/-- The operand registers after reset. DESIGN CHOICE, unsafe: the spec leaves them unspecified (R58, R190).
Log entry 1. -/
def Operands.reset : Operands where
  aAddr := 0
  aMask := 0
  aVal := 0
  pTxShift := 0
  pRxShift := 0
  pTxDelay := 0
  pRxDelay := 0
  pFifo := 0
  pImped := 0
  pGpio0 := 0
  pGpio1 := 0
  pLed0 := 0
  pLed1 := 0
  pLed2 := 0
  pLed3 := 0
  pIdleThr := 0
  pMdixEn := 0
  pLoopEn := 0
  pLinkMode := 0
  pOui := 0
  pModel := 0
  pRev := 0

/-- The PHY at the start. DESIGN CHOICE, unsafe: its contents are arbitrary in the spec (R77, R191).
Log entry 2. -/
def Phy.initial : Phy where
  d := []
  x := []
  xa := 0
  lost := false

/-- The machine after reset, instantiated with a register map and a device address (R58, R190). -/
def State.resetWith (rm : RegMap) (devAddr : Nat) : State where
  rm := rm
  devAddr := devAddr
  ops := Operands.reset
  status := 0
  rval := 0
  rbool := 0
  rstate := .idle
  seq := .idle
  trace := []
  phy := Phy.initial
  env := []
  tick := 0
  host := []
  got := []
  unwritten := Operand.all
  hostFault := false

/-- The machine after reset; `RM` and `DEVADDR` are the free constants of Config (R9, R10). -/
def State.reset : State := State.resetWith Config.regMap Config.devAddr

end Sys2Proof.Machine
end

