-- ==== Sys2Proof/Machine/Flags.lean ====
section
/-! DEFINITION. Results and the word `STATUS` holds for each (10_state.md R32, 60_exceptions.md R166, R167),
and the code of `RSTATE` (R29). -/

namespace Sys2Proof.Machine

/-- The result of a command (R167). -/
inductive Result where
  | ok
  | invalidParameter
  | transportFailure (k : Kind)
  | illegalCommand
  deriving DecidableEq, Repr

/-- The `STATUS` word of a result: `CODE` in bits 3:0, zero in 7:4, `KIND` in 15:8 (R32, R167). -/
def Result.word : Result → Word
  | .ok => 0x0000
  | .invalidParameter => 0x0001
  | .transportFailure k => (k.setWidth 16 <<< 8) ||| 0x0002
  | .illegalCommand => 0x0003

/-- `STATUS.CODE` (R32). -/
def statusCode (w : Word) : BitVec 4 := w.extractLsb' 0 4

/-- `STATUS` bits 7:4, always 0 (R32). -/
def statusZero (w : Word) : BitVec 4 := w.extractLsb' 4 4

/-- `STATUS.KIND` (R32). -/
def statusKind (w : Word) : Kind := w.extractLsb' 8 8

/-- The code of an `RSTATE` value (R29). -/
def ResetState.code : ResetState → BitVec 2
  | .idle => 0
  | .requested => 1
  | .complete => 2

end Sys2Proof.Machine
end

