-- ==== Sys2Proof/Machine/Operands.lean ====
section
/-! DEFINITION. The host register space (10_state.md R22; 20_memory.md R65) and the conversions the
Configuration Engine applies to operands (42_config_subops.md R128, R130, R132; 30_encoding.md R96). -/

namespace Sys2Proof.Machine

/-- The register an index names (R22); indices not in the table are not registers. -/
def hostRegister (index : BitVec 8) : Option HostReg :=
  match index.toNat with
  | 0x00 => some .cmd
  | 0x01 => some .status
  | 0x02 => some .rval
  | 0x03 => some .rbool
  | 0x04 => some .rstate
  | 0x08 => some (.operand .aAddr)
  | 0x09 => some (.operand .aMask)
  | 0x0A => some (.operand .aVal)
  | 0x10 => some (.operand .pTxShift)
  | 0x11 => some (.operand .pRxShift)
  | 0x12 => some (.operand .pTxDelay)
  | 0x13 => some (.operand .pRxDelay)
  | 0x14 => some (.operand .pFifo)
  | 0x15 => some (.operand .pImped)
  | 0x16 => some (.operand .pGpio0)
  | 0x17 => some (.operand .pGpio1)
  | 0x18 => some (.operand .pLed0)
  | 0x19 => some (.operand .pLed1)
  | 0x1A => some (.operand .pLed2)
  | 0x1B => some (.operand .pLed3)
  | 0x1C => some (.operand .pIdleThr)
  | 0x1D => some (.operand .pMdixEn)
  | 0x1E => some (.operand .pLoopEn)
  | 0x1F => some (.operand .pLinkMode)
  | 0x20 => some (.operand .pOui)
  | 0x21 => some (.operand .pModel)
  | 0x22 => some (.operand .pRev)
  | _ => none

/-- `H[NAME]` for an operand register, widened with zeros (R14, R22). -/
def Operands.get (b : Operands) : Operand → BitVec 32
  | .aAddr => b.aAddr.setWidth 32
  | .aMask => b.aMask.setWidth 32
  | .aVal => b.aVal.setWidth 32
  | .pTxShift => b.pTxShift.setWidth 32
  | .pRxShift => b.pRxShift.setWidth 32
  | .pTxDelay => b.pTxDelay
  | .pRxDelay => b.pRxDelay
  | .pFifo => b.pFifo
  | .pImped => b.pImped
  | .pGpio0 => b.pGpio0
  | .pGpio1 => b.pGpio1
  | .pLed0 => b.pLed0
  | .pLed1 => b.pLed1
  | .pLed2 => b.pLed2
  | .pLed3 => b.pLed3
  | .pIdleThr => b.pIdleThr
  | .pMdixEn => b.pMdixEn.setWidth 32
  | .pLoopEn => b.pLoopEn.setWidth 32
  | .pLinkMode => b.pLinkMode
  | .pOui => b.pOui
  | .pModel => b.pModel
  | .pRev => b.pRev

/-- `H[NAME] <- v` for an operand register: the value truncated to the register's width (R14, R22). -/
def Operands.set (b : Operands) (o : Operand) (v : BitVec 32) : Operands :=
  match o with
  | .aAddr => { b with aAddr := v.setWidth 16 }
  | .aMask => { b with aMask := v.setWidth 16 }
  | .aVal => { b with aVal := v.setWidth 16 }
  | .pTxShift => { b with pTxShift := v.setWidth 1 }
  | .pRxShift => { b with pRxShift := v.setWidth 1 }
  | .pTxDelay => { b with pTxDelay := v }
  | .pRxDelay => { b with pRxDelay := v }
  | .pFifo => { b with pFifo := v }
  | .pImped => { b with pImped := v }
  | .pGpio0 => { b with pGpio0 := v }
  | .pGpio1 => { b with pGpio1 := v }
  | .pLed0 => { b with pLed0 := v }
  | .pLed1 => { b with pLed1 := v }
  | .pLed2 => { b with pLed2 := v }
  | .pLed3 => { b with pLed3 := v }
  | .pIdleThr => { b with pIdleThr := v }
  | .pMdixEn => { b with pMdixEn := v.setWidth 1 }
  | .pLoopEn => { b with pLoopEn := v.setWidth 1 }
  | .pLinkMode => { b with pLinkMode := v }
  | .pOui => { b with pOui := v }
  | .pModel => { b with pModel := v }
  | .pRev => { b with pRev := v }

/-- What a host read returns: the register widened with zeros; `none` where the host has no right to read
(R22). -/
def State.hostRead (s : State) : HostReg → Option (BitVec 32)
  | .cmd => none
  | .status => some (s.status.setWidth 32)
  | .rval => some (s.rval.setWidth 32)
  | .rbool => some (s.rbool.setWidth 32)
  | .rstate => some (s.rstate.code.setWidth 32)
  | .operand o => some (s.ops.get o)

/-- A host write of an operand register (R22): it holds the value from now on, and has been written. -/
def State.setOperand (s : State) (o : Operand) (v : BitVec 32) : State :=
  { s with ops := s.ops.set o v, unwritten := s.unwritten.filter (· ≠ o) }

/-- `P_LINKMODE` selects RMII (R96). -/
def isRmii (m : BitVec 32) : Bool := m = 1

/-- MII or RMII: the supported modes (R96, R122). -/
def linkModeSupported (m : BitVec 32) : Bool := m = 0 ∨ m = 1

/-- `ceil_div(a, b)` (R12). -/
def ceilDiv (a b : Nat) : Nat := (a + b - 1) / b

/-- `DelaySteps(d)` (R128). -/
def delaySteps (d : Nat) : Nat := min (ceilDiv (max d 1) 250 - 1) 15

/-- `ImpedCode(z)` (R130). -/
def impedCode (z : Nat) : Nat := ((70000 - z) * 31 + 17500) / 35000

/-- `RM.fifoCode` on the admitted depths; `none` for every other value (R47, R132). -/
def fifoCode (rm : RegMap) (f : BitVec 32) : Option (BitVec 2) :=
  match f.toNat with
  | 3 => some rm.fifoCode3
  | 4 => some rm.fifoCode4
  | 6 => some rm.fifoCode6
  | 8 => some rm.fifoCode8
  | _ => none

/-- R8, R48: a GPIO mux field has 9 enumerated mode codes. No step depends on the number: the codes themselves are not
in the source, and an operand is truncated, never checked against them (R141). -/
def gpioModeCount : Nat := 9

/-- R8, R49: an LED mode field has 14 enumerated mode codes; as for `gpioModeCount`, no step depends on it (R141). -/
def ledModeCount : Nat := 14

/-- Which 4-bit values are the `n` mode codes of a field is open (R48, R49): any `n` different ones may be. -/
def isModeEnumeration (n : Nat) (codes : List (BitVec 4)) : Bool := codes.length = n ∧ codes.Nodup

end Sys2Proof.Machine
end

