-- ==== Sys2Proof/Machine/Ops.lean ====
section
/-! DEFINITION. The shared operations: the PHY's register spaces and their environment (20_memory.md parts B
and E), the transport port (part A), the form of a command's fixed sequence, its run, and how a command ends
(60_exceptions.md R170 to R173), which is all the engine has of exceptions (R175). -/

namespace Sys2Proof.Machine

/-! Register spaces -/

/-- Reading one register of a space. -/
def Mem.read : Mem → Nat → Word
  | [], _ => Mem.unlisted
  | (b, w) :: m, a => if b = a then w else Mem.read m a

/-- The space without an entry for `a`. -/
def Mem.erase (m : Mem) (a : Nat) : Mem := m.filter fun p => p.1 ≠ a

/-- An entry put before the first larger register number. -/
def Mem.insert : Mem → Nat → Word → Mem
  | [], a, v => [(a, v)]
  | (b, w) :: m, a, v => if a < b then (a, v) :: (b, w) :: m else (b, w) :: Mem.insert m a v

/-- Writing one register of a space; the value an unlisted register reads as is not listed. -/
def Mem.write (m : Mem) (a : Nat) (v : Word) : Mem :=
  if v = Mem.unlisted then Mem.erase m a else Mem.insert (Mem.erase m a) a v

/-- The canonical form: register numbers strictly rising and below `n`, no entry that need not be listed. -/
abbrev Mem.wf (n : Nat) (m : Mem) : Prop :=
  m.Pairwise (fun p q => p.1 < q.1) ∧ ∀ p ∈ m, p.1 < n ∧ p.2 ≠ Mem.unlisted

/-! The PHY (R77) -/

/-- `D[a]` -/
def Phy.direct (p : Phy) (a : Direct5) : Word := p.d.read a.toNat

/-- `D[a] <- v` -/
def Phy.setDirect (p : Phy) (a : Direct5) (v : Word) : Phy := { p with d := p.d.write a.toNat v }

/-- `X[x]` -/
def Phy.ext (p : Phy) (x : Ext16) : Word := p.x.read x.toNat

/-- `X[x] <- v` -/
def Phy.setExt (p : Phy) (x : Ext16) (v : Word) : Phy := { p with x := p.x.write x.toNat v }

/-- The register at a location (R15). -/
def Phy.reg (p : Phy) : RegLoc → Word
  | .direct a => p.direct a
  | .ext x => p.ext x

/-- A register's new contents, by location. -/
def Phy.setReg (p : Phy) (l : RegLoc) (v : Word) : Phy :=
  match l with
  | .direct a => p.setDirect a v
  | .ext x => p.setExt x v

/-- The access mode the MMD control register holds (R34, R78). -/
inductive MmdMode where
  | address | data | other
  deriving DecidableEq, Repr

/-- The access mode (R78, R79): decided by `D[RM.mmdCtl]`. -/
def Phy.mode (rm : RegMap) (p : Phy) : MmdMode :=
  if p.direct rm.mmdCtl = rm.mmdAddrWord then .address
  else if p.direct rm.mmdCtl = rm.mmdDataWord then .data
  else .other

/-- A register's new contents as the PHY takes them from `v`: the strap bit is read-only (R36) and keeps its
value (R80 (d)); every other bit takes that of `v`. Log entry 11. -/
def Phy.keepStrap (rm : RegMap) (p : Phy) (l : RegLoc) (v : Word) : Word :=
  if l = .ext rm.strap then (v &&& ~~~rm.fldStrapBit) ||| (p.reg l &&& rm.fldStrapBit) else v

/-- A store of `v` to a register, by a write or by the environment: the one way a register may change that can
be the strap register (R36, R78, R80). -/
def Phy.store (rm : RegMap) (p : Phy) (l : RegLoc) (v : Word) : Phy := p.setReg l (p.keepStrap rm l v)

/-- ENV_REF on a write that takes effect (R78); its `refuse` marks the PHY's contents as lost (log entry 9). -/
def Phy.write (rm : RegMap) (p : Phy) (a : Direct5) (v : Word) : Phy :=
  if a = rm.mmdData then
    match p.mode rm with
    | .address => { p with xa := v }
    | .data => p.store rm (.ext p.xa) v
    | .other => { p with lost := true }
  else p.setDirect a v

/-- ENV_REF on a read (R79): the value, or nothing where it refuses. -/
def Phy.read (rm : RegMap) (p : Phy) (a : Direct5) : Option Word :=
  if a = rm.mmdData then
    match p.mode rm with
    | .address => some p.xa
    | .data => some (p.ext p.xa)
    | .other => none
  else some (p.direct a)

/-- A PHY reset is under way: the reset bit reads 1 (R42, R80; log entry 10). -/
def Phy.resetting (rm : RegMap) (p : Phy) : Bool := p.reg rm.ctrl &&& rm.resetBit ≠ 0

/-- A step of the environment's own (R80): (a) and (b) are possible only while a PHY reset is under way. -/
def Phy.move (rm : RegMap) (p : Phy) (m : EnvMove) : Phy :=
  if p.resetting rm then
    match m with
    | .clearReset => p.store rm rm.ctrl (p.reg rm.ctrl &&& ~~~rm.resetBit)
    | .change l v => p.store rm l v
    | .changeLatch v => { p with xa := v }
  else p

/-! The transport port (R60, R61, R76) -/

/-- The environment's choices for the next transport event: the next listed, else free (log entry 4). -/
def State.draw (s : State) : Draw :=
  match s.env with
  | d :: _ => d
  | [] => Config.freeDraw s.tick

/-- The choices are used up and the environment's own steps taken (R80: between any two events). -/
def State.takeDraw (s : State) : State :=
  { s with phy := s.draw.moves.foldl (Phy.move s.rm) s.phy, env := s.env.tail, tick := s.tick + 1 }

/-- An event is added to the bus trace (R16). -/
def State.record (s : State) (e : BusEvent) : State := { s with trace := s.trace ++ [e] }

/-- SEQ after a completed event: `s` grows by 1 (R30). -/
def Seq.count : Seq → Seq
  | .idle => .idle
  | .running op k n => .running op k (n + 1)

/-- SEQ when sub-operation `k` begins (R30, R151). -/
def Seq.enter (k : Nat) : Seq → Seq
  | .idle => .idle
  | .running op _ n => .running op k n

/-- The sequencer counts a completed event. -/
def State.countEvent (s : State) : State := { s with seq := s.seq.count }

/-- The value a successful read returns (R76, R79): the oracle's own, or the PHY's; free where ENV_REF has no
meaning (log entry 9). -/
def State.readValue (s : State) (d : Draw) (tick : Nat) (a : Direct5) : Word :=
  match d.value with
  | some v => v
  | none => if s.phy.lost then Config.freeWord tick else (s.phy.read s.rm a).getD (Config.freeWord tick)

/-- What a read that takes effect leaves of the PHY: unchanged, but lost where ENV_REF refuses (R79; log
entry 9). -/
def State.readEffect (s : State) (a : Direct5) : State :=
  if s.phy.read s.rm a = none then { s with phy := { s.phy with lost := true } } else s

/-- What a write leaves of the PHY (R78). -/
def State.writeEffect (s : State) (a : Direct5) (v : Word) : State :=
  { s with phy := s.phy.write s.rm a v }

/-- `TR(a)` (R14, R60): a value, or a failure kind; a failed read may have taken effect at the PHY (R173), which
only a read that ENV_REF refuses can show (log entries 9, 12). -/
def transportRead (a : Direct5) (s : State) : Except Kind Word × State :=
  match s.draw.fail with
  | some k =>
    (.error k,
      (if s.draw.lands then s.takeDraw.readEffect a else s.takeDraw).record (.readFailed s.devAddr a k))
  | none =>
    (.ok (s.takeDraw.readValue s.draw s.tick a),
      ((s.takeDraw.readEffect a).record
        (.read s.devAddr a (s.takeDraw.readValue s.draw s.tick a))).countEvent)

/-- `TW(a, v)` (R14, R60): done, or a failure kind; a failed write may have taken effect (R80 (c),
R173; log entry 12). -/
def transportWrite (a : Direct5) (v : Word) (s : State) : Except Kind Unit × State :=
  match s.draw.fail with
  | some k =>
    (.error k,
      (if s.draw.lands then s.takeDraw.writeEffect a v else s.takeDraw).record
        (.writeFailed s.devAddr a v k))
  | none => (.ok (), ((s.takeDraw.writeEffect a v).record (.write s.devAddr a v)).countEvent)

/-! How a command ends (R171 to R173) -/

/-- What a command leaves at its end: its result and the result registers it writes. -/
structure Ending where
  result : Result
  rval : Option Word
  rbool : Option (BitVec 1)
  rstate : Option ResetState
  deriving DecidableEq, Repr

/-- `return` (R171). -/
def Ending.ok : Ending := ⟨.ok, none, none, none⟩

/-- `return` after `H[RVAL] <- v`. -/
def Ending.value (v : Word) : Ending := ⟨.ok, some v, none, none⟩

/-- `return` after `H[RBOOL] <- b`. -/
def Ending.bool (b : Bool) : Ending := ⟨.ok, none, some (BitVec.ofBool b), none⟩

/-- `raise InvalidParameter` (R172). -/
def Ending.invalid : Ending := ⟨.invalidParameter, none, none, none⟩

/-- `raise TransportFailure(k)` (R173); `b` is what the command writes to RBOOL then. -/
def Ending.transport (b : Option (BitVec 1)) (k : Kind) : Ending := ⟨.transportFailure k, none, b, none⟩

/-- The end of a command (R171 to R173): STATUS, the result registers the ending writes, SEQ to IDLE. -/
def State.finish (s : State) (e : Ending) : State :=
  { s with
    status := e.result.word
    rval := e.rval.getD s.rval
    rbool := e.rbool.getD s.rbool
    rstate := e.rstate.getD s.rstate
    seq := .idle }

/-- The issue of a command (R85): SEQ <- (op, 0, 0), and its bus trace is empty so far. -/
def State.start (s : State) (op : Opcode) : State := { s with seq := .running op 0 0, trace := [] }

/-- An illegal command (R91, R170): STATUS <- 0x0003, no event, nothing else. -/
def State.illegalCommand (s : State) : State :=
  { s with status := Result.illegalCommand.word, seq := .idle, trace := [] }

/-- A command reads operand register `o`: if the host never wrote it, that is the host's fault (R58). -/
def State.useOperand (s : State) (o : Operand) : State :=
  { s with hostFault := s.hostFault || s.unwritten.contains o }

/-- CONFIGURE reaches sub-operation `k` (R151). -/
def State.enterSub (s : State) (k : Nat) : State := { s with seq := s.seq.enter k }

/-! A command's fixed sequence -/

/-- The wired sequence of a command (R85): what it does until it ends. After a failed event nothing more of it
is done (R105), so an event has a continuation for success only. -/
inductive Act where
  /-- The command ends. -/
  | fin (e : Ending)
  /-- Operand register `o` is read here. -/
  | use (o : Operand) (rest : Act)
  /-- Sub-operation `k` of CONFIGURE begins here. -/
  | sub (k : Nat) (rest : Act)
  /-- `v <- TR(a)`, then the rest. -/
  | tr (a : Direct5) (rest : Word → Act)
  /-- `TW(a, v)`, then the rest. -/
  | tw (a : Direct5) (v : Word) (rest : Act)

/-- A command: its sequence, and what it writes to RBOOL when a transport event fails (only ISRSTDONE does,
R160, R173). -/
structure Command where
  act : Act
  failBool : Option (BitVec 1)

/-- Several operand registers are read, in order. -/
def useAll : List Operand → Act → Act
  | [], p => p
  | o :: os, p => .use o (useAll os p)

/-- The body of one sub-operation followed by what comes after it (R151): its `return` goes on, any other end
is the end (R152, R153). -/
def Act.andThen : Act → Act → Act
  | .fin e, q => if e.result = .ok then q else .fin e
  | .use o p, q => .use o (p.andThen q)
  | .sub k p, q => .sub k (p.andThen q)
  | .tr a f, q => .tr a fun v => (f v).andThen q
  | .tw a v p, q => .tw a v (p.andThen q)

/-- A sequence run to its end: one transport event after another, the first failure ends it (R71, R105). -/
def run (b : Option (BitVec 1)) : Act → State → State
  | .fin e, s => s.finish e
  | .use o p, s => run b p (s.useOperand o)
  | .sub k p, s => run b p (s.enterSub k)
  | .tr a f, s =>
    match transportRead a s with
    | (.ok v, s') => run b (f v) s'
    | (.error k, s') => s'.finish (.transport b k)
  | .tw a v p, s =>
    match transportWrite a v s with
    | (.ok _, s') => run b p s'
    | (.error k, s') => s'.finish (.transport b k)

/-- A command issued and run to its end (R85). -/
def runCommand (op : Opcode) (c : Command) (s : State) : State := run c.failBool c.act (s.start op)

/-! The same sequence one transport event at a time (R30, D32) -/

/-- The engine's own work up to the next transport event: operand reads, sub-operation marks, the end. -/
def advance : Act → State → State
  | .fin e, s => s.finish e
  | .use o p, s => advance p (s.useOperand o)
  | .sub k p, s => advance p (s.enterSub k)
  | .tr _ _, s => s
  | .tw _ _ _, s => s

/-- What is left of a sequence after the completed events of a bus trace; nothing if the trace is not one the
sequence leads to. -/
def Act.after (dev : Nat) : Act → List BusEvent → Option Act
  | .fin e, t => if t = [] then some (.fin e) else none
  | .use o p, t => if t = [] then some (.use o p) else p.after dev t
  | .sub k p, t => if t = [] then some (.sub k p) else p.after dev t
  | .tr a f, t =>
    match t with
    | [] => some (.tr a f)
    | .read dev' a' v :: t' => if dev' = dev ∧ a' = a then (f v).after dev t' else none
    | _ => none
  | .tw a v p, t =>
    match t with
    | [] => some (.tw a v p)
    | .write dev' a' v' :: t' => if dev' = dev ∧ a' = a ∧ v' = v then p.after dev t' else none
    | _ => none

/-- The sequence up to its next event or end, the engine's own work before it left out (it has been done). -/
def Act.pending : Act → Act
  | .fin e => .fin e
  | .use _ p => p.pending
  | .sub _ p => p.pending
  | .tr a f => .tr a f
  | .tw a v p => .tw a v p

/-- One engine step of a command in progress: its next transport event, and the engine's own work after it
(R30, R61). A state no command leaves it in is a fault (log entry 15). -/
def oneEvent (c : Command) (s : State) : Outcome :=
  match (c.act.after s.devAddr s.trace).map Act.pending with
  | some (.tr a f) =>
    match transportRead a s with
    | (.ok v, s') => .next (advance (f v) s')
    | (.error k, s') => .next (s'.finish (.transport c.failBool k))
  | some (.tw a v p) =>
    match transportWrite a v s with
    | (.ok _, s') => .next (advance p s')
    | (.error k, s') => .next (s'.finish (.transport c.failBool k))
  | _ => .fault .sequencerCorrupt

end Sys2Proof.Machine
end

