-- ==== Sys2Proof/Machine/Capability.lean ====
section
/-! DEFINITION. The Capability / Identity Table (41_capability.md): IDENT and LINKSUP. Neither issues a
transport event and neither can fail (R120); the answers are advisory (R123). -/

namespace Sys2Proof.Machine

/-- The triple matches the compiled-in one, all 32 bits of each member (R121). -/
def identMatches (rm : RegMap) (b : Operands) : Bool :=
  b.pOui = rm.idOui ∧ b.pModel = rm.idModel ∧ b.pRev = rm.idRev

/-- IDENT (R121). -/
def identCommand (s : State) : Command :=
  ⟨useAll [.pOui, .pModel, .pRev] (.fin (.bool (identMatches s.rm s.ops))), none⟩

/-- LINKSUP (R122). -/
def linksupCommand (s : State) : Command :=
  ⟨.use .pLinkMode (.fin (.bool (linkModeSupported s.ops.pLinkMode))), none⟩

/-- IDENT, identify silicon (R121). -/
def execIdent (s : State) : Outcome := .next (runCommand (encode .ident) (identCommand s) s)

/-- LINKSUP, link mode supported (R122). -/
def execLinksup (s : State) : Outcome := .next (runCommand (encode .linksup) (linksupCommand s) s)

end Sys2Proof.Machine
end

