-- ==== Sys2Proof/Machine/RegisterAccess.lean ====
section
/-! DEFINITION. The Register Access Engine (40_register_access.md): the procedures of R109 and R116, and RDD,
WRD, RMWD, RDX, WRX, RMWX. -/

namespace Sys2Proof.Machine

/-- `(cur & ~m) | (v & m)` (R108): the bits of `cur` outside the mask, those of `v` inside. -/
def merge (cur m v : Word) : Word := (cur &&& ~~~m) ||| (v &&& m)

/-- `XSEL(x)` (R109): steps 1 to 3 of the extended access, then the rest. -/
def xsel (rm : RegMap) (x : Ext16) (rest : Act) : Act :=
  .tw rm.mmdCtl rm.mmdAddrWord (.tw rm.mmdData x (.tw rm.mmdCtl rm.mmdDataWord rest))

/-- `RdLoc` (R116). -/
def rdLoc (rm : RegMap) (l : RegLoc) (rest : Word → Act) : Act :=
  match l with
  | .direct a => .tr a rest
  | .ext x => xsel rm x (.tr rm.mmdData rest)

/-- `WrLoc` (R116). -/
def wrLoc (rm : RegMap) (l : RegLoc) (v : Word) (rest : Act) : Act :=
  match l with
  | .direct a => .tw a v rest
  | .ext x => xsel rm x (.tw rm.mmdData v rest)

/-- `RmwLoc` (R116): the read comes first and the written value is made from it (R113). -/
def rmwLoc (rm : RegMap) (l : RegLoc) (m v : Word) (rest : Act) : Act :=
  match l with
  | .direct a => .tr a fun cur => .tw a (merge cur m v) rest
  | .ext x => xsel rm x (.tr rm.mmdData fun cur => .tw rm.mmdData (merge cur m v) rest)

/-- The range check of a direct address (R115): `A_ADDR > 31` ends the command before any event. -/
def withDirect (addr : BitVec 16) (rest : Direct5 → Act) : Act :=
  if addr.toNat > 31 then .fin .invalid else rest (addr.setWidth 5)

/-- RDD (R106). -/
def rddCommand (s : State) : Command :=
  ⟨.use .aAddr (withDirect s.ops.aAddr fun a => .tr a fun v => .fin (.value v)), none⟩

/-- WRD (R107): `A_VAL` is read after the address check. Log entry 22. -/
def wrdCommand (s : State) : Command :=
  ⟨.use .aAddr (withDirect s.ops.aAddr fun a => .use .aVal (.tw a s.ops.aVal (.fin .ok))), none⟩

/-- RMWD (R108). -/
def rmwdCommand (s : State) : Command :=
  ⟨useAll [.aAddr, .aMask, .aVal]
    (withDirect s.ops.aAddr fun a => rmwLoc s.rm (.direct a) s.ops.aMask s.ops.aVal (.fin .ok)), none⟩

/-- RDX (R110). -/
def rdxCommand (s : State) : Command :=
  ⟨.use .aAddr (rdLoc s.rm (.ext s.ops.aAddr) fun v => .fin (.value v)), none⟩

/-- WRX (R111): `A_VAL` is read at step 4. Log entry 22. -/
def wrxCommand (s : State) : Command :=
  ⟨.use .aAddr (xsel s.rm s.ops.aAddr (.use .aVal (.tw s.rm.mmdData s.ops.aVal (.fin .ok)))), none⟩

/-- RMWX (R112). -/
def rmwxCommand (s : State) : Command :=
  ⟨useAll [.aAddr, .aMask, .aVal] (rmwLoc s.rm (.ext s.ops.aAddr) s.ops.aMask s.ops.aVal (.fin .ok)), none⟩

/-- RDD, read direct (R106). -/
def execRdd (s : State) : Outcome := .next (runCommand (encode .rdd) (rddCommand s) s)

/-- WRD, write direct (R107). -/
def execWrd (s : State) : Outcome := .next (runCommand (encode .wrd) (wrdCommand s) s)

/-- RMWD, read-modify-write direct (R108). -/
def execRmwd (s : State) : Outcome := .next (runCommand (encode .rmwd) (rmwdCommand s) s)

/-- RDX, read extended (R110). -/
def execRdx (s : State) : Outcome := .next (runCommand (encode .rdx) (rdxCommand s) s)

/-- WRX, write extended (R111). -/
def execWrx (s : State) : Outcome := .next (runCommand (encode .wrx) (wrxCommand s) s)

/-- RMWX, read-modify-write extended (R112). -/
def execRmwx (s : State) : Outcome := .next (runCommand (encode .rmwx) (rmwxCommand s) s)

end Sys2Proof.Machine
end

