-- ==== Sys2Proof/Machine/ConfigSubops.lean ====
section
/-! DEFINITION. The Configuration Engine's sub-operations (42_config_subops.md). Each sequence reads its
operands, validates them before any event (R140), and issues its transactions (R125); it is the body of the
command of that name and of CONFIGURE's step of that name (R151). -/

namespace Sys2Proof.Machine

/-- SETLINK (R126): RMII sets the enable bit, every other mode clears it. -/
def setlinkAct (rm : RegMap) (b : Operands) : Act :=
  .use .pLinkMode
    (rmwLoc rm (.ext rm.modeCtl) rm.rmiiEn (place rm.rmiiEn (if isRmii b.pLinkMode then 1 else 0)) (.fin .ok))

/-- SETCLKSH (R127). -/
def setclkshAct (rm : RegMap) (b : Operands) : Act :=
  useAll [.pTxShift, .pRxShift]
    (rmwLoc rm (.ext rm.clkShift) (rm.txShift ||| rm.rxShift)
      (place rm.txShift b.pTxShift.toNat ||| place rm.rxShift b.pRxShift.toNat) (.fin .ok))

/-- SETCLKDLY (R129): one combined check of both delays, both nibbles in one transaction. -/
def setclkdlyAct (rm : RegMap) (b : Operands) : Act :=
  useAll [.pTxDelay, .pRxDelay]
    (if b.pTxDelay.toNat > 4000 ∨ b.pRxDelay.toNat > 4000 then .fin .invalid
    else
      rmwLoc rm rm.clkDelay (rm.txDelay ||| rm.rxDelay)
        (place rm.txDelay (delaySteps b.pTxDelay.toNat) ||| place rm.rxDelay (delaySteps b.pRxDelay.toNat))
        (.fin .ok))

/-- SETIMPED (R131). -/
def setimpedAct (rm : RegMap) (b : Operands) : Act :=
  .use .pImped
    (if b.pImped.toNat < 35000 ∨ b.pImped.toNat > 70000 then .fin .invalid
    else rmwLoc rm rm.imped rm.impedField (place rm.impedField (impedCode b.pImped.toNat)) (.fin .ok))

/-- SETFIFO (R132). -/
def setfifoAct (rm : RegMap) (b : Operands) : Act :=
  .use .pFifo
    (match fifoCode rm b.pFifo with
    | none => .fin .invalid
    | some c => rmwLoc rm rm.fifo RegMap.fifoField (place RegMap.fifoField c.toNat) (.fin .ok))

/-- SETGPIO (R133): both fields in one transaction, codes truncated (R141). -/
def setgpioAct (rm : RegMap) (b : Operands) : Act :=
  useAll [.pGpio0, .pGpio1]
    (rmwLoc rm rm.gpio (rm.gpio0 ||| rm.gpio1)
      (place rm.gpio0 b.pGpio0.toNat ||| place rm.gpio1 b.pGpio1.toNat) (.fin .ok))

/-- The word SETLED writes (R134). -/
def ledWord (rm : RegMap) (b : Operands) : Word :=
  place rm.ledField0 b.pLed0.toNat ||| place rm.ledField1 b.pLed1.toNat |||
    place rm.ledField2 b.pLed2.toNat ||| place rm.ledField3 b.pLed3.toNat

/-- SETLED (R134): one write, no read. -/
def setledAct (rm : RegMap) (b : Operands) : Act :=
  useAll [.pLed0, .pLed1, .pLed2, .pLed3] (wrLoc rm rm.led (ledWord rm b) (.fin .ok))

/-- SETMDIX (R135): the second transaction only when enabling. -/
def setmdixAct (rm : RegMap) (b : Operands) : Act :=
  .use .pMdixEn
    (rmwLoc rm (.direct rm.mdix) rm.mdixField
      (place rm.mdixField (if b.pMdixEn = 1 then rm.mdixAuto else rm.mdixOff).toNat)
      (if b.pMdixEn = 1 then rmwLoc rm (.direct rm.mdix2) rm.robustBit rm.robustBit (.fin .ok) else .fin .ok))

/-- SETIDLE (R136). -/
def setidleAct (rm : RegMap) (b : Operands) : Act :=
  .use .pIdleThr
    (rmwLoc rm (.ext rm.idle) rm.idleField (place rm.idleField b.pIdleThr.toNat) (.fin .ok))

/-- SETDSPEQ (R137). -/
def setdspeqAct (rm : RegMap) : Act := rmwLoc rm (.ext rm.dspEq) rm.dspEqMask rm.dspEqVal (.fin .ok)

/-- FLDFIX (R138): the threshold is forced only if the strap bit reads 1. -/
def fldfixAct (rm : RegMap) : Act :=
  rdLoc rm (.ext rm.strap) fun v =>
    if v &&& rm.fldStrapBit ≠ 0 then
      rmwLoc rm rm.fldThr rm.fldThrField (place rm.fldThrField rm.fldThrVal.toNat) (.fin .ok)
    else .fin .ok

/-- SETLOOP (R139): a full overwrite, no read. -/
def setloopAct (rm : RegMap) (b : Operands) : Act :=
  .use .pLoopEn (wrLoc rm (.ext rm.loop) (if b.pLoopEn = 1 then rm.loopOn else rm.loopOff) (.fin .ok))

/-- SETLINK, link-mode select (R126). -/
def execSetlink (s : State) : Outcome := .next (runCommand (encode .setlink) ⟨setlinkAct s.rm s.ops, none⟩ s)

/-- SETCLKSH, clock shift (R127). -/
def execSetclksh (s : State) : Outcome :=
  .next (runCommand (encode .setclksh) ⟨setclkshAct s.rm s.ops, none⟩ s)

/-- SETCLKDLY, clock delay (R129). -/
def execSetclkdly (s : State) : Outcome :=
  .next (runCommand (encode .setclkdly) ⟨setclkdlyAct s.rm s.ops, none⟩ s)

/-- SETIMPED, output impedance (R131). -/
def execSetimped (s : State) : Outcome :=
  .next (runCommand (encode .setimped) ⟨setimpedAct s.rm s.ops, none⟩ s)

/-- SETFIFO, TX FIFO depth (R132). -/
def execSetfifo (s : State) : Outcome := .next (runCommand (encode .setfifo) ⟨setfifoAct s.rm s.ops, none⟩ s)

/-- SETGPIO, GPIO mux (R133). -/
def execSetgpio (s : State) : Outcome := .next (runCommand (encode .setgpio) ⟨setgpioAct s.rm s.ops, none⟩ s)

/-- SETLED, LED mode (R134). -/
def execSetled (s : State) : Outcome := .next (runCommand (encode .setled) ⟨setledAct s.rm s.ops, none⟩ s)

/-- SETMDIX, auto-MDIX (R135). -/
def execSetmdix (s : State) : Outcome := .next (runCommand (encode .setmdix) ⟨setmdixAct s.rm s.ops, none⟩ s)

/-- SETIDLE, idle threshold (R136). -/
def execSetidle (s : State) : Outcome := .next (runCommand (encode .setidle) ⟨setidleAct s.rm s.ops, none⟩ s)

/-- SETDSPEQ, DSP equalizer (R137). -/
def execSetdspeq (s : State) : Outcome := .next (runCommand (encode .setdspeq) ⟨setdspeqAct s.rm, none⟩ s)

/-- FLDFIX, FLD-strap workaround (R138). -/
def execFldfix (s : State) : Outcome := .next (runCommand (encode .fldfix) ⟨fldfixAct s.rm, none⟩ s)

/-- SETLOOP, loopback (R139). -/
def execSetloop (s : State) : Outcome := .next (runCommand (encode .setloop) ⟨setloopAct s.rm s.ops, none⟩ s)

end Sys2Proof.Machine
end

