-- ==== Sys2Proof/Machine/Configure.lean ====
section
/-! DEFINITION. The CONFIGURE command (43_configure.md): the eleven sub-operations in order, fail-fast
(R152, R153), without rollback (R154) and without asking the capability gates (R156). -/

namespace Sys2Proof.Machine

/-- The bodies of the eleven sub-operations, in the order of R150. -/
def subopActs (rm : RegMap) (b : Operands) : List Act :=
  [setlinkAct rm b, setclkshAct rm b, setclkdlyAct rm b, setimpedAct rm b, setfifoAct rm b, setgpioAct rm b,
   setledAct rm b, setmdixAct rm b, setidleAct rm b, setdspeqAct rm, fldfixAct rm]

/-- Bodies one after another from index `k` on (R151): each is reached only if all before it returned. -/
def chain : Nat → List Act → Act
  | _, [] => .fin .ok
  | k, p :: ps => .sub k (p.andThen (chain (k + 1) ps))

/-- The sequence of CONFIGURE (R151). -/
def configureAct (rm : RegMap) (b : Operands) : Act := chain 0 (subopActs rm b)

/-- CONFIGURE (R151). -/
def execConfigure (s : State) : Outcome :=
  .next (runCommand (encode .configure) ⟨configureAct s.rm s.ops, none⟩ s)

end Sys2Proof.Machine
end

