-- ==== Sys2Proof/Machine/ResetMachine.lean ====
section
/-! DEFINITION. The Reset State Machine (44_reset.md): RESET and ISRSTDONE. They reset the PHY, not the
engine; neither waits (R161). -/

namespace Sys2Proof.Machine

/-- RESET (R159): sets the reset bit by a read-modify-write; RSTATE becomes ResetRequested. -/
def resetCommand (s : State) : Command :=
  ⟨rmwLoc s.rm s.rm.ctrl s.rm.resetBit s.rm.resetBit (.fin ⟨.ok, none, none, some .requested⟩), none⟩

/-- What ISRSTDONE leaves when it read `v` (R160): the answer, and RSTATE 1 -> 2 when the bit is clear. -/
def isrstdoneEnding (rm : RegMap) (r : ResetState) (v : Word) : Ending where
  result := .ok
  rval := none
  rbool := some (BitVec.ofBool (v &&& rm.resetBit = 0))
  rstate := if v &&& rm.resetBit = 0 ∧ r = .requested then some .complete else none

/-- ISRSTDONE (R160): one read; if it fails RBOOL becomes 0. -/
def isrstdoneCommand (s : State) : Command :=
  ⟨rdLoc s.rm s.rm.ctrl fun v => .fin (isrstdoneEnding s.rm s.rstate v), some 0⟩

/-- RESET, request a PHY reset (R159). -/
def execReset (s : State) : Outcome := .next (runCommand (encode .reset) (resetCommand s) s)

/-- ISRSTDONE, is the reset complete (R160). -/
def execIsrstdone (s : State) : Outcome := .next (runCommand (encode .isrstdone) (isrstdoneCommand s) s)

end Sys2Proof.Machine
end

