-- ==== Sys2Proof/Machine/Dispatch.lean ====
section
/-! DEFINITION. One arm per command (30_encoding.md R87). -/

namespace Sys2Proof.Machine

def exec (i : Instr) (s : State) : Host.Outcome State Fault Refusal :=
  match i with
  | .rdd => Sys2Proof.Machine.execRdd s
  | .wrd => Sys2Proof.Machine.execWrd s
  | .rmwd => Sys2Proof.Machine.execRmwd s
  | .rdx => Sys2Proof.Machine.execRdx s
  | .wrx => Sys2Proof.Machine.execWrx s
  | .rmwx => Sys2Proof.Machine.execRmwx s
  | .ident => Sys2Proof.Machine.execIdent s
  | .linksup => Sys2Proof.Machine.execLinksup s
  | .setlink => Sys2Proof.Machine.execSetlink s
  | .setclksh => Sys2Proof.Machine.execSetclksh s
  | .setclkdly => Sys2Proof.Machine.execSetclkdly s
  | .setimped => Sys2Proof.Machine.execSetimped s
  | .setfifo => Sys2Proof.Machine.execSetfifo s
  | .setgpio => Sys2Proof.Machine.execSetgpio s
  | .setled => Sys2Proof.Machine.execSetled s
  | .setmdix => Sys2Proof.Machine.execSetmdix s
  | .setidle => Sys2Proof.Machine.execSetidle s
  | .setdspeq => Sys2Proof.Machine.execSetdspeq s
  | .fldfix => Sys2Proof.Machine.execFldfix s
  | .setloop => Sys2Proof.Machine.execSetloop s
  | .configure => Sys2Proof.Machine.execConfigure s
  | .reset => Sys2Proof.Machine.execReset s
  | .isrstdone => Sys2Proof.Machine.execIsrstdone s

end Sys2Proof.Machine
end

