-- ==== Sys2Proof/Machine/HostPort.lean ====
section
/-! DEFINITION. What a move of the host does (10_state.md R22, R31; 30_encoding.md R85, R94; 70 R190). -/

namespace Sys2Proof.Machine

/-- A write to `CMD` (R85): the command runs to its end, or is illegal (R91, R170). -/
def writeCmd (op : Opcode) (s : State) : Outcome :=
  match decodeOpcode op with
  | .ok i => exec i s
  | .error _ => .next s.illegalCommand

/-- The engine's reset (R190): the engine's registers take their reset values, the PHY and the parameters are
left alone, no transport event is issued. DESIGN CHOICE: the bus trace of the last command is emptied; R16 and R190 do
not say whether it survives. Log entry 18. -/
def State.engineReset (s : State) : State :=
  { s with
    ops := Operands.reset
    status := 0
    rval := 0
    rbool := 0
    rstate := .idle
    seq := .idle
    trace := []
    unwritten := Operand.all
    hostFault := false }

/-- A host write by index (R22); a write to `CMD` issues its low 8 bits (R14, R85). -/
def hostWrite (index : BitVec 8) (v : BitVec 32) (s : State) : Outcome :=
  match hostRegister index with
  | none => .refused (.noHostRegister index)
  | some .cmd => writeCmd (v.setWidth 8) s
  | some (.operand o) => .next (s.setOperand o v)
  | some r => .refused (.hostMayNotWrite r)

/-- A host read by index (R22): the value goes to the host. DESIGN CHOICE: an operand register the host never wrote
returns what it holds and sets no mark; R58 speaks of commands only, U12 of any read. Log entry 1. -/
def hostReadAt (index : BitVec 8) (s : State) : Outcome :=
  match hostRegister index with
  | none => .refused (.noHostRegister index)
  | some r =>
    match s.hostRead r with
    | some v => .next { s with got := s.got ++ [(r, v)] }
    | none => .refused (.hostMayNotRead r)

/-- A move of the host, the engine being idle. -/
def hostMove (m : HostMove) (s : State) : Outcome :=
  match m with
  | .write index v => hostWrite index v s
  | .read index => hostReadAt index s
  | .engineReset => .next s.engineReset

end Sys2Proof.Machine
end

