-- ==== Sys2Proof/Machine/Sequencer.lean ====
section
/-! DEFINITION. The sequencer one transport event at a time (10_state.md R30; 92_eei_decisions.md D32): the
view of a command between its events. `exec` runs the same sequences to their end in one step. -/

namespace Sys2Proof.Machine

/-- The wired sequence of each command, for the operands and the map the state holds (R85). -/
def commandOf (i : Instr) (s : State) : Command :=
  match i with
  | .rdd => rddCommand s
  | .wrd => wrdCommand s
  | .rmwd => rmwdCommand s
  | .rdx => rdxCommand s
  | .wrx => wrxCommand s
  | .rmwx => rmwxCommand s
  | .ident => identCommand s
  | .linksup => linksupCommand s
  | .setlink => ⟨setlinkAct s.rm s.ops, none⟩
  | .setclksh => ⟨setclkshAct s.rm s.ops, none⟩
  | .setclkdly => ⟨setclkdlyAct s.rm s.ops, none⟩
  | .setimped => ⟨setimpedAct s.rm s.ops, none⟩
  | .setfifo => ⟨setfifoAct s.rm s.ops, none⟩
  | .setgpio => ⟨setgpioAct s.rm s.ops, none⟩
  | .setled => ⟨setledAct s.rm s.ops, none⟩
  | .setmdix => ⟨setmdixAct s.rm s.ops, none⟩
  | .setidle => ⟨setidleAct s.rm s.ops, none⟩
  | .setdspeq => ⟨setdspeqAct s.rm, none⟩
  | .fldfix => ⟨fldfixAct s.rm, none⟩
  | .setloop => ⟨setloopAct s.rm s.ops, none⟩
  | .configure => ⟨configureAct s.rm s.ops, none⟩
  | .reset => resetCommand s
  | .isrstdone => isrstdoneCommand s

/-- A command issued and left before its first transport event (R85); a command without events has ended. -/
def issue (i : Instr) (s : State) : State := advance (commandOf i s).act (s.start (encode i))

/-- One engine step: the next transport event of the command SEQ names (R30, R31). -/
def engineStep (op : Opcode) (s : State) : Outcome :=
  match decodeOpcode op with
  | .ok i => oneEvent (commandOf i s) s
  | .error _ => .fault .sequencerCorrupt

end Sys2Proof.Machine
end

