-- ==== Sys2Proof/Machine/Step.lean ====
section
/-! DEFINITION. One step of the machine. While a command is in progress the host has no move (10_state.md R31)
and the engine performs its next transport event; otherwise the host's next move happens, and without one
the engine waits (70 R190). -/

namespace Sys2Proof.Machine

def step (s : State) : Host.Outcome State Fault Refusal :=
  match s.seq with
  | .running op _ _ => engineStep op s
  | .idle =>
    match s.host with
    | [] => .next s
    | m :: ms => hostMove m { s with host := ms }

/-- The state in which the host's next move is the write of this command word to `CMD` (R85): the engine fetches
no instructions (20_memory.md R74), a command comes from the host. Log entry 6. -/
def State.withFetchWord (s : State) (nbits w : Nat) : State :=
  { s with seq := .idle, host := .write 0 (BitVec.ofNat 32 (w % 2 ^ min nbits 8)) :: s.host }

end Sys2Proof.Machine
end

