-- ==== Sys2Proof/WellFormed.lean ====
section
/-! DEFINITION. Well-formedness. A command has no operand fields (30_encoding.md R93), so every term of
`Instr` is well-formed and there is nothing to check on it; what the spec does constrain is the register
map: the constraints of 10_state.md R41 to R54 and of R56, one named check each. A claim that needs them
takes `rm.wf` as a premise (R56, U18); the machine never tests it. -/

namespace Sys2Proof

open Sys2Proof.Machine

/-- R41. -/
def RegMap.wfMmd (rm : RegMap) : Bool := rm.mmdCtl != rm.mmdData && rm.mmdAddrWord != rm.mmdDataWord

/-- R42. -/
def RegMap.wfReset (rm : RegMap) : Bool := isFieldOf 1 rm.resetBit

/-- R43. -/
def RegMap.wfMode (rm : RegMap) : Bool := isFieldOf 1 rm.rmiiEn

/-- R44. -/
def RegMap.wfShift (rm : RegMap) : Bool :=
  isFieldOf 1 rm.txShift && isFieldOf 1 rm.rxShift && rm.txShift != rm.rxShift &&
    (rm.clkShift != rm.modeCtl || (rm.rmiiEn != rm.txShift && rm.rmiiEn != rm.rxShift))

/-- R45. -/
def RegMap.wfDelay (rm : RegMap) : Bool :=
  rm.rxDelay == 0x000F && (rm.txDelay == 0x00F0 || rm.txDelay == 0x0F00 || rm.txDelay == 0xF000)

/-- R46. -/
def RegMap.wfImped (rm : RegMap) : Bool := isFieldOf 5 rm.impedField

/-- R47: the four codes differ. -/
def RegMap.wfFifo (rm : RegMap) : Bool :=
  decide [rm.fifoCode3, rm.fifoCode4, rm.fifoCode6, rm.fifoCode8].Nodup

/-- R48. -/
def RegMap.wfGpio (rm : RegMap) : Bool :=
  isFieldOf 4 rm.gpio0 && isFieldOf 4 rm.gpio1 && rm.gpio0 &&& rm.gpio1 == 0

/-- R49: four disjoint nibbles. -/
def RegMap.wfLed (rm : RegMap) : Bool :=
  isFieldOf 4 rm.ledField0 && isFieldOf 4 rm.ledField1 && isFieldOf 4 rm.ledField2 &&
    isFieldOf 4 rm.ledField3 &&
    decide ([rm.ledField0, rm.ledField1, rm.ledField2, rm.ledField3].Pairwise fun m n => m &&& n = 0)

/-- R50. -/
def RegMap.wfMdix (rm : RegMap) : Bool :=
  isFieldOf 2 rm.mdixField && isFieldOf 1 rm.robustBit && rm.mdixAuto != rm.mdixOff &&
    (rm.mdix != rm.mdix2 || rm.robustBit &&& rm.mdixField == 0)

/-- R51. -/
def RegMap.wfLoop (rm : RegMap) : Bool := rm.loopOn != rm.loopOff

/-- R52. -/
def RegMap.wfFld (rm : RegMap) : Bool := isFieldOf 1 rm.fldStrapBit && isFieldOf 3 rm.fldThrField

/-- R53. -/
def RegMap.wfIdle (rm : RegMap) : Bool := isField rm.idleField

/-- R54. -/
def RegMap.wfDspEq (rm : RegMap) : Bool := rm.dspEqMask != 0 && rm.dspEqVal &&& ~~~rm.dspEqMask == 0

/-- The locations of the map outside the MMD pair, for R56 (a). -/
def RegMap.locations (rm : RegMap) : List RegLoc :=
  [rm.ctrl, .ext rm.modeCtl, .ext rm.clkShift, rm.clkDelay, rm.imped, rm.fifo, rm.gpio, rm.led,
   .direct rm.mdix, .direct rm.mdix2, .ext rm.loop, .ext rm.strap, rm.fldThr, .ext rm.idle, .ext rm.dspEq]

/-- R56 (a): the MMD pair is the location of no other field. -/
def RegMap.wfMmdApart (rm : RegMap) : Bool :=
  rm.locations.all fun l => l != .direct rm.mmdCtl && l != .direct rm.mmdData

/-- The fields of the sub-operations, each with the sub-operation's opcode, for R56 (b). -/
def RegMap.subopFields (rm : RegMap) : List (Opcode × RegLoc × Word) :=
  [(0x20, .ext rm.modeCtl, rm.rmiiEn), (0x21, .ext rm.clkShift, rm.txShift ||| rm.rxShift),
   (0x22, rm.clkDelay, rm.txDelay ||| rm.rxDelay), (0x23, rm.imped, rm.impedField),
   (0x24, rm.fifo, RegMap.fifoField), (0x25, rm.gpio, rm.gpio0 ||| rm.gpio1),
   (0x26, rm.led, rm.ledField0 ||| rm.ledField1 ||| rm.ledField2 ||| rm.ledField3),
   (0x27, .direct rm.mdix, rm.mdixField), (0x27, .direct rm.mdix2, rm.robustBit),
   (0x28, .ext rm.idle, rm.idleField), (0x29, .ext rm.dspEq, rm.dspEqMask),
   (0x2A, .ext rm.strap, rm.fldStrapBit), (0x2A, rm.fldThr, rm.fldThrField),
   (0x2B, .ext rm.loop, 0xFFFF)]

/-- R56 (b): fields of different sub-operations at one location have disjoint masks. -/
def RegMap.wfAlias (rm : RegMap) : Bool :=
  decide (rm.subopFields.Pairwise fun p q => p.1 = q.1 ∨ p.2.1 ≠ q.2.1 ∨ p.2.2 &&& q.2.2 = 0)

/-- R56 (c): the LED and loopback registers share their location with nothing. -/
def RegMap.wfWhole (rm : RegMap) : Bool :=
  rm.locations.count rm.led == 1 && rm.locations.count (.ext rm.loop) == 1

/-- A well-formed register map: the constraints of R41 to R54 and R56. -/
def RegMap.wf (rm : RegMap) : Bool :=
  rm.wfMmd && rm.wfReset && rm.wfMode && rm.wfShift && rm.wfDelay && rm.wfImped && rm.wfFifo &&
    rm.wfGpio && rm.wfLed && rm.wfMdix && rm.wfLoop && rm.wfFld && rm.wfIdle && rm.wfDspEq &&
    rm.wfMmdApart && rm.wfAlias && rm.wfWhole

end Sys2Proof
end

