-- ==== Sys2Proof/Safety.lean ====
section
/-! DEFINITION. The terms in which claims speak: what each command reads (30_encoding.md R88), which runs the
host and the environment make quiet, what a bus trace and a PHY register space look like after a transaction
(40_register_access.md R109 to R116), and the invariant of the machine. -/

namespace Sys2Proof.Safety

open Sys2Proof.Machine

/-! Operands -/

/-- The order of the sub-operations in CONFIGURE (R150). -/
def subopOrder : List Instr :=
  [.setlink, .setclksh, .setclkdly, .setimped, .setfifo, .setgpio, .setled, .setmdix, .setidle, .setdspeq,
   .fldfix]

/-- The operand registers a command reads (R88); CONFIGURE's are the union over its sub-operations. -/
def operandsRead : Instr → List Operand
  | .rdd => [.aAddr]
  | .wrd => [.aAddr, .aVal]
  | .rmwd => [.aAddr, .aMask, .aVal]
  | .rdx => [.aAddr]
  | .wrx => [.aAddr, .aVal]
  | .rmwx => [.aAddr, .aMask, .aVal]
  | .ident => [.pOui, .pModel, .pRev]
  | .linksup => [.pLinkMode]
  | .setlink => [.pLinkMode]
  | .setclksh => [.pTxShift, .pRxShift]
  | .setclkdly => [.pTxDelay, .pRxDelay]
  | .setimped => [.pImped]
  | .setfifo => [.pFifo]
  | .setgpio => [.pGpio0, .pGpio1]
  | .setled => [.pLed0, .pLed1, .pLed2, .pLed3]
  | .setmdix => [.pMdixEn]
  | .setidle => [.pIdleThr]
  | .setdspeq => []
  | .fldfix => []
  | .setloop => [.pLoopEn]
  | .configure =>
    [.pLinkMode, .pTxShift, .pRxShift, .pTxDelay, .pRxDelay, .pImped, .pFifo, .pGpio0, .pGpio1, .pLed0,
     .pLed1, .pLed2, .pLed3, .pMdixEn, .pIdleThr]
  | .reset => []
  | .isrstdone => []

/-- The index of a host-visible register, as the table of R22 lists it. -/
def registerIndex : HostReg → BitVec 8
  | .cmd => 0x00
  | .status => 0x01
  | .rval => 0x02
  | .rbool => 0x03
  | .rstate => 0x04
  | .operand .aAddr => 0x08
  | .operand .aMask => 0x09
  | .operand .aVal => 0x0A
  | .operand .pTxShift => 0x10
  | .operand .pRxShift => 0x11
  | .operand .pTxDelay => 0x12
  | .operand .pRxDelay => 0x13
  | .operand .pFifo => 0x14
  | .operand .pImped => 0x15
  | .operand .pGpio0 => 0x16
  | .operand .pGpio1 => 0x17
  | .operand .pLed0 => 0x18
  | .operand .pLed1 => 0x19
  | .operand .pLed2 => 0x1A
  | .operand .pLed3 => 0x1B
  | .operand .pIdleThr => 0x1C
  | .operand .pMdixEn => 0x1D
  | .operand .pLoopEn => 0x1E
  | .operand .pLinkMode => 0x1F
  | .operand .pOui => 0x20
  | .operand .pModel => 0x21
  | .operand .pRev => 0x22

/-- The width of an operand register (R22). -/
def operandWidth : Operand → Nat
  | .aAddr | .aMask | .aVal => 16
  | .pTxShift | .pRxShift | .pMdixEn | .pLoopEn => 1
  | _ => 32

/-- The host has written every operand register the command reads (R193). -/
def operandsWritten (i : Instr) (s : State) : Prop := ∀ o ∈ operandsRead i, o ∉ s.unwritten

/-- The host-fault mark after a command has read these operand registers (R58). -/
def faultAfter (s : State) (os : List Operand) : Bool := s.hostFault || os.any fun o => s.unwritten.contains o

/-! Environments -/

/-- A transport event that ENV_REF carries out, with no step of the environment's own before it. -/
def quiet : Draw where
  moves := []
  fail := none
  lands := false
  value := none

/-- The environment's choices for the `n`-th of the coming transport events (R76; log entry 4). -/
def drawAt (s : State) (n : Nat) : Draw := (s.env[n]?).getD (Config.freeDraw (s.tick + n))

/-- The next `n` transport events are quiet ones, and ENV_REF knows what the PHY holds. -/
def quietFor (n : Nat) (s : State) (rest : List Draw) : Prop :=
  s.env = List.replicate n quiet ++ rest ∧ s.phy.lost = false

/-- None of the next `n` transport events fails, whatever else the environment does (R76). -/
def succeedsFor (n : Nat) (s : State) : Prop := n ≤ s.env.length ∧ ∀ d ∈ s.env.take n, d.fail = none

/-- In none of the next `n` transport events does the environment take a step of its own. -/
def stillFor (n : Nat) (s : State) : Prop := n ≤ s.env.length ∧ ∀ d ∈ s.env.take n, d.moves = []

/-- The PHY when the environment has taken its steps before the next transport event. -/
def phyAfterMoves (s : State) (d : Draw) : Phy := d.moves.foldl (Phy.move s.rm) s.phy

/-! Bus events and traces -/

/-- The event completed. -/
def completed : BusEvent → Bool
  | .read _ _ _ | .write _ _ _ => true
  | .readFailed _ _ _ | .writeFailed _ _ _ _ => false

/-- The kind of a failed event. -/
def failedKind : BusEvent → Option Kind
  | .readFailed _ _ k | .writeFailed _ _ _ k => some k
  | .read _ _ _ | .write _ _ _ => none

/-- The device address of an event. -/
def eventDevice : BusEvent → Nat
  | .read dev _ _ | .readFailed dev _ _ | .write dev _ _ | .writeFailed dev _ _ _ => dev

/-- The value a completed read returned. -/
def readResult : BusEvent → Option Word
  | .read _ _ v => some v
  | .readFailed _ _ _ | .write _ _ _ | .writeFailed _ _ _ _ => none

/-- The direct register an event writes, or tries to write. -/
def writtenTo : BusEvent → Option Direct5
  | .write _ a _ | .writeFailed _ a _ _ => some a
  | .read _ _ _ | .readFailed _ _ _ => none

/-- The selection writes of an extended access (R109). -/
def selectTrace (dev : Nat) (rm : RegMap) (x : Ext16) : List BusEvent :=
  [.write dev rm.mmdCtl rm.mmdAddrWord, .write dev rm.mmdData x, .write dev rm.mmdCtl rm.mmdDataWord]

/-- The trace of a completed `RdLoc` that read `v` (R116). -/
def readTrace (dev : Nat) (rm : RegMap) (v : Word) : RegLoc → List BusEvent
  | .direct a => [.read dev a v]
  | .ext x => selectTrace dev rm x ++ [.read dev rm.mmdData v]

/-- The trace of a completed `WrLoc` (R116). -/
def writeTrace (dev : Nat) (rm : RegMap) (v : Word) : RegLoc → List BusEvent
  | .direct a => [.write dev a v]
  | .ext x => selectTrace dev rm x ++ [.write dev rm.mmdData v]

/-- The trace of a completed `RmwLoc` that read `cur` and wrote `new` (R116). -/
def rmwTrace (dev : Nat) (rm : RegMap) (cur new : Word) : RegLoc → List BusEvent
  | .direct a => [.read dev a cur, .write dev a new]
  | .ext x => selectTrace dev rm x ++ [.read dev rm.mmdData cur, .write dev rm.mmdData new]

/-- The `STATUS` word of TransportFailure with kind `k` (R173). -/
def transportStatus (k : Kind) : Word := (k.setWidth 16 <<< 8) ||| 0x0002

/-- An event as it stands in the trace when it fails with kind `k`. -/
def failEvent : BusEvent → Kind → BusEvent
  | .read dev a _, k => .readFailed dev a k
  | .write dev a v, k => .writeFailed dev a v k
  | .readFailed dev a k', _ => .readFailed dev a k'
  | .writeFailed dev a v k', _ => .writeFailed dev a v k'

/-- A trace is a planned one cut short by the failure of one of its events (R105). -/
def cutShort (plan t : List BusEvent) (k : Kind) : Prop :=
  ∃ n e, plan[n]? = some e ∧ t = plan.take n ++ [failEvent e k]

/-- A command ended with its plan carried out, for the values its reads returned, and STATUS OK; or with the plan
cut short by a failure of kind `k`, and STATUS TransportFailure(k). -/
def endsAs {α : Type} (plan : α → List BusEvent) (t : State) : Prop :=
  (∃ read, t.trace = plan read ∧ t.status = 0x0000) ∨
    (∃ read k, cutShort (plan read) t.trace k ∧ t.status = transportStatus k)

/-- `n(loc)` of R157: the selection writes a location needs. -/
def selections : RegLoc → Nat
  | .direct _ => 0
  | .ext _ => 3

/-! The PHY after a transaction under ENV_REF -/

/-- After the selection of an extended register (R109, R117), or nothing for a direct one. -/
def selected (rm : RegMap) (l : RegLoc) (p : Phy) : Phy :=
  match l with
  | .direct _ => p
  | .ext x => { p.setDirect rm.mmdCtl rm.mmdDataWord with xa := x }

/-- The PHY registers a bus trace stores to under ENV_REF (R78), from the word in the MMD control register and the
latch at its start: a direct register, or the latched extended one in data mode. A failed write, which is the last
event of its trace, counts as a store, since it may have taken effect (R173). -/
def storesTo (rm : RegMap) : Word → Word → List BusEvent → List RegLoc
  | _, _, [] => []
  | ctl, xa, e :: t =>
    match e with
    | .read _ _ _ | .readFailed _ _ _ => storesTo rm ctl xa t
    | .write _ a v | .writeFailed _ a v _ =>
      if a = rm.mmdData then
        if ctl = rm.mmdAddrWord then storesTo rm ctl v t
        else if ctl = rm.mmdDataWord then .ext xa :: storesTo rm ctl xa t
        else storesTo rm ctl xa t
      else .direct a :: storesTo rm (if a = rm.mmdCtl then v else ctl) xa t

/-- After a transaction that wrote `v` to a location (the strap bit keeps its value, log entry 11). -/
def stored (rm : RegMap) (l : RegLoc) (v : Word) (p : Phy) : Phy := (selected rm l p).store rm l v

/-- From PHY `p` to `p'` the location took the value `w` (the strap register in every bit but its read-only one, R36,
log entry 11) and nothing else changed, but that an extended access leaves the MMD pair selecting its register
(R117). -/
def storesOnly (rm : RegMap) (l : RegLoc) (w : Word) (p p' : Phy) : Prop :=
  p'.reg l = (if l = .ext rm.strap then (w &&& ~~~rm.fldStrapBit) ||| (p.reg l &&& rm.fldStrapBit) else w) ∧
    (∀ l', l' ≠ l → l' ≠ .direct rm.mmdCtl ∨ selections l = 0 → p'.reg l' = p.reg l') ∧
    (∀ x, l = .ext x → p'.direct rm.mmdCtl = rm.mmdDataWord ∧ p'.xa = x) ∧
    (selections l = 0 → p'.xa = p.xa) ∧ p'.lost = p.lost

/-- A successful command under a quiet environment: the operands it read, its bus trace, the PHY it leaves and
the choices still to come; everything else is as before it. -/
def afterOk (s : State) (os : List Operand) (t : List BusEvent) (p : Phy) (rest : List Draw) : State :=
  { s with
    status := 0x0000
    seq := .idle
    trace := t
    phy := p
    env := rest
    tick := s.tick + t.length
    hostFault := faultAfter s os }

/-- A command that ended with InvalidParameter before any transport event (R140, R172), in terms of the state `t` it
ended in: only STATUS, the bus trace and the host-fault mark may differ; SEQ ends at IDLE. -/
def afterInvalid (s t : State) : State :=
  { s with status := 0x0001, seq := .idle, trace := [], hostFault := t.hostFault }

/-- A successful masked update of one location under a quiet environment. -/
def afterRmw (s : State) (os : List Operand) (l : RegLoc) (m v : Word) (rest : List Draw) : State :=
  afterOk s os (rmwTrace s.devAddr s.rm (s.phy.reg l) ((s.phy.reg l &&& ~~~m) ||| (v &&& m)) l)
    (stored s.rm l ((s.phy.reg l &&& ~~~m) ||| (v &&& m)) s.phy) rest

/-- What a command that writes no result register but STATUS may change: STATUS, the bus trace, the PHY, one draw
for each of its events, and the host-fault mark; SEQ ends at IDLE. -/
def portOnly (s t : State) : State :=
  { s with
    status := t.status
    seq := .idle
    trace := t.trace
    phy := t.phy
    env := s.env.drop t.trace.length
    tick := s.tick + t.trace.length
    hostFault := t.hostFault }

/-! CONFIGURE as eleven commands -/

/-- Commands issued one after another until one ends with a result other than OK: the state it leaves, and all
their bus traces joined (R151 to R153). -/
def failFast : List Instr → State → State × List BusEvent
  | [], s => (s, [])
  | i :: is, s =>
    match exec i s with
    | .next t =>
      if t.status = 0x0000 then ((failFast is t).1, t.trace ++ (failFast is t).2) else (t, t.trace)
    | _ => (s, [])

/-- The commands of the list that `failFast` issues: all up to and with the first that does not end OK. -/
def issuedBy : List Instr → State → List Instr
  | [], _ => []
  | i :: is, s =>
    match exec i s with
    | .next t => if t.status = 0x0000 then i :: issuedBy is t else [i]
    | _ => [i]

/-- The operand registers a command issued in `s` that left `t` has read (R58, R88): WRD reads `A_VAL` only after its
address has passed the check (R107), WRX only at step 4 (R111), and CONFIGURE those of the sub-operations up to and
with the one that ends it; every other command reads all of its row of R88 first. Log entry 22. -/
def operandsReached (i : Instr) (s t : State) : List Operand :=
  match i with
  | .wrd => if t.trace = [] then [.aAddr] else [.aAddr, .aVal]
  | .wrx => if t.trace.length = 4 then [.aAddr, .aVal] else [.aAddr]
  | .configure => (issuedBy subopOrder s).flatMap operandsRead
  | i => operandsRead i

/-! The invariant -/

/-- Both register spaces of the PHY are in canonical form. -/
def memoryCanonical (s : State) : Prop := s.phy.d.wf 32 ∧ s.phy.x.wf 65536

/-- STATUS holds the word of a result (R32, R167). -/
def statusLegal (s : State) : Prop := ∃ r : Result, s.status = r.word

/-- The sequence has a transport event ahead. -/
def hasEvent : Act → Prop
  | .tr _ _ | .tw _ _ _ => True
  | _ => False

/-- What is left of a bus trace once it has carried the body of a sub-operation to its `return`; nothing if it ends
before that (R151). -/
def pastReturn : Act → List BusEvent → Option (List BusEvent)
  | .fin e, t => if e.result = .ok then some t else none
  | .use _ p, t => pastReturn p t
  | .sub _ p, t => pastReturn p t
  | .tr _ f, t =>
    match t with
    | .read _ _ v :: t' => pastReturn (f v) t'
    | _ => none
  | .tw _ _ p, t =>
    match t with
    | .write _ _ _ :: t' => pastReturn p t'
    | _ => none

/-- How many of these bodies, one after another, a bus trace has carried to their `return` (R30, R151). -/
def completedSubops : List Act → List BusEvent → Nat
  | [], _ => 0
  | p :: ps, t =>
    match pastReturn p t with
    | some t' => completedSubops ps t' + 1
    | none => 0

/-- The `k` of SEQ that R30 gives the command with opcode `op`: in CONFIGURE one more for each sub-operation the bus
trace has finished with OK, so the index of the one in progress; outside CONFIGURE 0. The bodies are those of the
sub-operations' own commands, in the order of R150. -/
def subopReached (op : Opcode) (s : State) : Nat :=
  if op = encode .configure then completedSubops (subopOrder.map fun i => (commandOf i s).act) s.trace else 0

/-- While a command is in progress SEQ names it, its `k` is the index of the sub-operation the bus trace has reached (0
outside CONFIGURE), its `s` is the number of events in the bus trace, and that trace leads to a further event of the
command (R30). -/
def seqAgrees (s : State) : Prop :=
  match s.seq with
  | .idle => True
  | .running op k n =>
    k ≤ 10 ∧ k = subopReached op s ∧ n = s.trace.length ∧
      ∃ i, op = encode i ∧ ∃ p, (commandOf i s).act.after s.devAddr s.trace = some p ∧ hasEvent p.pending

/-- The machine's invariant. -/
def Inv (s : State) : Prop := memoryCanonical s ∧ statusLegal s ∧ seqAgrees s

end Sys2Proof.Safety
end

