-- ==== Sys2Proof/Certificates/Slice0/Obligations.lean ====
section
/-! DEFINITION. The statements for the provers. A statement about an environment that is `quietFor` some events
speaks of ENV_REF (20_memory.md R77 to R79) without failures or own steps; a statement without that premise holds
for every environment (R76). -/

open Sys2Proof Sys2Proof.Machine Sys2Proof.Safety

/-! Encoding -/

/-- R85 to R87, R93: the bytes that decode to a command and a rest are exactly the command's byte followed by
that rest. -/
def Obligations.DecodeEncodeAgree : Prop :=
  ∀ (bs : List (BitVec 8)) (i : Instr) (rest : List (BitVec 8)),
    decode bs = .ok (i, rest) ↔ bs = encodeBytes i ++ rest

/-- R86, R87, R91: the byte of each of the 23 rows of the opcode map, written out bit by bit, decodes to that row's
command; 233 of the 256 bytes decode to none, and each of those is refused with its value. -/
def Obligations.OpcodeMapOfTheSpec : Prop :=
  (∀ row ∈ [(0b00000000#8, Instr.rdd), (0b00000001#8, .wrd), (0b00000010#8, .rmwd), (0b00000011#8, .rdx),
      (0b00000100#8, .wrx), (0b00000101#8, .rmwx), (0b00010000#8, .ident), (0b00010001#8, .linksup),
      (0b00100000#8, .setlink), (0b00100001#8, .setclksh), (0b00100010#8, .setclkdly), (0b00100011#8, .setimped),
      (0b00100100#8, .setfifo), (0b00100101#8, .setgpio), (0b00100110#8, .setled), (0b00100111#8, .setmdix),
      (0b00101000#8, .setidle), (0b00101001#8, .setdspeq), (0b00101010#8, .fldfix), (0b00101011#8, .setloop),
      (0b00110000#8, .configure), (0b01000000#8, .reset), (0b01000001#8, .isrstdone)],
    decodeOpcode row.1 = .ok row.2) ∧
    ((List.range 256).countP fun n =>
      decodeOpcode (BitVec.ofNat 8 n) == Except.error (DecodeError.illegalOpcode (BitVec.ofNat 8 n))) = 233

/-! The host port and the step -/

/-- R85, with R14 and R22: a host write to `CMD` of a value whose low 8 bits (the register's width: log entry 8,
DEDUCED) are a command's byte runs that command, and does nothing else but take the host's move off its list (log
entry 6, DESIGN CHOICE). That one step runs the command whole is the model's choice (log entry 5). -/
def Obligations.StepRunsIssuedCommand : Prop :=
  ∀ (s : State) (v : BitVec 32) (ms : List HostMove) (i : Instr) (rest : List (BitVec 8)),
    s.seq = .idle → s.host = .write 0x00 v :: ms → decode (v.setWidth 8 :: rest) = .ok (i, rest) →
      step s = exec i { s with host := ms }

/-- R91, R170: a host write to `CMD` of a byte that is no command writes 0x0003 to STATUS, has an empty bus trace
and changes no other register. (The byte is the low 8 bits of what the host writes, R14, R22: log entry 8. The host's
moves are a list, log entry 6.) -/
def Obligations.IllegalCommandOnlyWritesStatus : Prop :=
  ∀ (s : State) (v : BitVec 32) (ms : List HostMove), s.seq = .idle → s.host = .write 0x00 v :: ms →
    (∀ i, v.setWidth 8 ≠ encode i) →
      step s = .next { s with host := ms, status := 0x0003, trace := [] }

/-- R14, R22: a host write by the index R22 gives an operand register leaves in it the value truncated to the
register's width, and changes no other register; it counts as written from then on (the model's record, log
entry 1). -/
def Obligations.HostWriteTruncates : Prop :=
  ∀ (s : State) (index : BitVec 8) (v : BitVec 32) (ms : List HostMove) (o : Operand),
    s.seq = .idle → s.host = .write index v :: ms → index = registerIndex (.operand o) →
      ∃ t, step s = .next t ∧
        (t.ops.get o).toNat = v.toNat % 2 ^ operandWidth o ∧
        (∀ p, p ≠ o → t.ops.get p = s.ops.get p) ∧
        (∀ p, p ∈ t.unwritten ↔ p ∈ s.unwritten ∧ p ≠ o) ∧
        t = { s with host := ms, ops := t.ops, unwritten := t.unwritten }

/-- R22, R29, R32: a host read by the index R22 gives a register returns the register, widened with zeros, and
changes no register; RSTATE reads as the code R29 gives its state. (That the value is appended to a list of what the
host read is the model's form, log entry 6; that an operand register the host never wrote reads like any other, with no
mark, is the model's choice, log entry 1.) -/
def Obligations.HostReadReturnsRegister : Prop :=
  ∀ (s : State) (index : BitVec 8) (ms : List HostMove) (r : HostReg),
    s.seq = .idle → s.host = .read index :: ms → index = registerIndex r → r ≠ .cmd →
      ∃ v : BitVec 32, step s = .next { s with host := ms, got := s.got ++ [(r, v)] } ∧
        (r = .status → v.toNat = s.status.toNat) ∧ (r = .rval → v.toNat = s.rval.toNat) ∧
        (r = .rbool → v.toNat = s.rbool.toNat) ∧
        (r = .rstate → (s.rstate = .idle → v = 0) ∧ (s.rstate = .requested → v = 1) ∧
          (s.rstate = .complete → v = 2)) ∧
        (∀ o, r = .operand o → v = s.ops.get o)

/-- R22: each register has the index of its row and there are 27; an access to any other index is refused; so is, by
the model's choice (log entry 7), a write of a result register and a read of `CMD`. -/
def Obligations.HostAccessRefused : Prop :=
  (∀ r, hostRegister (registerIndex r) = some r) ∧
    ((List.range 256).countP fun n => (hostRegister (BitVec.ofNat 8 n)).isSome) = 27 ∧
    ∀ (s : State) (index : BitVec 8) (v : BitVec 32) (ms : List HostMove), s.seq = .idle →
      ((∀ r, index ≠ registerIndex r) →
        (s.host = .write index v :: ms → step s = .refused (.noHostRegister index)) ∧
        (s.host = .read index :: ms → step s = .refused (.noHostRegister index))) ∧
      (∀ r, index = registerIndex r → r = .status ∨ r = .rval ∨ r = .rbool ∨ r = .rstate →
        s.host = .write index v :: ms → step s = .refused (.hostMayNotWrite r)) ∧
      (s.host = .read 0x00 :: ms → step s = .refused (.hostMayNotRead .cmd))

/-- R58, R190: what reset leaves in the registers the spec gives a value, in `State.reset` and after the engine's
reset as a host move, which touches neither the PHY, nor the parameters, nor the environment. (The operand
registers' contents are the model's choice, log entry 1, and so is the emptied bus trace, log entry 18: neither is
stated.) -/
def Obligations.ResetLeaves : Prop :=
  (State.reset.status = 0x0000 ∧ State.reset.rval = 0x0000 ∧ State.reset.rbool = 0 ∧
    State.reset.rstate.code = 0 ∧ State.reset.seq = .idle ∧ State.reset.busy = false ∧
    ∀ o, o ∈ State.reset.unwritten) ∧
  ∀ (s : State) (ms : List HostMove), s.seq = .idle → s.host = .engineReset :: ms →
    ∃ t, step s = .next t ∧ t.status = 0x0000 ∧ t.rval = 0x0000 ∧ t.rbool = 0 ∧ t.rstate = .idle ∧
      t.seq = .idle ∧ (∀ o, o ∈ t.unwritten) ∧ t.phy = s.phy ∧ t.rm = s.rm ∧ t.devAddr = s.devAddr ∧
      t.env = s.env ∧ t.tick = s.tick ∧ t.host = ms ∧ t.got = s.got

/-- R31: while a command is in progress the host has no move: a step takes none off its list (log entry 6), lets it
read nothing, and leaves every operand register and the parameters alone (R28). -/
def Obligations.BusyHostHasNoMove : Prop :=
  ∀ s t : State, s.busy = true → step s = .next t →
    t.host = s.host ∧ t.got = s.got ∧ t.ops = s.ops ∧ t.unwritten = s.unwritten ∧ t.rm = s.rm ∧
      t.devAddr = s.devAddr

/-! Register access, for every environment -/

/-- R106, R115: RDD. -/
def Obligations.RddOutcomes : Prop :=
  ∀ s : State, ∃ t, exec .rdd s = .next t ∧
    if s.ops.aAddr.toNat > 31 then t = afterInvalid s t
    else
      t = { portOnly s t with rval := t.rval } ∧
        ((∃ v, t.trace = [.read s.devAddr (s.ops.aAddr.setWidth 5) v] ∧ t.status = 0x0000 ∧ t.rval = v) ∨
          (∃ k, t.trace = [.readFailed s.devAddr (s.ops.aAddr.setWidth 5) k] ∧
            t.status = transportStatus k ∧ t.rval = s.rval))

/-- R107, R115: WRD. -/
def Obligations.WrdOutcomes : Prop :=
  ∀ s : State, ∃ t, exec .wrd s = .next t ∧
    if s.ops.aAddr.toNat > 31 then t = afterInvalid s t
    else
      t = portOnly s t ∧
        endsAs (fun _ : Unit => [.write s.devAddr (s.ops.aAddr.setWidth 5) s.ops.aVal]) t

/-- R108, R113, R115: RMWD reads before it writes, writes `(cur & ~m) | (x & m)` of exactly that read, and writes
nothing after a failed read. -/
def Obligations.RmwdOutcomes : Prop :=
  ∀ s : State, ∃ t, exec .rmwd s = .next t ∧
    if s.ops.aAddr.toNat > 31 then t = afterInvalid s t
    else
      t = portOnly s t ∧
        endsAs (fun cur : Word =>
          [.read s.devAddr (s.ops.aAddr.setWidth 5) cur,
           .write s.devAddr (s.ops.aAddr.setWidth 5)
            ((cur &&& ~~~s.ops.aMask) ||| (s.ops.aVal &&& s.ops.aMask))]) t

/-- R109, R110: RDX selects in three writes and reads once; RVAL is written only when all four events completed. -/
def Obligations.RdxOutcomes : Prop :=
  ∀ s : State, ∃ t, exec .rdx s = .next t ∧ t = { portOnly s t with rval := t.rval } ∧
    endsAs (fun v : Word => selectTrace s.devAddr s.rm s.ops.aAddr ++ [.read s.devAddr s.rm.mmdData v]) t ∧
    (∀ v, t.trace = selectTrace s.devAddr s.rm s.ops.aAddr ++ [.read s.devAddr s.rm.mmdData v] → t.rval = v) ∧
    (t.status ≠ 0x0000 → t.rval = s.rval)

/-- R109, R111: WRX selects in three writes and writes the data register once, with no read. -/
def Obligations.WrxOutcomes : Prop :=
  ∀ s : State, ∃ t, exec .wrx s = .next t ∧ t = portOnly s t ∧
    endsAs (fun _ : Unit =>
      selectTrace s.devAddr s.rm s.ops.aAddr ++ [.write s.devAddr s.rm.mmdData s.ops.aVal]) t

/-- R109, R112: RMWX selects once, reads, and writes the merged value; a failure of any of the five events ends it
there. -/
def Obligations.RmwxOutcomes : Prop :=
  ∀ s : State, ∃ t, exec .rmwx s = .next t ∧ t = portOnly s t ∧
    endsAs (fun cur : Word =>
      selectTrace s.devAddr s.rm s.ops.aAddr ++
        [.read s.devAddr s.rm.mmdData cur,
         .write s.devAddr s.rm.mmdData ((cur &&& ~~~s.ops.aMask) ||| (s.ops.aVal &&& s.ops.aMask))]) t

/-! Register access under ENV_REF -/

/-- R79 with R106: what RDD reads: a direct register; through the MMD data register the latch or the latched
extended register, by the mode; in any other mode a value nothing constrains (log entry 9).
The host-fault mark and the draws used up are the model's own (log entries 1, 4). -/
def Obligations.RddUnderEnvRef : Prop :=
  ∀ (s : State) (rest : List Draw) (a : Direct5), s.ops.aAddr.toNat = a.toNat → quietFor 1 s rest →
    (a ≠ s.rm.mmdData →
      exec .rdd s =
        .next { afterOk s [.aAddr] [.read s.devAddr a (s.phy.direct a)] s.phy rest with
                rval := s.phy.direct a }) ∧
    (a = s.rm.mmdData → s.phy.direct s.rm.mmdCtl = s.rm.mmdAddrWord →
      exec .rdd s =
        .next { afterOk s [.aAddr] [.read s.devAddr a s.phy.xa] s.phy rest with rval := s.phy.xa }) ∧
    (a = s.rm.mmdData → s.phy.direct s.rm.mmdCtl ≠ s.rm.mmdAddrWord →
      s.phy.direct s.rm.mmdCtl = s.rm.mmdDataWord →
      exec .rdd s =
        .next { afterOk s [.aAddr] [.read s.devAddr a (s.phy.ext s.phy.xa)] s.phy rest with
                rval := s.phy.ext s.phy.xa }) ∧
    (a = s.rm.mmdData → s.phy.direct s.rm.mmdCtl ≠ s.rm.mmdAddrWord →
      s.phy.direct s.rm.mmdCtl ≠ s.rm.mmdDataWord →
      ∃ w, exec .rdd s =
        .next { afterOk s [.aAddr] [.read s.devAddr a w] { s.phy with lost := true } rest with rval := w })

/-- R78 with R107: where WRD's value goes: a direct register; through the MMD data register the latch or the
latched extended register, by the mode; in any other mode the PHY's contents are no longer known (log entry 9).
When the latched register is the strap register its strap bit keeps its value, which is read from R36, where R78
stores all 16 bits (log entry 11, DEDUCED).
The host-fault mark and the draws used up are the model's own (log entries 1, 4). -/
def Obligations.WrdUnderEnvRef : Prop :=
  ∀ (s : State) (rest : List Draw) (a : Direct5), s.ops.aAddr.toNat = a.toNat → quietFor 1 s rest →
    (a ≠ s.rm.mmdData →
      exec .wrd s =
        .next (afterOk s [.aAddr, .aVal] [.write s.devAddr a s.ops.aVal] (s.phy.setDirect a s.ops.aVal) rest)) ∧
    (a = s.rm.mmdData → s.phy.direct s.rm.mmdCtl = s.rm.mmdAddrWord →
      exec .wrd s =
        .next (afterOk s [.aAddr, .aVal] [.write s.devAddr a s.ops.aVal] { s.phy with xa := s.ops.aVal } rest)) ∧
    (a = s.rm.mmdData → s.phy.direct s.rm.mmdCtl ≠ s.rm.mmdAddrWord →
      s.phy.direct s.rm.mmdCtl = s.rm.mmdDataWord →
      exec .wrd s =
        .next (afterOk s [.aAddr, .aVal] [.write s.devAddr a s.ops.aVal]
          (s.phy.store s.rm (.ext s.phy.xa) s.ops.aVal) rest)) ∧
    (a = s.rm.mmdData → s.phy.direct s.rm.mmdCtl ≠ s.rm.mmdAddrWord →
      s.phy.direct s.rm.mmdCtl ≠ s.rm.mmdDataWord →
      exec .wrd s =
        .next (afterOk s [.aAddr, .aVal] [.write s.devAddr a s.ops.aVal] { s.phy with lost := true } rest))

/-- R108 with R78, R79: RMWD of a direct register other than the MMD data register; of the MMD data register in data
mode, where it reaches the latched extended register (R117), and in address mode, where it reaches the latch; in any
other mode the value read is one nothing constrains and the PHY's contents are no longer known (log entry 9).
When the latched register is the strap register its strap bit keeps its value, which is read from R36, where R78
stores all 16 bits (log entry 11, DEDUCED).
The host-fault mark and the draws used up are the model's own (log entries 1, 4). -/
def Obligations.RmwdUnderEnvRef : Prop :=
  ∀ (s : State) (rest : List Draw) (a : Direct5) (cur : Word), s.ops.aAddr.toNat = a.toNat →
    quietFor 2 s rest →
    (a ≠ s.rm.mmdData → cur = s.phy.direct a →
      exec .rmwd s =
        .next (afterOk s [.aAddr, .aMask, .aVal]
          [.read s.devAddr a cur,
           .write s.devAddr a ((cur &&& ~~~s.ops.aMask) ||| (s.ops.aVal &&& s.ops.aMask))]
          (s.phy.setDirect a ((cur &&& ~~~s.ops.aMask) ||| (s.ops.aVal &&& s.ops.aMask))) rest)) ∧
    (a = s.rm.mmdData → s.phy.direct s.rm.mmdCtl ≠ s.rm.mmdAddrWord →
      s.phy.direct s.rm.mmdCtl = s.rm.mmdDataWord → cur = s.phy.ext s.phy.xa →
      exec .rmwd s =
        .next (afterOk s [.aAddr, .aMask, .aVal]
          [.read s.devAddr a cur,
           .write s.devAddr a ((cur &&& ~~~s.ops.aMask) ||| (s.ops.aVal &&& s.ops.aMask))]
          (s.phy.store s.rm (.ext s.phy.xa) ((cur &&& ~~~s.ops.aMask) ||| (s.ops.aVal &&& s.ops.aMask)))
          rest)) ∧
    (a = s.rm.mmdData → s.phy.direct s.rm.mmdCtl = s.rm.mmdAddrWord → cur = s.phy.xa →
      exec .rmwd s =
        .next (afterOk s [.aAddr, .aMask, .aVal]
          [.read s.devAddr a cur,
           .write s.devAddr a ((cur &&& ~~~s.ops.aMask) ||| (s.ops.aVal &&& s.ops.aMask))]
          { s.phy with xa := (cur &&& ~~~s.ops.aMask) ||| (s.ops.aVal &&& s.ops.aMask) } rest)) ∧
    (a = s.rm.mmdData → s.phy.direct s.rm.mmdCtl ≠ s.rm.mmdAddrWord →
      s.phy.direct s.rm.mmdCtl ≠ s.rm.mmdDataWord →
      ∃ w, exec .rmwd s =
        .next (afterOk s [.aAddr, .aMask, .aVal]
          [.read s.devAddr a w,
           .write s.devAddr a ((w &&& ~~~s.ops.aMask) ||| (s.ops.aVal &&& s.ops.aMask))]
          { s.phy with lost := true } rest))

/-- R110 to R112 with R78, R79: RDX, WRX and RMWX of extended register `x` read and write `X[x]`, and leave the
MMD control register in data mode and the latch at `x`.
When `x` is the strap register its strap bit keeps its value, which is read from R36, where R78 stores all 16 bits (log
entry 11, DEDUCED).
The host-fault mark and the draws used up are the model's own (log entries 1, 4). -/
def Obligations.ExtendedAccessUnderEnvRef : Prop :=
  ∀ (s : State) (rest : List Draw) (x : Ext16), s.rm.wf = true → x = s.ops.aAddr →
    (quietFor 4 s rest →
      exec .rdx s =
        .next { afterOk s [.aAddr] (readTrace s.devAddr s.rm (s.phy.ext x) (.ext x))
                  { s.phy.setDirect s.rm.mmdCtl s.rm.mmdDataWord with xa := x } rest with
                rval := s.phy.ext x }) ∧
    (quietFor 4 s rest →
      exec .wrx s =
        .next (afterOk s [.aAddr, .aVal] (writeTrace s.devAddr s.rm s.ops.aVal (.ext x))
          (stored s.rm (.ext x) s.ops.aVal s.phy) rest)) ∧
    (quietFor 5 s rest →
      exec .rmwx s = .next (afterRmw s [.aAddr, .aMask, .aVal] (.ext x) s.ops.aMask s.ops.aVal rest))

/-- R117, R205: after a completed RDX, WRX or RMWX, a direct read of the MMD data register returns the extended
register just accessed.
The host-fault mark and the draws used up are the model's own (log entries 1, 4). -/
def Obligations.DirectReadReachesSelectedRegister : Prop :=
  ∀ (i : Instr) (s t u : State) (rest : List Draw), i = .rdx ∨ i = .wrx ∨ i = .rmwx → s.rm.wf = true →
    quietFor (if i = .rmwx then 6 else 5) s rest → exec i s = .next t →
      t.phy.direct s.rm.mmdCtl = s.rm.mmdDataWord ∧ t.phy.xa = s.ops.aAddr ∧
        (exec .rdd { t with ops := { t.ops with aAddr := s.rm.mmdData.setWidth 16 } } = .next u →
          u.rval = t.phy.ext s.ops.aAddr)

/-! Capability -/

/-- R96, R120 to R122: IDENT compares the whole triple; LINKSUP answers 1 for MII and RMII only. Neither has a
transport event and neither can fail. -/
def Obligations.CapabilityAnswers : Prop :=
  ∀ s : State,
    (∃ t, exec .ident s = .next t ∧
      t = { s with status := 0x0000, seq := .idle, trace := [], rbool := t.rbool, hostFault := t.hostFault } ∧
      (t.rbool = 1 ↔ s.ops.pOui = s.rm.idOui ∧ s.ops.pModel = s.rm.idModel ∧ s.ops.pRev = s.rm.idRev)) ∧
    (∃ t, exec .linksup s = .next t ∧
      t = { s with status := 0x0000, seq := .idle, trace := [], rbool := t.rbool, hostFault := t.hostFault } ∧
      (t.rbool = 1 ↔ s.ops.pLinkMode.toNat = 0 ∨ s.ops.pLinkMode.toNat = 1))

/-! Sub-operations, for every environment -/

/-- R126: SETLINK sets the bit for RMII and clears it for every other mode. -/
def Obligations.SetlinkOutcomes : Prop :=
  ∀ s : State, ∃ t, exec .setlink s = .next t ∧ t = portOnly s t ∧
    endsAs (fun cur : Word =>
      rmwTrace s.devAddr s.rm cur
        ((cur &&& ~~~s.rm.rmiiEn) |||
          (place s.rm.rmiiEn (if s.ops.pLinkMode.toNat = 1 then 1 else 0) &&& s.rm.rmiiEn))
        (.ext s.rm.modeCtl)) t

/-- R127: SETCLKSH. -/
def Obligations.SetclkshOutcomes : Prop :=
  ∀ s : State, ∃ t, exec .setclksh s = .next t ∧ t = portOnly s t ∧
    endsAs (fun cur : Word =>
      rmwTrace s.devAddr s.rm cur
        ((cur &&& ~~~(s.rm.txShift ||| s.rm.rxShift)) |||
          ((place s.rm.txShift s.ops.pTxShift.toNat ||| place s.rm.rxShift s.ops.pRxShift.toNat) &&&
            (s.rm.txShift ||| s.rm.rxShift)))
        (.ext s.rm.clkShift)) t

/-- R129, R140: SETCLKDLY; a delay above 4000 on either side is refused before any event. -/
def Obligations.SetclkdlyOutcomes : Prop :=
  ∀ s : State, ∃ t, exec .setclkdly s = .next t ∧
    if s.ops.pTxDelay.toNat > 4000 ∨ s.ops.pRxDelay.toNat > 4000 then
      t = afterInvalid s t
    else
      t = portOnly s t ∧
        endsAs (fun cur : Word =>
          rmwTrace s.devAddr s.rm cur
            ((cur &&& ~~~(s.rm.txDelay ||| s.rm.rxDelay)) |||
              ((place s.rm.txDelay (min ((max s.ops.pTxDelay.toNat 1 + 249) / 250 - 1) 15) |||
                place s.rm.rxDelay (min ((max s.ops.pRxDelay.toNat 1 + 249) / 250 - 1) 15)) &&&
                (s.rm.txDelay ||| s.rm.rxDelay)))
            s.rm.clkDelay) t

/-- R130, R131, R140: SETIMPED; an impedance outside 35000..70000 is refused before any event. -/
def Obligations.SetimpedOutcomes : Prop :=
  ∀ s : State, ∃ t, exec .setimped s = .next t ∧
    if s.ops.pImped.toNat < 35000 ∨ s.ops.pImped.toNat > 70000 then t = afterInvalid s t
    else
      t = portOnly s t ∧
        endsAs (fun cur : Word =>
          rmwTrace s.devAddr s.rm cur
            ((cur &&& ~~~s.rm.impedField) |||
              (place s.rm.impedField (((70000 - s.ops.pImped.toNat) * 31 + 17500) / 35000) &&&
                s.rm.impedField))
            s.rm.imped) t

/-- R132, R140: SETFIFO; a depth outside {3, 4, 6, 8} is refused before any event. -/
def Obligations.SetfifoOutcomes : Prop :=
  ∀ s : State, ∃ t, exec .setfifo s = .next t ∧
    (s.ops.pFifo.toNat ∉ [3, 4, 6, 8] → t = afterInvalid s t) ∧
    ∀ f c, (f, c) ∈ [(3, s.rm.fifoCode3), (4, s.rm.fifoCode4), (6, s.rm.fifoCode6), (8, s.rm.fifoCode8)] →
      s.ops.pFifo.toNat = f →
        t = portOnly s t ∧
          endsAs (fun cur : Word =>
            rmwTrace s.devAddr s.rm cur
              ((cur &&& 0x3FFF) ||| (BitVec.ofNat 16 (c.toNat <<< 14))) s.rm.fifo) t

/-- R133, R141: SETGPIO. -/
def Obligations.SetgpioOutcomes : Prop :=
  ∀ s : State, ∃ t, exec .setgpio s = .next t ∧ t = portOnly s t ∧
    endsAs (fun cur : Word =>
      rmwTrace s.devAddr s.rm cur
        ((cur &&& ~~~(s.rm.gpio0 ||| s.rm.gpio1)) |||
          ((place s.rm.gpio0 s.ops.pGpio0.toNat ||| place s.rm.gpio1 s.ops.pGpio1.toNat) &&&
            (s.rm.gpio0 ||| s.rm.gpio1)))
        s.rm.gpio) t

/-- R134: SETLED is one write of all four fields, with no read. -/
def Obligations.SetledOutcomes : Prop :=
  ∀ s : State, ∃ t, exec .setled s = .next t ∧ t = portOnly s t ∧
    endsAs (fun _ : Unit =>
      writeTrace s.devAddr s.rm
        (place s.rm.ledField0 s.ops.pLed0.toNat ||| place s.rm.ledField1 s.ops.pLed1.toNat |||
          place s.rm.ledField2 s.ops.pLed2.toNat ||| place s.rm.ledField3 s.ops.pLed3.toNat)
        s.rm.led) t

/-- R135: SETMDIX; the second transaction happens only when enabling, and only after the first completed. -/
def Obligations.SetmdixOutcomes : Prop :=
  ∀ s : State, ∃ t, exec .setmdix s = .next t ∧ t = portOnly s t ∧
    endsAs (fun cur : Word × Word =>
      if s.ops.pMdixEn = 1 then
        [.read s.devAddr s.rm.mdix cur.1,
         .write s.devAddr s.rm.mdix
          ((cur.1 &&& ~~~s.rm.mdixField) ||| (place s.rm.mdixField s.rm.mdixAuto.toNat &&& s.rm.mdixField)),
         .read s.devAddr s.rm.mdix2 cur.2,
         .write s.devAddr s.rm.mdix2 (cur.2 ||| s.rm.robustBit)]
      else
        [.read s.devAddr s.rm.mdix cur.1,
         .write s.devAddr s.rm.mdix
          ((cur.1 &&& ~~~s.rm.mdixField) ||| (place s.rm.mdixField s.rm.mdixOff.toNat &&& s.rm.mdixField))]) t

/-- R136: SETIDLE. -/
def Obligations.SetidleOutcomes : Prop :=
  ∀ s : State, ∃ t, exec .setidle s = .next t ∧ t = portOnly s t ∧
    endsAs (fun cur : Word =>
      rmwTrace s.devAddr s.rm cur
        ((cur &&& ~~~s.rm.idleField) ||| (place s.rm.idleField s.ops.pIdleThr.toNat &&& s.rm.idleField))
        (.ext s.rm.idle)) t

/-- R137: SETDSPEQ. -/
def Obligations.SetdspeqOutcomes : Prop :=
  ∀ s : State, ∃ t, exec .setdspeq s = .next t ∧ t = portOnly s t ∧
    endsAs (fun cur : Word =>
      rmwTrace s.devAddr s.rm cur
        ((cur &&& ~~~s.rm.dspEqMask) ||| (s.rm.dspEqVal &&& s.rm.dspEqMask)) (.ext s.rm.dspEq)) t

/-- R138: FLDFIX reads the strap register, and forces the threshold exactly when the strap bit reads 1. -/
def Obligations.FldfixOutcomes : Prop :=
  ∀ s : State, ∃ t, exec .fldfix s = .next t ∧ t = portOnly s t ∧
    endsAs (fun r : Word × Word =>
      readTrace s.devAddr s.rm r.1 (.ext s.rm.strap) ++
        if r.1 &&& s.rm.fldStrapBit = 0 then []
        else
          rmwTrace s.devAddr s.rm r.2
            ((r.2 &&& ~~~s.rm.fldThrField) |||
              (place s.rm.fldThrField s.rm.fldThrVal.toNat &&& s.rm.fldThrField))
            s.rm.fldThr) t

/-- R139: SETLOOP is a full overwrite of the loopback register, with no read. -/
def Obligations.SetloopOutcomes : Prop :=
  ∀ s : State, ∃ t, exec .setloop s = .next t ∧ t = portOnly s t ∧
    endsAs (fun _ : Unit =>
      writeTrace s.devAddr s.rm (if s.ops.pLoopEn = 1 then s.rm.loopOn else s.rm.loopOff)
        (.ext s.rm.loop)) t

/-! Sub-operations under ENV_REF -/

/-- R126, R127, R136, R137, R139 with R78, R79: the sub-operations on a fixed extended register.
A register that is the strap register keeps its strap bit, which is read from R36, where R78 stores all 16 bits (log
entry 11, DEDUCED).
The host-fault mark and the draws used up are the model's own (log entries 1, 4). -/
def Obligations.ExtendedSubopsUnderEnvRef : Prop :=
  ∀ (s : State) (rest : List Draw), s.rm.wf = true →
    (quietFor 5 s rest →
      exec .setlink s =
        .next (afterRmw s [.pLinkMode] (.ext s.rm.modeCtl) s.rm.rmiiEn
          (if s.ops.pLinkMode.toNat = 1 then s.rm.rmiiEn else 0) rest)) ∧
    (quietFor 5 s rest →
      exec .setclksh s =
        .next (afterRmw s [.pTxShift, .pRxShift] (.ext s.rm.clkShift) (s.rm.txShift ||| s.rm.rxShift)
          ((if s.ops.pTxShift = 1 then s.rm.txShift else 0) |||
            (if s.ops.pRxShift = 1 then s.rm.rxShift else 0)) rest)) ∧
    (quietFor 5 s rest →
      exec .setidle s =
        .next (afterRmw s [.pIdleThr] (.ext s.rm.idle) s.rm.idleField
          (place s.rm.idleField s.ops.pIdleThr.toNat) rest)) ∧
    (quietFor 5 s rest →
      exec .setdspeq s = .next (afterRmw s [] (.ext s.rm.dspEq) s.rm.dspEqMask s.rm.dspEqVal rest)) ∧
    (quietFor 4 s rest → ∀ v, v = (if s.ops.pLoopEn = 1 then s.rm.loopOn else s.rm.loopOff) →
      exec .setloop s =
        .next (afterOk s [.pLoopEn] (writeTrace s.devAddr s.rm v (.ext s.rm.loop))
          (stored s.rm (.ext s.rm.loop) v s.phy) rest))

/-- R129, R131 to R134 with R78, R79: the sub-operations whose register may lie in either space.
A register that is the strap register keeps its strap bit, which is read from R36, where R78 stores all 16 bits (log
entry 11, DEDUCED).
The host-fault mark and the draws used up are the model's own (log entries 1, 4). -/
def Obligations.OpenSubopsUnderEnvRef : Prop :=
  ∀ (s : State) (rest : List Draw), s.rm.wf = true →
    (s.ops.pTxDelay.toNat ≤ 4000 → s.ops.pRxDelay.toNat ≤ 4000 →
      quietFor (2 + selections s.rm.clkDelay) s rest →
      exec .setclkdly s =
        .next (afterRmw s [.pTxDelay, .pRxDelay] s.rm.clkDelay (s.rm.txDelay ||| 0x000F)
          (place s.rm.txDelay (delaySteps s.ops.pTxDelay.toNat) |||
            BitVec.ofNat 16 (delaySteps s.ops.pRxDelay.toNat)) rest)) ∧
    (35000 ≤ s.ops.pImped.toNat → s.ops.pImped.toNat ≤ 70000 → quietFor (2 + selections s.rm.imped) s rest →
      exec .setimped s =
        .next (afterRmw s [.pImped] s.rm.imped s.rm.impedField
          (place s.rm.impedField (impedCode s.ops.pImped.toNat)) rest)) ∧
    (∀ c, fifoCode s.rm s.ops.pFifo = some c → quietFor (2 + selections s.rm.fifo) s rest →
      exec .setfifo s =
        .next (afterRmw s [.pFifo] s.rm.fifo 0xC000 (BitVec.ofNat 16 (c.toNat * 2 ^ 14)) rest)) ∧
    (quietFor (2 + selections s.rm.gpio) s rest →
      exec .setgpio s =
        .next (afterRmw s [.pGpio0, .pGpio1] s.rm.gpio (s.rm.gpio0 ||| s.rm.gpio1)
          (place s.rm.gpio0 s.ops.pGpio0.toNat ||| place s.rm.gpio1 s.ops.pGpio1.toNat) rest)) ∧
    (quietFor (1 + selections s.rm.led) s rest →
      exec .setled s =
        .next (afterOk s [.pLed0, .pLed1, .pLed2, .pLed3]
          (writeTrace s.devAddr s.rm (ledWord s.rm s.ops) s.rm.led)
          (stored s.rm s.rm.led (ledWord s.rm s.ops) s.phy) rest))

/-- R135, R138 with R78, R79: the sub-operations with a condition.
A register that is the strap register keeps its strap bit, which is read from R36, where R78 stores all 16 bits (log
entry 11, DEDUCED).
The host-fault mark and the draws used up are the model's own (log entries 1, 4). -/
def Obligations.ConditionalSubopsUnderEnvRef : Prop :=
  ∀ (s : State) (rest : List Draw), s.rm.wf = true →
    (s.ops.pMdixEn = 0 → quietFor 2 s rest →
      exec .setmdix s =
        .next (afterRmw s [.pMdixEn] (.direct s.rm.mdix) s.rm.mdixField
          (place s.rm.mdixField s.rm.mdixOff.toNat) rest)) ∧
    (s.ops.pMdixEn = 1 → quietFor 4 s rest →
      ∀ new p, new = (s.phy.direct s.rm.mdix &&& ~~~s.rm.mdixField) |||
          place s.rm.mdixField s.rm.mdixAuto.toNat →
        p = s.phy.setDirect s.rm.mdix new →
        exec .setmdix s =
          .next (afterOk s [.pMdixEn]
            [.read s.devAddr s.rm.mdix (s.phy.direct s.rm.mdix), .write s.devAddr s.rm.mdix new,
             .read s.devAddr s.rm.mdix2 (p.direct s.rm.mdix2),
             .write s.devAddr s.rm.mdix2 (p.direct s.rm.mdix2 ||| s.rm.robustBit)]
            (p.setDirect s.rm.mdix2 (p.direct s.rm.mdix2 ||| s.rm.robustBit)) rest)) ∧
    (s.phy.ext s.rm.strap &&& s.rm.fldStrapBit = 0 → quietFor 4 s rest →
      exec .fldfix s =
        .next (afterOk s [] (readTrace s.devAddr s.rm (s.phy.ext s.rm.strap) (.ext s.rm.strap))
          (selected s.rm (.ext s.rm.strap) s.phy) rest)) ∧
    (s.phy.ext s.rm.strap &&& s.rm.fldStrapBit ≠ 0 → quietFor (6 + selections s.rm.fldThr) s rest →
      ∀ cur new, cur = s.phy.reg s.rm.fldThr →
        new = (cur &&& ~~~s.rm.fldThrField) ||| place s.rm.fldThrField s.rm.fldThrVal.toNat →
        exec .fldfix s =
          .next (afterOk s []
            (readTrace s.devAddr s.rm (s.phy.ext s.rm.strap) (.ext s.rm.strap) ++
              rmwTrace s.devAddr s.rm cur new s.rm.fldThr)
            (stored s.rm s.rm.fldThr new (selected s.rm (.ext s.rm.strap) s.phy)) rest))

/-- The memory frame of the transactions of R116 under ENV_REF (R78, R79, R114): `WrLoc` stores its value, `RmwLoc` the
merged one, to its location; `RdLoc` returns the location's value and stores to none. Every other register of the PHY
but the MMD control register reads as before, and that one too when the location is direct. (No location of a
well-formed map is the MMD data register, R56 (a); WRD and RMWD of it have statements of their own.) -/
def Obligations.TransactionFrame : Prop :=
  ∀ (s : State) (rest : List Draw) (l : RegLoc) (m v : Word), s.rm.wf = true → l ≠ .direct s.rm.mmdData →
    (quietFor (1 + selections l) s rest →
      storesOnly s.rm l v s.phy (run none (wrLoc s.rm l v (.fin .ok)) s).phy) ∧
    (quietFor (2 + selections l) s rest →
      storesOnly s.rm l ((s.phy.reg l &&& ~~~m) ||| (v &&& m)) s.phy
        (run none (rmwLoc s.rm l m v (.fin .ok)) s).phy) ∧
    (quietFor (1 + selections l) s rest →
      storesOnly s.rm l (s.phy.reg l) s.phy (run none (rdLoc s.rm l fun w => .fin (.value w)) s).phy ∧
        (run none (rdLoc s.rm l fun w => .fin (.value w)) s).rval = s.phy.reg l)

/-- The memory frame of every command, for every environment that takes no step of its own (R76), while the PHY's
contents are known (log entry 9): a register of either space that no event of the bus trace stores to reads as before.
`storesTo` computes from the trace which registers are stored to: an extended register only by a write of the MMD data
register in data mode while the latch holds its number, so not one that is only latched, or only selected and read.
The latch is unchanged where no event writes the MMD data register. -/
def Obligations.UnwrittenRegistersKept : Prop :=
  ∀ (i : Instr) (s t : State), stillFor 57 s → exec i s = .next t → t.phy.lost = false →
    (∀ l, l ∉ storesTo s.rm (s.phy.direct s.rm.mmdCtl) s.phy.xa t.trace → t.phy.reg l = s.phy.reg l) ∧
    ((∀ e ∈ t.trace, writtenTo e ≠ some s.rm.mmdData) → t.phy.xa = s.phy.xa)

/-- R80 (a), (b), (d) and R60: the environment's own steps. With the reset bit clear there is none. `clearReset` clears
the reset bit and no other bit (and that one unless it is the strap bit); `change` gives one register any value;
`changeLatch` the latch; none changes the strap bit. They come before the event they are drawn with: RDD reads, and WRD
writes, the PHY they leave; and a failed write leaves it as it was or has taken effect, as the draw says (R80 (c), log
entries 4, 10 to 12). -/
def Obligations.EnvironmentSteps : Prop :=
  (∀ (rm : RegMap) (p : Phy) (m : EnvMove),
    (p.reg rm.ctrl &&& rm.resetBit = 0 → p.move rm m = p) ∧
    (m = .clearReset →
      (p.move rm m).reg rm.ctrl &&& ~~~rm.resetBit = p.reg rm.ctrl &&& ~~~rm.resetBit ∧
      ((rm.ctrl = .ext rm.strap → rm.resetBit &&& rm.fldStrapBit = 0) →
        (p.move rm m).reg rm.ctrl &&& rm.resetBit = 0) ∧
      (∀ l, l ≠ rm.ctrl → (p.move rm m).reg l = p.reg l) ∧ (p.move rm m).xa = p.xa) ∧
    (∀ l v, m = .change l v → p.reg rm.ctrl &&& rm.resetBit ≠ 0 →
      (p.move rm m).reg l =
        (if l = .ext rm.strap then (v &&& ~~~rm.fldStrapBit) ||| (p.reg l &&& rm.fldStrapBit) else v) ∧
      (∀ l', l' ≠ l → (p.move rm m).reg l' = p.reg l') ∧ (p.move rm m).xa = p.xa) ∧
    (∀ v, m = .changeLatch v → p.reg rm.ctrl &&& rm.resetBit ≠ 0 → p.move rm m = { p with xa := v }) ∧
    (p.move rm m).ext rm.strap &&& rm.fldStrapBit = p.ext rm.strap &&& rm.fldStrapBit ∧
    (p.move rm m).lost = p.lost) ∧
  ∀ (s : State) (d : Draw) (rest : List Draw) (a : Direct5) (p : Phy), s.env = d :: rest →
    s.ops.aAddr.toNat = a.toNat → a ≠ s.rm.mmdData → p = phyAfterMoves s d →
      (∃ t, exec .rdd s = .next t ∧ t.phy = p ∧
        (d.fail = none → d.value = none → p.lost = false → t.rval = p.direct a)) ∧
      (∃ t, exec .wrd s = .next t ∧
        t.phy = if d.fail = none ∨ d.lands = true then p.setDirect a s.ops.aVal else p)

/-- R36, R80 (d): no step of the machine, the host's, the engine's or the environment's, changes the strap bit. (That a
transport write of the strap register leaves the bit alone is read from R36, log entry 11.) -/
def Obligations.StrapBitIsReadOnly : Prop :=
  ∀ s t : State, step s = .next t →
    t.rm = s.rm ∧ t.phy.ext s.rm.strap &&& s.rm.fldStrapBit = s.phy.ext s.rm.strap &&& s.rm.fldStrapBit

/-! Arithmetic -/

/-- R128, R130: the unit conversions on their valid ranges. The delay conversion gives 0..15, the ceiling of the
quotient less one, is monotone and takes 0 as 1. The impedance conversion gives 0..31, the nearest code with halves
up, and maps lower impedances to higher codes. -/
def Obligations.UnitConversionsOnRange : Prop :=
  (∀ d e : Nat, d ≤ 4000 →
    delaySteps d ≤ 15 ∧ delaySteps d = (max d 1 + 249) / 250 - 1 ∧
      250 * delaySteps d < max d 1 ∧ max d 1 ≤ 250 * (delaySteps d + 1) ∧
      (e ≤ d → delaySteps e ≤ delaySteps d) ∧ delaySteps 0 = delaySteps 1 ∧ delaySteps 4000 = 15) ∧
  (∀ z y : Nat, 35000 ≤ z → z ≤ 70000 →
    impedCode z ≤ 31 ∧
      2 * 35000 * impedCode z ≤ 2 * (70000 - z) * 31 + 35000 ∧
      2 * (70000 - z) * 31 + 35000 < 2 * 35000 * (impedCode z + 1) ∧
      (z ≤ y → impedCode y ≤ impedCode z) ∧ impedCode 35000 = 31 ∧ impedCode 70000 = 0)

/-- R13, R90, R108: a masked update keeps every bit outside the mask and takes the value's inside; a placed number
stays inside its field, keeps exactly its low `width` bits there, and the rest of it is dropped. R133, R134, R141: so in
a well-formed map the four LED fields cover the word (R49), and SETLED's word and SETGPIO's value hold each operand's
code truncated to 4 bits in its own field, whether or not it is a mode code: whichever 9 (GPIO) or 14 (LED) codes are
enumerated (R8), some 4-bit value is none of them. -/
def Obligations.MaskedUpdateAndPlace : Prop :=
  (∀ cur m v : Word,
    (merge cur m v &&& ~~~m = cur &&& ~~~m ∧ merge cur m v &&& m = v &&& m) ∧
    ∀ n : Nat, place m n &&& ~~~m = 0 ∧
      (isField m = true → (place m n >>> fieldShift m).toNat = n % 2 ^ fieldWidth m)) ∧
  (∀ (rm : RegMap) (b : Operands), rm.wf = true →
    rm.ledField0 ||| rm.ledField1 ||| rm.ledField2 ||| rm.ledField3 = 0xFFFF ∧
      (∀ f c, (f, c) ∈ [(rm.ledField0, b.pLed0), (rm.ledField1, b.pLed1), (rm.ledField2, b.pLed2),
          (rm.ledField3, b.pLed3)] →
        ((ledWord rm b &&& f) >>> fieldShift f).toNat = c.toNat % 16) ∧
      ∀ f c, (f, c) ∈ [(rm.gpio0, b.pGpio0), (rm.gpio1, b.pGpio1)] →
        (((place rm.gpio0 b.pGpio0.toNat ||| place rm.gpio1 b.pGpio1.toNat) &&& f) >>> fieldShift f).toNat =
          c.toNat % 16) ∧
  ∀ codes : List (BitVec 4),
    isModeEnumeration gpioModeCount codes = true ∨ isModeEnumeration ledModeCount codes = true → ∃ c, c ∉ codes

/-! CONFIGURE -/

/-- R150 to R155: for every state and every environment CONFIGURE ends in the state that its eleven sub-operations
leave when they are issued one after another as commands until one does not end OK, and its bus trace is theirs
joined. -/
def Obligations.ConfigureIsFailFastSequence : Prop :=
  ∀ s : State,
    exec .configure s =
      .next { (failFast subopOrder s).1 with trace := (failFast subopOrder s).2 }

/-- R151, R157: with valid operands and a transport that fails none of its events CONFIGURE ends OK, with the
number of events R157 gives, between 35 and 57. -/
def Obligations.ConfigureCompletes : Prop :=
  ∀ s : State, s.ops.pTxDelay.toNat ≤ 4000 → s.ops.pRxDelay.toNat ≤ 4000 → 35000 ≤ s.ops.pImped.toNat →
    s.ops.pImped.toNat ≤ 70000 → s.ops.pFifo.toNat ∈ [3, 4, 6, 8] → succeedsFor 57 s →
      ∃ t fld, exec .configure s = .next t ∧ t = portOnly s t ∧ t.status = 0x0000 ∧
        t.trace.length =
          5 + 5 + (2 + selections s.rm.clkDelay) + (2 + selections s.rm.imped) + (2 + selections s.rm.fifo) +
            (2 + selections s.rm.gpio) + (1 + selections s.rm.led) + (if s.ops.pMdixEn = 1 then 4 else 2) +
            5 + 5 + fld ∧
        (fld = 4 ∨ fld = 4 + 2 + selections s.rm.fldThr) ∧ 35 ≤ t.trace.length ∧ t.trace.length ≤ 57

/-- R152, R176 (c): with an invalid delay CONFIGURE ends InvalidParameter after at most the events of SETLINK and
SETCLKSH, whatever the other operands are, unless an event failed before. -/
def Obligations.ConfigureStopsAtInvalidDelay : Prop :=
  ∀ s : State, s.ops.pTxDelay.toNat > 4000 ∨ s.ops.pRxDelay.toNat > 4000 →
    ∃ t, exec .configure s = .next t ∧ t = portOnly s t ∧ t.trace.length ≤ 10 ∧
      (t.status = 0x0001 ∧ t.trace.length = 10 ∨ ∃ k, t.status = transportStatus k)

/-- R123, R156: CONFIGURE, in RMII mode as in any other, does not ask for the answer of a capability gate, and does not
tell apart two link modes that are not RMII. -/
def Obligations.ConfigureIgnoresGates : Prop :=
  ∀ (s : State) (m : BitVec 32) (b : BitVec 1), (s.ops.pLinkMode.toNat = 1 ↔ m.toNat = 1) →
    ∃ t, exec .configure s = .next t ∧
      exec .configure { s with rbool := b, ops := { s.ops with pLinkMode := m } } =
        .next { t with rbool := b, ops := { t.ops with pLinkMode := m } }

/-- R155, R199: SETLINK then SETCLKSH on one register: the second reads what the first wrote, both updates and every
other bit survive. -/
def Obligations.SharedRegisterUpdatesSurvive : Prop :=
  ∀ (s t u : State) (rest : List Draw), s.rm.wf = true → s.rm.clkShift = s.rm.modeCtl →
    quietFor 10 s rest → exec .setlink s = .next t → exec .setclksh t = .next u →
      u.phy.ext s.rm.modeCtl &&& s.rm.rmiiEn =
        (if s.ops.pLinkMode.toNat = 1 then s.rm.rmiiEn else 0) ∧
      u.phy.ext s.rm.modeCtl &&& s.rm.txShift = (if s.ops.pTxShift = 1 then s.rm.txShift else 0) ∧
      u.phy.ext s.rm.modeCtl &&& s.rm.rxShift = (if s.ops.pRxShift = 1 then s.rm.rxShift else 0) ∧
      u.phy.ext s.rm.modeCtl &&& ~~~(s.rm.rmiiEn ||| s.rm.txShift ||| s.rm.rxShift) =
        s.phy.ext s.rm.modeCtl &&& ~~~(s.rm.rmiiEn ||| s.rm.txShift ||| s.rm.rxShift)

/-! The Reset State Machine -/

/-- R159: RESET sets the one bit and keeps the others; RSTATE becomes ResetRequested if both events completed and
stays otherwise. -/
def Obligations.ResetOutcomes : Prop :=
  ∀ s : State, ∃ t, exec .reset s = .next t ∧ t = { portOnly s t with rstate := t.rstate } ∧
    endsAs (fun cur : Word => rmwTrace s.devAddr s.rm cur (cur ||| s.rm.resetBit) s.rm.ctrl) t ∧
    (t.status = 0x0000 → t.rstate = .requested) ∧ (t.status ≠ 0x0000 → t.rstate = s.rstate)

/-- R160: ISRSTDONE reads once and writes nothing; the answer is the value read, 0 if the read failed. -/
def Obligations.IsrstdoneOutcomes : Prop :=
  ∀ s : State, ∃ t, exec .isrstdone s = .next t ∧
    t = { portOnly s t with rbool := t.rbool, rstate := t.rstate } ∧
    endsAs (fun v : Word => readTrace s.devAddr s.rm v s.rm.ctrl) t ∧
    (t.status ≠ 0x0000 → t.rbool = 0 ∧ t.rstate = s.rstate) ∧
    (∀ v, t.trace = readTrace s.devAddr s.rm v s.rm.ctrl →
      (t.rbool = 1 ↔ v &&& s.rm.resetBit = 0) ∧
      t.rstate = if v &&& s.rm.resetBit = 0 ∧ s.rstate = .requested then .complete else s.rstate)

/-- R162: the transition table of RSTATE, for every command. -/
def Obligations.RstateTransitions : Prop :=
  ∀ (i : Instr) (s : State), ∃ t, exec i s = .next t ∧
    t.rstate =
      if t.status ≠ 0x0000 then s.rstate
      else if i = .reset then .requested
      else if i = .isrstdone ∧ t.rbool = 1 ∧ s.rstate = .requested then .complete
      else s.rstate

/-- R159, R160 with R78, R79: under ENV_REF RESET leaves the bit set in the control register, and ISRSTDONE answers
by the register's bit.
A register that is the strap register keeps its strap bit, which is read from R36, where R78 stores all 16 bits (log
entry 11, DEDUCED).
The host-fault mark and the draws used up are the model's own (log entries 1, 4). -/
def Obligations.ResetMachineUnderEnvRef : Prop :=
  ∀ (s : State) (rest : List Draw), s.rm.wf = true →
    (quietFor (2 + selections s.rm.ctrl) s rest →
      exec .reset s =
        .next { afterRmw s [] s.rm.ctrl s.rm.resetBit s.rm.resetBit rest with rstate := .requested }) ∧
    (quietFor (1 + selections s.rm.ctrl) s rest →
      exec .isrstdone s =
        .next { afterOk s [] (readTrace s.devAddr s.rm (s.phy.reg s.rm.ctrl) s.rm.ctrl)
                  (selected s.rm s.rm.ctrl s.phy) rest with
                rbool := if s.phy.reg s.rm.ctrl &&& s.rm.resetBit = 0 then 1 else 0
                rstate := if s.phy.reg s.rm.ctrl &&& s.rm.resetBit = 0 ∧ s.rstate = .requested then .complete
                  else s.rstate })

/-! All commands -/

/-- R30, R166, R167: every command ends, after at most 57 transport events, with SEQ at IDLE and one of three results
in STATUS; IDENT and LINKSUP end OK, and InvalidParameter comes only from the commands R168 lists. -/
def Obligations.EveryCommandEnds : Prop :=
  ∀ (i : Instr) (s : State), ∃ t, exec i s = .next t ∧ t.seq = .idle ∧ t.trace.length ≤ 57 ∧
    (t.status = 0x0000 ∨ t.status = 0x0001 ∨ ∃ k, t.status = transportStatus k) ∧
    (i = .ident ∨ i = .linksup → t.status = 0x0000) ∧
    (t.status = 0x0001 → i ∈ [.rdd, .wrd, .rmwd, .setclkdly, .setimped, .setfifo, .configure])

/-- R71, R105, R169, R173: no event follows a failed one, and STATUS reports a failure of kind `k` exactly when the
last event failed with that kind. R60, R76: the environment decides each event: the `n`-th fails exactly if its draw
says so, and with that kind; and a completed read returns the value the oracle's draw gives, where it gives one. -/
def Obligations.FirstFailureEndsCommand : Prop :=
  ∀ (i : Instr) (s t : State), exec i s = .next t →
    (∀ e ∈ t.trace.dropLast, completed e = true) ∧
      (∀ k, t.status = transportStatus k ↔ t.trace.getLast?.bind failedKind = some k) ∧
      ∀ n e, t.trace[n]? = some e →
        failedKind e = (drawAt s n).fail ∧
          ∀ v w, readResult e = some v → (drawAt s n).value = some w → v = w

/-- R23, R28, R60, R88: what no command changes, which result registers which command may write, one draw for each
event, and `DEVADDR` in every event. -/
def Obligations.CommandFrame : Prop :=
  ∀ (i : Instr) (s t : State), exec i s = .next t →
    t.rm = s.rm ∧ t.devAddr = s.devAddr ∧ t.ops = s.ops ∧ t.host = s.host ∧ t.got = s.got ∧
      t.unwritten = s.unwritten ∧ (i ∉ [.rdd, .rdx] ∨ t.status ≠ 0x0000 → t.rval = s.rval) ∧
      (i ∉ [.ident, .linksup, .isrstdone] → t.rbool = s.rbool) ∧
      (i ∉ [.reset, .isrstdone] → t.rstate = s.rstate) ∧ t.env = s.env.drop t.trace.length ∧
      t.tick = s.tick + t.trace.length ∧ ∀ e ∈ t.trace, eventDevice e = s.devAddr

/-- R88: an operand register that a command does not read makes no difference to it. -/
def Obligations.UnreadOperandsDoNotMatter : Prop :=
  ∀ (i : Instr) (o : Operand) (v : BitVec 32) (s : State), o ∉ operandsRead i →
    ∃ t, exec i s = .next t ∧
      exec i { s with ops := s.ops.set o v } = .next { t with ops := t.ops.set o v }

/-- R58, R88, R193: the host-fault mark after a command is what it was, or set by an operand register the command has
read and the host never wrote: exactly those the command reaches. CONFIGURE reads those of its sub-operations up to and
with the first that does not end OK, never those of a later one, and of all eleven if it ends OK. When WRD and WRX read
`A_VAL` follows the pseudocode of R107 and R111; R28 and the rows of R88 can be read otherwise (log entry 22). (That the
command runs on all the same is the model's choice, log entry 1.) -/
def Obligations.HostFaultMarksUnwrittenOperands : Prop :=
  ∀ (i : Instr) (s : State), ∃ t, exec i s = .next t ∧
    t.hostFault = faultAfter s (operandsReached i s t) ∧
    (t.status = 0x0000 → t.hostFault = faultAfter s (operandsRead i)) ∧
    (operandsWritten i s → t.hostFault = s.hostFault) ∧
    (∀ o, (operandsRead i).head? = some o → o ∈ s.unwritten → t.hostFault = true)

/-! The machine -/

/-- The invariant at reset. -/
def Obligations.InvHoldsAtReset : Prop := Inv State.reset

/-- R30, R32, R77, R151: every step keeps the PHY's register spaces canonical, a result's word in STATUS, and SEQ in
agreement with the bus trace of the command in progress: in CONFIGURE its `k` is the index of the sub-operation the
trace has reached (`subopReached`). Issuing a command keeps the same, so it holds all through a command. -/
def Obligations.StepKeepsInv : Prop :=
  (∀ s t : State, Inv s → step s = .next t → Inv t) ∧ ∀ (i : Instr) (s : State), Inv s → Inv (issue i s)

/-- R31, R85: where the invariant holds the engine never faults, busy or idle; and busy it never refuses. -/
def Obligations.EngineNeverFaults : Prop :=
  ∀ s : State, Inv s → (∀ f, step s ≠ .fault f) ∧ (s.busy = true → ∃ t, step s = .next t)

/-- R30, R61, D32: a step of the busy engine is one transport event: it adds one event to the bus trace, uses one draw,
and leaves SEQ at IDLE or counting one more event of the same command. So a command issued and stepped `n` times has the
first `n` events of the trace of `exec`, is busy before the last of them, at most 57, and with the last is in the state
`exec` answers. (That a host write to `CMD` runs the whole command in one step is the model's choice, log entry 5; this
says that nothing is lost by it. The draws are log entry 4.) -/
def Obligations.OneEventAtATimeIsExec : Prop :=
  (∀ s t : State, s.busy = true → step s = .next t →
    ∃ e, t.trace = s.trace ++ [e] ∧ t.env = s.env.tail ∧ t.tick = s.tick + 1 ∧
      (t.seq = .idle ∨ ∃ op k k' n, s.seq = .running op k n ∧ t.seq = .running op k' (n + 1))) ∧
  ∀ (i : Instr) (s : State), ∃ t, exec i s = .next t ∧ t.trace.length ≤ 57 ∧
    ∀ n ≤ t.trace.length, ∃ u, Sys2Proof.core.run n (issue i s) = .next u ∧ u.trace = t.trace.take n ∧
      (n < t.trace.length → u.busy = true) ∧ (n = t.trace.length → u = t)
end

