-- ==== Sys2Proof/Laws/Memory.lean ====
section
/-! SUPPORT. The laws of a PHY register space and of the PHY: a read after a write gives the value written, a
write leaves every other register alone, a second write to a register hides the first, and every operation
keeps the canonical form. -/

namespace Sys2Proof.Machine

theorem Mem.read_erase_same (m : Mem) (a : Nat) : (m.erase a).read a = Mem.unlisted := by
  induction m with
  | nil => rfl
  | cons p m ih =>
    obtain ⟨b, w⟩ := p
    by_cases h : b = a
    · subst h; simpa [Mem.erase, List.filter_cons] using ih
    · simpa [Mem.erase, List.filter_cons, h, Mem.read] using ih

theorem Mem.read_erase_other (m : Mem) {a b : Nat} (h : b ≠ a) : (m.erase a).read b = m.read b := by
  induction m with
  | nil => rfl
  | cons p m ih =>
    obtain ⟨c, w⟩ := p
    by_cases hc : c = a
    · subst hc
      simpa [Mem.erase, List.filter_cons, Mem.read, h.symm] using ih
    · simp only [Mem.erase, List.filter_cons, hc, ne_eq, not_false_eq_true, decide_true, if_true, Mem.read]
      split
      · rfl
      · exact ih

theorem Mem.read_insert_same (m : Mem) (a : Nat) (v : Word) (h : ∀ p ∈ m, p.1 ≠ a) :
    (m.insert a v).read a = v := by
  induction m with
  | nil => simp [Mem.insert, Mem.read]
  | cons p m ih =>
    obtain ⟨b, w⟩ := p
    simp only [Mem.insert]
    split
    · simp [Mem.read]
    · have hb : b ≠ a := h (b, w) (by simp)
      simp only [Mem.read, hb, if_false]
      exact ih fun p hp => h p (by simp [hp])

theorem Mem.read_insert_other (m : Mem) {a b : Nat} (v : Word) (h : b ≠ a) :
    (m.insert a v).read b = m.read b := by
  induction m with
  | nil => simp [Mem.insert, Mem.read, h.symm]
  | cons p m ih =>
    obtain ⟨c, w⟩ := p
    simp only [Mem.insert]
    split
    · simp [Mem.read, h.symm]
    · simp [Mem.read, ih]

theorem Mem.erase_not_mem (m : Mem) (a : Nat) : ∀ p ∈ m.erase a, p.1 ≠ a := by
  intro p hp
  simpa [Mem.erase] using (List.mem_filter.mp hp).2

/-- A read after a write to the same register gives the value written. -/
theorem Mem.read_write_same (m : Mem) (a : Nat) (v : Word) : (m.write a v).read a = v := by
  unfold Mem.write
  split
  · rename_i h; rw [Mem.read_erase_same, h]
  · exact Mem.read_insert_same _ _ _ (Mem.erase_not_mem m a)

/-- A write leaves every other register alone. -/
theorem Mem.read_write_other (m : Mem) {a b : Nat} (v : Word) (h : b ≠ a) :
    (m.write a v).read b = m.read b := by
  unfold Mem.write
  split
  · exact Mem.read_erase_other m h
  · rw [Mem.read_insert_other _ _ h, Mem.read_erase_other m h]

theorem Mem.erase_of_not_mem (m : Mem) (a : Nat) (h : ∀ p ∈ m, p.1 ≠ a) : m.erase a = m := by
  simpa [Mem.erase, List.filter_eq_self] using h

theorem Mem.erase_insert (m : Mem) (a : Nat) (v : Word) : (m.insert a v).erase a = m.erase a := by
  induction m with
  | nil => simp [Mem.insert, Mem.erase]
  | cons p m ih =>
    obtain ⟨b, w⟩ := p
    simp only [Mem.insert]
    split
    · simp [Mem.erase]
    · simp only [Mem.erase, List.filter_cons] at ih ⊢
      rw [ih]

theorem Mem.erase_write (m : Mem) (a : Nat) (v : Word) : (m.write a v).erase a = m.erase a := by
  unfold Mem.write
  split
  · exact Mem.erase_of_not_mem _ _ (Mem.erase_not_mem m a)
  · rw [Mem.erase_insert]
    exact Mem.erase_of_not_mem _ _ (Mem.erase_not_mem m a)

/-- A second write to a register hides the first. -/
theorem Mem.write_write_same (m : Mem) (a : Nat) (v w : Word) : (m.write a v).write a w = m.write a w := by
  rw [Mem.write, Mem.erase_write, ← Mem.write]

theorem Mem.erase_wf {n : Nat} {m : Mem} (h : m.wf n) (a : Nat) : (m.erase a).wf n :=
  ⟨h.1.filter _, fun p hp => h.2 p (List.mem_filter.mp hp).1⟩

theorem Mem.mem_insert {m : Mem} {a : Nat} {v : Word} {p : Nat × Word} (h : p ∈ m.insert a v) :
    p = (a, v) ∨ p ∈ m := by
  induction m with
  | nil => simpa [Mem.insert] using h
  | cons q m ih =>
    obtain ⟨b, w⟩ := q
    simp only [Mem.insert] at h
    split at h
    · simpa using h
    · rcases List.mem_cons.mp h with rfl | h
      · simp
      · rcases ih h with rfl | h <;> simp [*]

theorem Mem.insert_wf {n : Nat} {m : Mem} (h : m.wf n) {a : Nat} {v : Word} (ha : a < n)
    (hv : v ≠ Mem.unlisted) (hm : ∀ p ∈ m, p.1 ≠ a) : (m.insert a v).wf n := by
  refine ⟨?_, ?_⟩
  · replace h := h.1
    induction m with
    | nil => simp [Mem.insert]
    | cons q m ih =>
      obtain ⟨b, w⟩ := q
      simp only [Mem.insert]
      obtain ⟨hb, hm'⟩ := List.pairwise_cons.mp h
      split
      · rename_i hab
        refine List.pairwise_cons.mpr ⟨fun p hp => ?_, h⟩
        rcases List.mem_cons.mp hp with rfl | hp
        · exact hab
        · exact Nat.lt_trans hab (hb p hp)
      · rename_i hab
        have hba : b ≠ a := hm (b, w) (by simp)
        refine List.pairwise_cons.mpr ⟨fun p hp => ?_, ih (fun p hp => hm p (by simp [hp])) hm'⟩
        rcases Mem.mem_insert hp with rfl | hp
        · show b < a; omega
        · exact hb p hp
  · intro p hp
    rcases Mem.mem_insert hp with rfl | hp
    · exact ⟨ha, hv⟩
    · exact h.2 p hp

/-- A write keeps the canonical form. -/
theorem Mem.write_wf {n : Nat} {m : Mem} (h : m.wf n) {a : Nat} (ha : a < n) (v : Word) :
    (m.write a v).wf n := by
  unfold Mem.write
  split
  · exact Mem.erase_wf h a
  · rename_i hv
    exact Mem.insert_wf (Mem.erase_wf h a) ha hv (Mem.erase_not_mem m a)

/-- The PHY's register spaces are in canonical form. -/
abbrev Phy.wf (p : Phy) : Prop := p.d.wf 32 ∧ p.x.wf 65536

/-- The PHY at reset has the canonical form. -/
theorem Phy.initial_wf : Phy.initial.wf := by decide

theorem Phy.setDirect_wf {p : Phy} (h : p.wf) (a : Direct5) (v : Word) : (p.setDirect a v).wf :=
  ⟨Mem.write_wf h.1 a.isLt v, h.2⟩

theorem Phy.setExt_wf {p : Phy} (h : p.wf) (x : Ext16) (v : Word) : (p.setExt x v).wf :=
  ⟨h.1, Mem.write_wf h.2 x.isLt v⟩

theorem Phy.setReg_wf {p : Phy} (h : p.wf) (l : RegLoc) (v : Word) : (p.setReg l v).wf := by
  cases l with
  | direct a => exact p.setDirect_wf h a v
  | ext x => exact p.setExt_wf h x v

theorem Phy.store_wf (rm : RegMap) {p : Phy} (h : p.wf) (l : RegLoc) (v : Word) : (p.store rm l v).wf :=
  p.setReg_wf h l _

theorem Phy.write_wf (rm : RegMap) {p : Phy} (h : p.wf) (a : Direct5) (v : Word) : (p.write rm a v).wf := by
  unfold Phy.write
  split
  · split
    · exact h
    · exact p.store_wf rm h _ v
    · exact h
  · exact p.setDirect_wf h a v

theorem Phy.move_wf (rm : RegMap) {p : Phy} (h : p.wf) (m : EnvMove) : (p.move rm m).wf := by
  unfold Phy.move
  split
  · cases m with
    | clearReset => exact p.store_wf rm h _ _
    | change l v => exact p.store_wf rm h _ _
    | changeLatch v => exact h
  · exact h

theorem Phy.moves_wf (rm : RegMap) (ms : List EnvMove) {p : Phy} (h : p.wf) :
    (ms.foldl (Phy.move rm) p).wf := by
  induction ms generalizing p with
  | nil => exact h
  | cons m ms ih => exact ih (p.move_wf rm h m)

theorem Phy.direct_setDirect_same (p : Phy) (a : Direct5) (v : Word) : (p.setDirect a v).direct a = v :=
  Mem.read_write_same _ _ _

theorem Phy.direct_setDirect_other (p : Phy) {a b : Direct5} (v : Word) (h : b ≠ a) :
    (p.setDirect a v).direct b = p.direct b :=
  Mem.read_write_other _ _ fun e => h (BitVec.eq_of_toNat_eq e)

@[simp] theorem Phy.ext_setDirect (p : Phy) (a : Direct5) (v : Word) (x : Ext16) :
    (p.setDirect a v).ext x = p.ext x := rfl

@[simp] theorem Phy.xa_setDirect (p : Phy) (a : Direct5) (v : Word) : (p.setDirect a v).xa = p.xa := rfl

@[simp] theorem Phy.lost_setDirect (p : Phy) (a : Direct5) (v : Word) : (p.setDirect a v).lost = p.lost := rfl

theorem Phy.setDirect_setDirect_same (p : Phy) (a : Direct5) (v w : Word) :
    (p.setDirect a v).setDirect a w = p.setDirect a w := by
  simp [Phy.setDirect, Mem.write_write_same]

theorem Phy.ext_setExt_same (p : Phy) (x : Ext16) (v : Word) : (p.setExt x v).ext x = v :=
  Mem.read_write_same _ _ _

theorem Phy.ext_setExt_other (p : Phy) {x y : Ext16} (v : Word) (h : y ≠ x) :
    (p.setExt x v).ext y = p.ext y :=
  Mem.read_write_other _ _ fun e => h (BitVec.eq_of_toNat_eq e)

@[simp] theorem Phy.direct_setExt (p : Phy) (x : Ext16) (v : Word) (a : Direct5) :
    (p.setExt x v).direct a = p.direct a := rfl

@[simp] theorem Phy.lost_setExt (p : Phy) (x : Ext16) (v : Word) : (p.setExt x v).lost = p.lost := rfl

/-! A store as the PHY takes it (R36, R78, R80). -/

theorem Phy.reg_setReg_same (p : Phy) (l : RegLoc) (v : Word) : (p.setReg l v).reg l = v := by
  cases l with
  | direct a => exact p.direct_setDirect_same a v
  | ext x => exact p.ext_setExt_same x v

theorem Phy.reg_setReg_other (p : Phy) {l l' : RegLoc} (v : Word) (h : l' ≠ l) :
    (p.setReg l v).reg l' = p.reg l' := by
  cases l <;> cases l'
  · exact p.direct_setDirect_other v fun e => h (by rw [e])
  · rfl
  · rfl
  · exact p.ext_setExt_other v fun e => h (by rw [e])

@[simp] theorem Phy.store_direct (rm : RegMap) (p : Phy) (a : Direct5) (v : Word) :
    p.store rm (.direct a) v = p.setDirect a v := rfl

/-- Any register but the strap register takes the value stored. -/
theorem Phy.reg_store_same {rm : RegMap} (p : Phy) {l : RegLoc} (v : Word) (h : l ≠ .ext rm.strap) :
    (p.store rm l v).reg l = v := by
  simp [Phy.store, Phy.keepStrap, h, Phy.reg_setReg_same]

/-- The strap register takes the value stored in every bit but the strap bit. -/
theorem Phy.reg_store_strap (rm : RegMap) (p : Phy) (v : Word) :
    (p.store rm (.ext rm.strap) v).reg (.ext rm.strap) =
      (v &&& ~~~rm.fldStrapBit) ||| (p.reg (.ext rm.strap) &&& rm.fldStrapBit) := by
  simp [Phy.store, Phy.keepStrap, Phy.reg_setReg_same]

theorem Phy.reg_store_other (rm : RegMap) (p : Phy) {l l' : RegLoc} (v : Word) (h : l' ≠ l) :
    (p.store rm l v).reg l' = p.reg l' :=
  p.reg_setReg_other _ h

/-- A store agrees with the value outside the strap register's bit, whatever the register. -/
theorem Phy.reg_store_keeps {rm : RegMap} (p : Phy) (l : RegLoc) (v : Word)
    (h : l = .ext rm.strap → v &&& rm.fldStrapBit = p.reg l &&& rm.fldStrapBit) :
    (p.store rm l v).reg l = v := by
  by_cases hl : l = .ext rm.strap
  · subst hl
    rw [Phy.reg_store_strap, ← h rfl]
    ext i hi
    simp only [BitVec.getElem_and, BitVec.getElem_or, BitVec.getElem_not]
    cases rm.fldStrapBit[i] <;> simp
  · exact p.reg_store_same v hl

/-- No store changes the strap bit (R36, R80 (d)). -/
theorem Phy.strap_store (rm : RegMap) (p : Phy) (l : RegLoc) (v : Word) :
    (p.store rm l v).ext rm.strap &&& rm.fldStrapBit = p.ext rm.strap &&& rm.fldStrapBit := by
  by_cases h : l = .ext rm.strap
  · subst h
    have := Phy.reg_store_strap rm p v
    simp only [Phy.reg] at this
    rw [this]
    ext i hi
    simp only [BitVec.getElem_and, BitVec.getElem_or, BitVec.getElem_not]
    cases rm.fldStrapBit[i] <;> simp
  · exact congrArg (· &&& rm.fldStrapBit) (p.reg_store_other rm v (l' := .ext rm.strap) fun e => h e.symm)

@[simp] theorem Phy.xa_store (rm : RegMap) (p : Phy) (l : RegLoc) (v : Word) : (p.store rm l v).xa = p.xa := by
  cases l <;> rfl

@[simp] theorem Phy.lost_store (rm : RegMap) (p : Phy) (l : RegLoc) (v : Word) :
    (p.store rm l v).lost = p.lost := by
  cases l <;> rfl

end Sys2Proof.Machine
end

