-- ==== Sys2Proof/Laws/State.lean ====
section
/-! SUPPORT. One lemma per field of State per update of it, true by `rfl`, so that no later proof unfolds a
record update. -/

namespace Sys2Proof.Machine

variable (s : State)

/-! `State.takeDraw` -/

@[simp] theorem State.takeDraw_rm : s.takeDraw.rm = s.rm := rfl
@[simp] theorem State.takeDraw_devAddr : s.takeDraw.devAddr = s.devAddr := rfl
@[simp] theorem State.takeDraw_ops : s.takeDraw.ops = s.ops := rfl
@[simp] theorem State.takeDraw_status : s.takeDraw.status = s.status := rfl
@[simp] theorem State.takeDraw_rval : s.takeDraw.rval = s.rval := rfl
@[simp] theorem State.takeDraw_rbool : s.takeDraw.rbool = s.rbool := rfl
@[simp] theorem State.takeDraw_rstate : s.takeDraw.rstate = s.rstate := rfl
@[simp] theorem State.takeDraw_seq : s.takeDraw.seq = s.seq := rfl
@[simp] theorem State.takeDraw_trace : s.takeDraw.trace = s.trace := rfl
@[simp] theorem State.takeDraw_phy : s.takeDraw.phy = s.draw.moves.foldl (Phy.move s.rm) s.phy := rfl
@[simp] theorem State.takeDraw_env : s.takeDraw.env = s.env.tail := rfl
@[simp] theorem State.takeDraw_tick : s.takeDraw.tick = s.tick + 1 := rfl
@[simp] theorem State.takeDraw_host : s.takeDraw.host = s.host := rfl
@[simp] theorem State.takeDraw_got : s.takeDraw.got = s.got := rfl
@[simp] theorem State.takeDraw_unwritten : s.takeDraw.unwritten = s.unwritten := rfl
@[simp] theorem State.takeDraw_hostFault : s.takeDraw.hostFault = s.hostFault := rfl

/-! `State.record` -/

@[simp] theorem State.record_rm (e : BusEvent) : (s.record e).rm = s.rm := rfl
@[simp] theorem State.record_devAddr (e : BusEvent) : (s.record e).devAddr = s.devAddr := rfl
@[simp] theorem State.record_ops (e : BusEvent) : (s.record e).ops = s.ops := rfl
@[simp] theorem State.record_status (e : BusEvent) : (s.record e).status = s.status := rfl
@[simp] theorem State.record_rval (e : BusEvent) : (s.record e).rval = s.rval := rfl
@[simp] theorem State.record_rbool (e : BusEvent) : (s.record e).rbool = s.rbool := rfl
@[simp] theorem State.record_rstate (e : BusEvent) : (s.record e).rstate = s.rstate := rfl
@[simp] theorem State.record_seq (e : BusEvent) : (s.record e).seq = s.seq := rfl
@[simp] theorem State.record_trace (e : BusEvent) : (s.record e).trace = s.trace ++ [e] := rfl
@[simp] theorem State.record_phy (e : BusEvent) : (s.record e).phy = s.phy := rfl
@[simp] theorem State.record_env (e : BusEvent) : (s.record e).env = s.env := rfl
@[simp] theorem State.record_tick (e : BusEvent) : (s.record e).tick = s.tick := rfl
@[simp] theorem State.record_host (e : BusEvent) : (s.record e).host = s.host := rfl
@[simp] theorem State.record_got (e : BusEvent) : (s.record e).got = s.got := rfl
@[simp] theorem State.record_unwritten (e : BusEvent) : (s.record e).unwritten = s.unwritten := rfl
@[simp] theorem State.record_hostFault (e : BusEvent) : (s.record e).hostFault = s.hostFault := rfl

/-! `State.countEvent` -/

@[simp] theorem State.countEvent_rm : s.countEvent.rm = s.rm := rfl
@[simp] theorem State.countEvent_devAddr : s.countEvent.devAddr = s.devAddr := rfl
@[simp] theorem State.countEvent_ops : s.countEvent.ops = s.ops := rfl
@[simp] theorem State.countEvent_status : s.countEvent.status = s.status := rfl
@[simp] theorem State.countEvent_rval : s.countEvent.rval = s.rval := rfl
@[simp] theorem State.countEvent_rbool : s.countEvent.rbool = s.rbool := rfl
@[simp] theorem State.countEvent_rstate : s.countEvent.rstate = s.rstate := rfl
@[simp] theorem State.countEvent_seq : s.countEvent.seq = s.seq.count := rfl
@[simp] theorem State.countEvent_trace : s.countEvent.trace = s.trace := rfl
@[simp] theorem State.countEvent_phy : s.countEvent.phy = s.phy := rfl
@[simp] theorem State.countEvent_env : s.countEvent.env = s.env := rfl
@[simp] theorem State.countEvent_tick : s.countEvent.tick = s.tick := rfl
@[simp] theorem State.countEvent_host : s.countEvent.host = s.host := rfl
@[simp] theorem State.countEvent_got : s.countEvent.got = s.got := rfl
@[simp] theorem State.countEvent_unwritten : s.countEvent.unwritten = s.unwritten := rfl
@[simp] theorem State.countEvent_hostFault : s.countEvent.hostFault = s.hostFault := rfl

/-! `State.writeEffect` -/

@[simp] theorem State.writeEffect_rm (a : Direct5) (v : Word) : (s.writeEffect a v).rm = s.rm := rfl
@[simp] theorem State.writeEffect_devAddr (a : Direct5) (v : Word) :
    (s.writeEffect a v).devAddr = s.devAddr := rfl
@[simp] theorem State.writeEffect_ops (a : Direct5) (v : Word) : (s.writeEffect a v).ops = s.ops := rfl
@[simp] theorem State.writeEffect_status (a : Direct5) (v : Word) :
    (s.writeEffect a v).status = s.status := rfl
@[simp] theorem State.writeEffect_rval (a : Direct5) (v : Word) : (s.writeEffect a v).rval = s.rval := rfl
@[simp] theorem State.writeEffect_rbool (a : Direct5) (v : Word) : (s.writeEffect a v).rbool = s.rbool := rfl
@[simp] theorem State.writeEffect_rstate (a : Direct5) (v : Word) :
    (s.writeEffect a v).rstate = s.rstate := rfl
@[simp] theorem State.writeEffect_seq (a : Direct5) (v : Word) : (s.writeEffect a v).seq = s.seq := rfl
@[simp] theorem State.writeEffect_trace (a : Direct5) (v : Word) : (s.writeEffect a v).trace = s.trace := rfl
@[simp] theorem State.writeEffect_phy (a : Direct5) (v : Word) :
    (s.writeEffect a v).phy = s.phy.write s.rm a v := rfl
@[simp] theorem State.writeEffect_env (a : Direct5) (v : Word) : (s.writeEffect a v).env = s.env := rfl
@[simp] theorem State.writeEffect_tick (a : Direct5) (v : Word) : (s.writeEffect a v).tick = s.tick := rfl
@[simp] theorem State.writeEffect_host (a : Direct5) (v : Word) : (s.writeEffect a v).host = s.host := rfl
@[simp] theorem State.writeEffect_got (a : Direct5) (v : Word) : (s.writeEffect a v).got = s.got := rfl
@[simp] theorem State.writeEffect_unwritten (a : Direct5) (v : Word) :
    (s.writeEffect a v).unwritten = s.unwritten := rfl
@[simp] theorem State.writeEffect_hostFault (a : Direct5) (v : Word) :
    (s.writeEffect a v).hostFault = s.hostFault := rfl

/-! `State.finish` -/

@[simp] theorem State.finish_rm (e : Ending) : (s.finish e).rm = s.rm := rfl
@[simp] theorem State.finish_devAddr (e : Ending) : (s.finish e).devAddr = s.devAddr := rfl
@[simp] theorem State.finish_ops (e : Ending) : (s.finish e).ops = s.ops := rfl
@[simp] theorem State.finish_status (e : Ending) : (s.finish e).status = e.result.word := rfl
@[simp] theorem State.finish_rval (e : Ending) : (s.finish e).rval = e.rval.getD s.rval := rfl
@[simp] theorem State.finish_rbool (e : Ending) : (s.finish e).rbool = e.rbool.getD s.rbool := rfl
@[simp] theorem State.finish_rstate (e : Ending) : (s.finish e).rstate = e.rstate.getD s.rstate := rfl
@[simp] theorem State.finish_seq (e : Ending) : (s.finish e).seq = .idle := rfl
@[simp] theorem State.finish_trace (e : Ending) : (s.finish e).trace = s.trace := rfl
@[simp] theorem State.finish_phy (e : Ending) : (s.finish e).phy = s.phy := rfl
@[simp] theorem State.finish_env (e : Ending) : (s.finish e).env = s.env := rfl
@[simp] theorem State.finish_tick (e : Ending) : (s.finish e).tick = s.tick := rfl
@[simp] theorem State.finish_host (e : Ending) : (s.finish e).host = s.host := rfl
@[simp] theorem State.finish_got (e : Ending) : (s.finish e).got = s.got := rfl
@[simp] theorem State.finish_unwritten (e : Ending) : (s.finish e).unwritten = s.unwritten := rfl
@[simp] theorem State.finish_hostFault (e : Ending) : (s.finish e).hostFault = s.hostFault := rfl

/-! `State.start` -/

@[simp] theorem State.start_rm (op : Opcode) : (s.start op).rm = s.rm := rfl
@[simp] theorem State.start_devAddr (op : Opcode) : (s.start op).devAddr = s.devAddr := rfl
@[simp] theorem State.start_ops (op : Opcode) : (s.start op).ops = s.ops := rfl
@[simp] theorem State.start_status (op : Opcode) : (s.start op).status = s.status := rfl
@[simp] theorem State.start_rval (op : Opcode) : (s.start op).rval = s.rval := rfl
@[simp] theorem State.start_rbool (op : Opcode) : (s.start op).rbool = s.rbool := rfl
@[simp] theorem State.start_rstate (op : Opcode) : (s.start op).rstate = s.rstate := rfl
@[simp] theorem State.start_seq (op : Opcode) : (s.start op).seq = .running op 0 0 := rfl
@[simp] theorem State.start_trace (op : Opcode) : (s.start op).trace = [] := rfl
@[simp] theorem State.start_phy (op : Opcode) : (s.start op).phy = s.phy := rfl
@[simp] theorem State.start_env (op : Opcode) : (s.start op).env = s.env := rfl
@[simp] theorem State.start_tick (op : Opcode) : (s.start op).tick = s.tick := rfl
@[simp] theorem State.start_host (op : Opcode) : (s.start op).host = s.host := rfl
@[simp] theorem State.start_got (op : Opcode) : (s.start op).got = s.got := rfl
@[simp] theorem State.start_unwritten (op : Opcode) : (s.start op).unwritten = s.unwritten := rfl
@[simp] theorem State.start_hostFault (op : Opcode) : (s.start op).hostFault = s.hostFault := rfl

/-! `State.useOperand` -/

@[simp] theorem State.useOperand_rm (o : Operand) : (s.useOperand o).rm = s.rm := rfl
@[simp] theorem State.useOperand_devAddr (o : Operand) : (s.useOperand o).devAddr = s.devAddr := rfl
@[simp] theorem State.useOperand_ops (o : Operand) : (s.useOperand o).ops = s.ops := rfl
@[simp] theorem State.useOperand_status (o : Operand) : (s.useOperand o).status = s.status := rfl
@[simp] theorem State.useOperand_rval (o : Operand) : (s.useOperand o).rval = s.rval := rfl
@[simp] theorem State.useOperand_rbool (o : Operand) : (s.useOperand o).rbool = s.rbool := rfl
@[simp] theorem State.useOperand_rstate (o : Operand) : (s.useOperand o).rstate = s.rstate := rfl
@[simp] theorem State.useOperand_seq (o : Operand) : (s.useOperand o).seq = s.seq := rfl
@[simp] theorem State.useOperand_trace (o : Operand) : (s.useOperand o).trace = s.trace := rfl
@[simp] theorem State.useOperand_phy (o : Operand) : (s.useOperand o).phy = s.phy := rfl
@[simp] theorem State.useOperand_env (o : Operand) : (s.useOperand o).env = s.env := rfl
@[simp] theorem State.useOperand_tick (o : Operand) : (s.useOperand o).tick = s.tick := rfl
@[simp] theorem State.useOperand_host (o : Operand) : (s.useOperand o).host = s.host := rfl
@[simp] theorem State.useOperand_got (o : Operand) : (s.useOperand o).got = s.got := rfl
@[simp] theorem State.useOperand_unwritten (o : Operand) : (s.useOperand o).unwritten = s.unwritten := rfl
@[simp] theorem State.useOperand_hostFault (o : Operand) :
    (s.useOperand o).hostFault = (s.hostFault || s.unwritten.contains o) := rfl

/-! `State.enterSub` -/

@[simp] theorem State.enterSub_rm (k : Nat) : (s.enterSub k).rm = s.rm := rfl
@[simp] theorem State.enterSub_devAddr (k : Nat) : (s.enterSub k).devAddr = s.devAddr := rfl
@[simp] theorem State.enterSub_ops (k : Nat) : (s.enterSub k).ops = s.ops := rfl
@[simp] theorem State.enterSub_status (k : Nat) : (s.enterSub k).status = s.status := rfl
@[simp] theorem State.enterSub_rval (k : Nat) : (s.enterSub k).rval = s.rval := rfl
@[simp] theorem State.enterSub_rbool (k : Nat) : (s.enterSub k).rbool = s.rbool := rfl
@[simp] theorem State.enterSub_rstate (k : Nat) : (s.enterSub k).rstate = s.rstate := rfl
@[simp] theorem State.enterSub_seq (k : Nat) : (s.enterSub k).seq = s.seq.enter k := rfl
@[simp] theorem State.enterSub_trace (k : Nat) : (s.enterSub k).trace = s.trace := rfl
@[simp] theorem State.enterSub_phy (k : Nat) : (s.enterSub k).phy = s.phy := rfl
@[simp] theorem State.enterSub_env (k : Nat) : (s.enterSub k).env = s.env := rfl
@[simp] theorem State.enterSub_tick (k : Nat) : (s.enterSub k).tick = s.tick := rfl
@[simp] theorem State.enterSub_host (k : Nat) : (s.enterSub k).host = s.host := rfl
@[simp] theorem State.enterSub_got (k : Nat) : (s.enterSub k).got = s.got := rfl
@[simp] theorem State.enterSub_unwritten (k : Nat) : (s.enterSub k).unwritten = s.unwritten := rfl
@[simp] theorem State.enterSub_hostFault (k : Nat) : (s.enterSub k).hostFault = s.hostFault := rfl

/-! `State.setOperand` -/

@[simp] theorem State.setOperand_rm (o : Operand) (v : BitVec 32) : (s.setOperand o v).rm = s.rm := rfl
@[simp] theorem State.setOperand_devAddr (o : Operand) (v : BitVec 32) :
    (s.setOperand o v).devAddr = s.devAddr := rfl
@[simp] theorem State.setOperand_ops (o : Operand) (v : BitVec 32) :
    (s.setOperand o v).ops = s.ops.set o v := rfl
@[simp] theorem State.setOperand_status (o : Operand) (v : BitVec 32) :
    (s.setOperand o v).status = s.status := rfl
@[simp] theorem State.setOperand_rval (o : Operand) (v : BitVec 32) : (s.setOperand o v).rval = s.rval := rfl
@[simp] theorem State.setOperand_rbool (o : Operand) (v : BitVec 32) :
    (s.setOperand o v).rbool = s.rbool := rfl
@[simp] theorem State.setOperand_rstate (o : Operand) (v : BitVec 32) :
    (s.setOperand o v).rstate = s.rstate := rfl
@[simp] theorem State.setOperand_seq (o : Operand) (v : BitVec 32) : (s.setOperand o v).seq = s.seq := rfl
@[simp] theorem State.setOperand_trace (o : Operand) (v : BitVec 32) :
    (s.setOperand o v).trace = s.trace := rfl
@[simp] theorem State.setOperand_phy (o : Operand) (v : BitVec 32) : (s.setOperand o v).phy = s.phy := rfl
@[simp] theorem State.setOperand_env (o : Operand) (v : BitVec 32) : (s.setOperand o v).env = s.env := rfl
@[simp] theorem State.setOperand_tick (o : Operand) (v : BitVec 32) : (s.setOperand o v).tick = s.tick := rfl
@[simp] theorem State.setOperand_host (o : Operand) (v : BitVec 32) : (s.setOperand o v).host = s.host := rfl
@[simp] theorem State.setOperand_got (o : Operand) (v : BitVec 32) : (s.setOperand o v).got = s.got := rfl
@[simp] theorem State.setOperand_unwritten (o : Operand) (v : BitVec 32) :
    (s.setOperand o v).unwritten = s.unwritten.filter (· ≠ o) := rfl
@[simp] theorem State.setOperand_hostFault (o : Operand) (v : BitVec 32) :
    (s.setOperand o v).hostFault = s.hostFault := rfl

/-! `State.illegalCommand` -/

@[simp] theorem State.illegalCommand_rm : s.illegalCommand.rm = s.rm := rfl
@[simp] theorem State.illegalCommand_devAddr : s.illegalCommand.devAddr = s.devAddr := rfl
@[simp] theorem State.illegalCommand_ops : s.illegalCommand.ops = s.ops := rfl
@[simp] theorem State.illegalCommand_status : s.illegalCommand.status = Result.illegalCommand.word := rfl
@[simp] theorem State.illegalCommand_rval : s.illegalCommand.rval = s.rval := rfl
@[simp] theorem State.illegalCommand_rbool : s.illegalCommand.rbool = s.rbool := rfl
@[simp] theorem State.illegalCommand_rstate : s.illegalCommand.rstate = s.rstate := rfl
@[simp] theorem State.illegalCommand_seq : s.illegalCommand.seq = .idle := rfl
@[simp] theorem State.illegalCommand_trace : s.illegalCommand.trace = [] := rfl
@[simp] theorem State.illegalCommand_phy : s.illegalCommand.phy = s.phy := rfl
@[simp] theorem State.illegalCommand_env : s.illegalCommand.env = s.env := rfl
@[simp] theorem State.illegalCommand_tick : s.illegalCommand.tick = s.tick := rfl
@[simp] theorem State.illegalCommand_host : s.illegalCommand.host = s.host := rfl
@[simp] theorem State.illegalCommand_got : s.illegalCommand.got = s.got := rfl
@[simp] theorem State.illegalCommand_unwritten : s.illegalCommand.unwritten = s.unwritten := rfl
@[simp] theorem State.illegalCommand_hostFault : s.illegalCommand.hostFault = s.hostFault := rfl

/-! `State.engineReset` -/

@[simp] theorem State.engineReset_rm : s.engineReset.rm = s.rm := rfl
@[simp] theorem State.engineReset_devAddr : s.engineReset.devAddr = s.devAddr := rfl
@[simp] theorem State.engineReset_ops : s.engineReset.ops = Operands.reset := rfl
@[simp] theorem State.engineReset_status : s.engineReset.status = 0 := rfl
@[simp] theorem State.engineReset_rval : s.engineReset.rval = 0 := rfl
@[simp] theorem State.engineReset_rbool : s.engineReset.rbool = 0 := rfl
@[simp] theorem State.engineReset_rstate : s.engineReset.rstate = .idle := rfl
@[simp] theorem State.engineReset_seq : s.engineReset.seq = .idle := rfl
@[simp] theorem State.engineReset_trace : s.engineReset.trace = [] := rfl
@[simp] theorem State.engineReset_phy : s.engineReset.phy = s.phy := rfl
@[simp] theorem State.engineReset_env : s.engineReset.env = s.env := rfl
@[simp] theorem State.engineReset_tick : s.engineReset.tick = s.tick := rfl
@[simp] theorem State.engineReset_host : s.engineReset.host = s.host := rfl
@[simp] theorem State.engineReset_got : s.engineReset.got = s.got := rfl
@[simp] theorem State.engineReset_unwritten : s.engineReset.unwritten = Operand.all := rfl
@[simp] theorem State.engineReset_hostFault : s.engineReset.hostFault = false := rfl

end Sys2Proof.Machine
end

