-- ==== Sys2Proof/Laws/Transport.lean ====
section
/-! SUPPORT. What one transport event can do (20_memory.md R60, R61, R76): to everything but the PHY, the draws,
the bus trace and SEQ, nothing; and its exact result when the draw is known. -/

namespace Sys2Proof.Machine

open Sys2Proof.Safety

/-- A read event's effect on the PHY touches only its `lost` mark. -/
theorem State.readEffect_eq (s : State) (a : Direct5) :
    ∃ b, s.readEffect a = { s with phy := { s.phy with lost := b } } := by
  unfold State.readEffect
  split
  · exact ⟨true, rfl⟩
  · exact ⟨s.phy.lost, rfl⟩

/-- What every transport event leaves alone. -/
structure SameEngine (s t : State) : Prop where
  rm : t.rm = s.rm
  devAddr : t.devAddr = s.devAddr
  ops : t.ops = s.ops
  host : t.host = s.host
  got : t.got = s.got
  unwritten : t.unwritten = s.unwritten

/-- The registers an event does not write: STATUS, RVAL, RBOOL, RSTATE and the host-fault mark. -/
structure SameResults (s t : State) : Prop where
  status : t.status = s.status
  rval : t.rval = s.rval
  rbool : t.rbool = s.rbool
  rstate : t.rstate = s.rstate
  hostFault : t.hostFault = s.hostFault

theorem SameEngine.refl (s : State) : SameEngine s s := ⟨rfl, rfl, rfl, rfl, rfl, rfl⟩

theorem SameEngine.trans {s t u : State} (h : SameEngine s t) (k : SameEngine t u) : SameEngine s u :=
  ⟨k.rm.trans h.rm, k.devAddr.trans h.devAddr, k.ops.trans h.ops, k.host.trans h.host, k.got.trans h.got,
    k.unwritten.trans h.unwritten⟩

/-- Everything a read event can do: one event joins the bus trace, one draw is used up, and SEQ counts the event
exactly if it completed. -/
theorem transportRead_cases (a : Direct5) (s : State) :
    (∃ k t, transportRead a s = (.error k, t) ∧ s.draw.fail = some k ∧
      t.trace = s.trace ++ [.readFailed s.devAddr a k] ∧ t.seq = s.seq ∧
      (∃ b, t.phy = { s.takeDraw.phy with lost := b }) ∧ t.env = s.env.tail ∧ t.tick = s.tick + 1 ∧ SameEngine s t ∧ SameResults s t) ∨
    (∃ v t, transportRead a s = (.ok v, t) ∧ s.draw.fail = none ∧
      v = s.takeDraw.readValue s.draw s.tick a ∧
      t.trace = s.trace ++ [.read s.devAddr a v] ∧ t.seq = s.seq.count ∧
      (∃ b, t.phy = { s.takeDraw.phy with lost := b }) ∧ t.env = s.env.tail ∧ t.tick = s.tick + 1 ∧
      SameEngine s t ∧ SameResults s t) := by
  unfold transportRead
  cases h : s.draw.fail with
  | some k =>
    obtain ⟨b, hb⟩ := s.takeDraw.readEffect_eq a
    refine .inl ⟨k, _, rfl, rfl, ?_⟩
    cases s.draw.lands
    · exact ⟨rfl, rfl, ⟨_, rfl⟩, rfl, rfl, ⟨rfl, rfl, rfl, rfl, rfl, rfl⟩, ⟨rfl, rfl, rfl, rfl, rfl⟩⟩
    · rw [hb]
      exact ⟨rfl, rfl, ⟨b, rfl⟩, rfl, rfl, ⟨rfl, rfl, rfl, rfl, rfl, rfl⟩, ⟨rfl, rfl, rfl, rfl, rfl⟩⟩
  | none =>
    obtain ⟨b, hb⟩ := s.takeDraw.readEffect_eq a
    refine .inr ⟨_, _, rfl, rfl, rfl, ?_⟩
    rw [hb]
    exact ⟨rfl, rfl, ⟨b, rfl⟩, rfl, rfl, ⟨rfl, rfl, rfl, rfl, rfl, rfl⟩, ⟨rfl, rfl, rfl, rfl, rfl⟩⟩

/-- Everything a write event can do. -/
theorem transportWrite_cases (a : Direct5) (v : Word) (s : State) :
    (∃ k t, transportWrite a v s = (.error k, t) ∧ s.draw.fail = some k ∧
      t.trace = s.trace ++ [.writeFailed s.devAddr a v k] ∧ t.seq = s.seq ∧
      t.phy = (if s.draw.lands then s.takeDraw.phy.write s.rm a v else s.takeDraw.phy) ∧
      t.env = s.env.tail ∧ t.tick = s.tick + 1 ∧ SameEngine s t ∧ SameResults s t) ∨
    (∃ t, transportWrite a v s = (.ok (), t) ∧ s.draw.fail = none ∧
      t.trace = s.trace ++ [.write s.devAddr a v] ∧ t.seq = s.seq.count ∧
      t.phy = s.takeDraw.phy.write s.rm a v ∧ t.env = s.env.tail ∧ t.tick = s.tick + 1 ∧
      SameEngine s t ∧ SameResults s t) := by
  unfold transportWrite
  cases h : s.draw.fail with
  | some k =>
    refine .inl ⟨k, _, rfl, rfl, ?_⟩
    cases s.draw.lands <;>
      exact ⟨rfl, rfl, rfl, rfl, rfl, ⟨rfl, rfl, rfl, rfl, rfl, rfl⟩, ⟨rfl, rfl, rfl, rfl, rfl⟩⟩
  | none =>
    exact .inr ⟨_, rfl, rfl, rfl, rfl, rfl, rfl, rfl, ⟨rfl, rfl, rfl, rfl, rfl, rfl⟩, ⟨rfl, rfl, rfl, rfl, rfl⟩⟩

/-- A read event whose draw is quiet, where ENV_REF knows the value. -/
theorem transportRead_quiet (a : Direct5) (v : Word) (s : State) (rest : List Draw)
    (he : s.env = quiet :: rest) (hl : s.phy.lost = false) (hv : s.phy.read s.rm a = some v) :
    transportRead a s =
      (.ok v, { s with env := rest, tick := s.tick + 1, trace := s.trace ++ [.read s.devAddr a v],
                       seq := s.seq.count }) := by
  have hd : s.draw = quiet := by simp [State.draw, he]
  have ht : s.takeDraw = { s with env := rest, tick := s.tick + 1 } := by
    simp [State.takeDraw, hd, he, quiet]
  simp [transportRead, hd, ht, quiet, State.readValue, hl, hv, State.readEffect, State.record,
    State.countEvent]

/-- A write event whose draw is quiet. -/
theorem transportWrite_quiet (a : Direct5) (v : Word) (s : State) (rest : List Draw)
    (he : s.env = quiet :: rest) :
    transportWrite a v s =
      (.ok (), { s with phy := s.phy.write s.rm a v, env := rest, tick := s.tick + 1,
                        trace := s.trace ++ [.write s.devAddr a v], seq := s.seq.count }) := by
  have hd : s.draw = quiet := by simp [State.draw, he]
  have ht : s.takeDraw = { s with env := rest, tick := s.tick + 1 } := by
    simp [State.takeDraw, hd, he, quiet]
  simp [transportWrite, hd, ht, quiet, State.record, State.countEvent, State.writeEffect]

end Sys2Proof.Machine
end

