-- ==== Sys2Proof/Laws/Run.lean ====
section
/-! SUPPORT. What a run of a wired sequence can do: an induction principle for properties every part of a run
keeps, what no run changes, how runs compose (43_configure.md R151) and how one event at a time adds up to a
run (10_state.md R30). -/

namespace Sys2Proof.Machine

open Sys2Proof.Safety

/-- A property of states that every part of a run keeps. -/
structure RunClosed (P : State → Prop) : Prop where
  use : ∀ s o, P s → P (s.useOperand o)
  sub : ∀ s k, P s → P (s.enterSub k)
  read : ∀ s a, P s → P (transportRead a s).2
  write : ∀ s a v, P s → P (transportWrite a v s).2
  fin : ∀ s e, P s → P (s.finish e)

/-- A property that every part of a run keeps holds after the run. -/
theorem run_keeps {P : State → Prop} (h : RunClosed P) (b : Option (BitVec 1)) (p : Act) (s : State)
    (hs : P s) : P (run b p s) := by
  induction p generalizing s with
  | fin e => exact h.fin s e hs
  | use o p ih => exact ih _ (h.use s o hs)
  | sub k p ih => exact ih _ (h.sub s k hs)
  | tr a f ih =>
    have hr := h.read s a hs
    unfold run
    cases e : transportRead a s with
    | mk r t =>
      rw [e] at hr
      cases r with
      | ok v => exact ih v t hr
      | error k => exact h.fin t _ hr
  | tw a v p ih =>
    have hw := h.write s a v hs
    unfold run
    cases e : transportWrite a v s with
    | mk r t =>
      rw [e] at hw
      cases r with
      | ok _ => exact ih t hw
      | error k => exact h.fin t _ hw

/-- A property that every part of a run keeps holds after the engine's own work between two events. -/
theorem advance_keeps {P : State → Prop} (h : RunClosed P) (p : Act) (s : State) (hs : P s) :
    P (advance p s) := by
  induction p generalizing s with
  | fin e => exact h.fin s e hs
  | use o p ih => exact ih _ (h.use s o hs)
  | sub k p ih => exact ih _ (h.sub s k hs)
  | tr a f ih => exact hs
  | tw a v p ih => exact hs

theorem sameEngine_closed (s : State) : RunClosed (SameEngine s) where
  use t o h := ⟨h.rm, h.devAddr, h.ops, h.host, h.got, h.unwritten⟩
  sub t k h := ⟨h.rm, h.devAddr, h.ops, h.host, h.got, h.unwritten⟩
  fin t e h := ⟨h.rm, h.devAddr, h.ops, h.host, h.got, h.unwritten⟩
  read t a h := by
    rcases transportRead_cases a t with ⟨k, u, e, _, _, _, _, _, _, hu, _⟩ | ⟨v, u, e, _, _, _, _, _, _, _, hu, _⟩ <;>
      rw [e] <;> exact h.trans hu
  write t a v h := by
    rcases transportWrite_cases a v t with ⟨k, u, e, _, _, _, _, _, _, hu, _⟩ | ⟨u, e, _, _, _, _, _, _, hu, _⟩ <;>
      rw [e] <;> exact h.trans hu

/-- No run changes the parameters, the operand registers or what belongs to the host (R28, R31). -/
theorem run_sameEngine (b : Option (BitVec 1)) (p : Act) (s : State) : SameEngine s (run b p s) :=
  run_keeps (sameEngine_closed s) b p s (.refl s)

theorem phyWf_closed : RunClosed fun s => s.phy.wf where
  use _ _ h := h
  sub _ _ h := h
  fin _ _ h := h
  read t a h := by
    have hm := Phy.moves_wf t.rm t.draw.moves h
    rcases transportRead_cases a t with
      ⟨k, u, e, _, _, _, ⟨b, hp⟩, _⟩ | ⟨v, u, e, _, _, _, _, ⟨b, hp⟩, _⟩ <;> rw [e] <;> simp only [hp] <;> exact hm
  write t a v h := by
    have hm := Phy.moves_wf t.rm t.draw.moves h
    rcases transportWrite_cases a v t with ⟨k, u, e, _, _, _, hp, _⟩ | ⟨u, e, _, _, _, hp, _⟩ <;> rw [e] <;>
      simp only [hp]
    · split
      · exact Phy.write_wf t.rm hm a v
      · exact hm
    · exact Phy.write_wf t.rm hm a v

/-- A run ends with SEQ at IDLE (R30). -/
theorem run_seq (b : Option (BitVec 1)) (p : Act) (s : State) : (run b p s).seq = .idle := by
  induction p generalizing s with
  | fin e => rfl
  | use o p ih => exact ih _
  | sub k p ih => exact ih _
  | tr a f ih =>
    unfold run
    split
    · exact ih _ _
    · rfl
  | tw a v p ih =>
    unfold run
    split
    · exact ih _
    · rfl

/-- A run ends with a result's word in STATUS (R166). -/
theorem run_status (b : Option (BitVec 1)) (p : Act) (s : State) : ∃ r : Result, (run b p s).status = r.word := by
  induction p generalizing s with
  | fin e => exact ⟨_, rfl⟩
  | use o p ih => exact ih _
  | sub k p ih => exact ih _
  | tr a f ih =>
    unfold run
    split
    · exact ih _ _
    · exact ⟨.transportFailure _, rfl⟩
  | tw a v p ih =>
    unfold run
    split
    · exact ih _
    · exact ⟨.transportFailure _, rfl⟩

@[simp] theorem run_fin (b : Option (BitVec 1)) (e : Ending) (s : State) : run b (.fin e) s = s.finish e := rfl

@[simp] theorem run_use (b : Option (BitVec 1)) (o : Operand) (p : Act) (s : State) :
    run b (.use o p) s = run b p (s.useOperand o) := rfl

@[simp] theorem run_sub (b : Option (BitVec 1)) (k : Nat) (p : Act) (s : State) :
    run b (.sub k p) s = run b p (s.enterSub k) := rfl

/-- Reading several operand registers only touches the host-fault mark. -/
theorem run_useAll (b : Option (BitVec 1)) (os : List Operand) (p : Act) (s : State) :
    run b (useAll os p) s = run b p { s with hostFault := faultAfter s os } := by
  induction os generalizing s with
  | nil => simp [useAll, faultAfter]
  | cons o os ih =>
    show run b (useAll os p) (s.useOperand o) = _
    rw [ih]
    simp [faultAfter, State.useOperand, Bool.or_assoc]

/-- What is left after one more event. -/
theorem Act.after_append (dev : Nat) (p : Act) (t : List BusEvent) (e : BusEvent) {q : Act}
    (h : p.after dev t = some q) : p.after dev (t ++ [e]) = q.pending.after dev [e] := by
  induction p generalizing t with
  | fin x =>
    simp only [Act.after] at h
    split at h
    · cases h; subst t; simp [Act.pending, Act.after]
    · cases h
  | use o p ih =>
    by_cases ht : t = []
    · subst ht
      simp only [Act.after, if_true] at h
      cases h
      have : ∀ p : Act, p.after dev [e] = p.pending.after dev [e] := by
        intro p
        induction p with
        | fin x => rfl
        | use o p ih => simpa [Act.after, Act.pending] using ih
        | sub k p ih => simpa [Act.after, Act.pending] using ih
        | tr a f => rfl
        | tw a v p => rfl
      simpa [Act.after, Act.pending] using this p
    · have hne : t ++ [e] ≠ [] := by simp
      simp only [Act.after, ht, hne, if_false] at h ⊢
      exact ih t h
  | sub k p ih =>
    by_cases ht : t = []
    · subst ht
      simp only [Act.after, if_true] at h
      cases h
      have : ∀ p : Act, p.after dev [e] = p.pending.after dev [e] := by
        intro p
        induction p with
        | fin x => rfl
        | use o p ih => simpa [Act.after, Act.pending] using ih
        | sub k p ih => simpa [Act.after, Act.pending] using ih
        | tr a f => rfl
        | tw a v p => rfl
      simpa [Act.after, Act.pending] using this p
    · have hne : t ++ [e] ≠ [] := by simp
      simp only [Act.after, ht, hne, if_false] at h ⊢
      exact ih t h
  | tr a f ih =>
    cases t with
    | nil => cases h; rfl
    | cons x t =>
      cases x <;> simp only [Act.after, List.cons_append] at h ⊢ <;> try cases h
      split at h
      · rename_i hd; simp only [hd, and_self, if_true]; exact ih _ t h
      · cases h
  | tw a v p ih =>
    cases t with
    | nil => cases h; rfl
    | cons x t =>
      cases x <;> simp only [Act.after, List.cons_append] at h ⊢ <;> try cases h
      split at h
      · rename_i hd; simp only [hd, and_self, if_true]; exact ih t h
      · cases h

@[simp] theorem Act.after_nil (dev : Nat) (p : Act) : p.after dev [] = some p := by
  cases p <;> simp [Act.after]

@[simp] theorem pastReturn_fin (e : Ending) (t : List BusEvent) :
    pastReturn (.fin e) t = if e.result = .ok then some t else none := rfl

@[simp] theorem pastReturn_use (o : Operand) (p : Act) (t : List BusEvent) :
    pastReturn (.use o p) t = pastReturn p t := rfl

@[simp] theorem pastReturn_read (a a' : Direct5) (f : Word → Act) (dev : Nat) (v : Word) (t : List BusEvent) :
    pastReturn (.tr a f) (.read dev a' v :: t) = pastReturn (f v) t := rfl

@[simp] theorem pastReturn_write (a a' : Direct5) (v v' : Word) (p : Act) (dev : Nat) (t : List BusEvent) :
    pastReturn (.tw a v p) (.write dev a' v' :: t) = pastReturn p t := rfl

/-- The bus trace is the engine's record of events: its own work between two events leaves it alone (R16). -/
theorem advance_trace (p : Act) (s : State) : (advance p s).trace = s.trace := by
  induction p generalizing s with
  | fin e => rfl
  | use o p ih => exact ih _
  | sub k p ih => exact ih _
  | tr a f => rfl
  | tw a v p => rfl

/-- A run is the engine's own work up to the next event, and then that event's run. -/
theorem run_advance (b : Option (BitVec 1)) (p : Act) (s : State) :
    run b p s = match p.pending with
      | .fin _ => advance p s
      | q => run b q (advance p s) := by
  induction p generalizing s with
  | fin e => rfl
  | use o p ih => exact ih _
  | sub k p ih => exact ih _
  | tr a f => rfl
  | tw a v p => rfl

/-- Run of a body that returned, followed by the rest: R151's "without the final `return`". -/
theorem run_andThen (b : Option (BitVec 1)) (p q : Act) (s : State) :
    (∃ u e, run b p s = u.finish e ∧ e.result = .ok ∧ run b (p.andThen q) s = run b q u) ∨
    (run b (p.andThen q) s = run b p s ∧ (run b p s).status ≠ Result.ok.word) := by
  induction p generalizing s with
  | fin e =>
    by_cases h : e.result = .ok
    · exact .inl ⟨s, e, rfl, h, by simp [Act.andThen, h]⟩
    · refine .inr ⟨by simp [Act.andThen, h], ?_⟩
      show e.result.word ≠ _
      cases hr : e.result with
      | ok => exact absurd hr h
      | invalidParameter => decide
      | illegalCommand => decide
      | transportFailure k =>
        intro hk
        have := congrArg (fun w : Word => w.getLsbD 1) hk
        simp [Result.word] at this
  | use o p ih => exact ih _
  | sub k p ih => exact ih _
  | tr a f ih =>
    unfold Act.andThen
    simp only [run]
    cases e : transportRead a s with
    | mk r t =>
      cases r with
      | ok v => exact ih v t
      | error k =>
        refine .inr ⟨rfl, ?_⟩
        intro hk
        have := congrArg (fun w : Word => w.getLsbD 1) hk
        simp [Result.word, Ending.transport] at this
  | tw a v p ih =>
    unfold Act.andThen
    simp only [run]
    cases e : transportWrite a v s with
    | mk r t =>
      cases r with
      | ok _ => exact ih t
      | error k =>
        refine .inr ⟨rfl, ?_⟩
        intro hk
        have := congrArg (fun w : Word => w.getLsbD 1) hk
        simp [Result.word, Ending.transport] at this

/-- The same state reached within another command: an earlier bus trace, another place of SEQ, another STATUS. -/
def State.within (s : State) (t : List BusEvent) (q : Seq) (w : Word) : State :=
  { s with trace := t ++ s.trace, seq := q, status := w }

theorem State.readEffect_within (t : List BusEvent) (q : Seq) (w : Word) (a : Direct5) (s : State) :
    (s.within t q w).readEffect a = (s.readEffect a).within t q w := by
  unfold State.readEffect
  rw [show (s.within t q w).phy = s.phy from rfl, show (s.within t q w).rm = s.rm from rfl]
  split <;> rfl

theorem transportRead_within (t : List BusEvent) (q : Seq) (w : Word) (a : Direct5) (s : State) :
    ∃ q', transportRead a (s.within t q w) = ((transportRead a s).1, (transportRead a s).2.within t q' w) := by
  unfold transportRead
  rw [show (s.within t q w).draw = s.draw from rfl, show (s.within t q w).takeDraw = s.takeDraw.within t q w from rfl,
    State.readEffect_within]
  cases h : s.draw.fail with
  | some k => exact ⟨q, by cases s.draw.lands <;> simp [State.within, State.record]⟩
  | none =>
    refine ⟨q.count, ?_⟩
    simp only [show ∀ (d : Draw) (n : Nat) (u : State), (u.within t q w).readValue d n a = u.readValue d n a
      from fun _ _ _ => rfl]
    simp [State.within, State.record, State.countEvent]

theorem transportWrite_within (t : List BusEvent) (q : Seq) (w : Word) (a : Direct5) (v : Word) (s : State) :
    ∃ q', transportWrite a v (s.within t q w) =
      ((transportWrite a v s).1, (transportWrite a v s).2.within t q' w) := by
  unfold transportWrite
  rw [show (s.within t q w).draw = s.draw from rfl]
  cases h : s.draw.fail with
  | some k =>
    refine ⟨q, ?_⟩
    cases s.draw.lands <;>
      simp [State.within, State.takeDraw, State.record, State.draw, State.writeEffect]
  | none =>
    refine ⟨q.count, ?_⟩
    simp [State.within, State.takeDraw, State.record, State.countEvent, State.draw, State.writeEffect]

/-- A run does the same within another command, but for the trace before it (R151). -/
theorem run_within (b : Option (BitVec 1)) (p : Act) (t : List BusEvent) (q : Seq) (w : Word) (s : State) :
    run b p (s.within t q w) = { run b p s with trace := t ++ (run b p s).trace } := by
  induction p generalizing s q with
  | fin e => rfl
  | use o p ih => exact ih q (s.useOperand o)
  | sub k p ih => exact ih (q.enter k) (s.enterSub k)
  | tr a f ih =>
    obtain ⟨q', h⟩ := transportRead_within t q w a s
    unfold run
    rw [h]
    rcases transportRead a s with ⟨_ | v, u⟩
    · rfl
    · exact ih v q' u
  | tw a v p ih =>
    obtain ⟨q', h⟩ := transportWrite_within t q w a v s
    unfold run
    rw [h]
    rcases transportWrite a v s with ⟨_ | _, u⟩
    · rfl
    · exact ih q' u

end Sys2Proof.Machine
end

