-- ==== Sys2Proof/Laws/Commands.lean ====
section
/-! SUPPORT. Every command is its wired sequence run to its end, and everything such a run can end as: its sequence
followed to the end, or broken off by the first failed event (40_register_access.md R105; 60_exceptions.md R171 to
R173). The lemmas on `leads` and `breaks` say which bus traces the procedures of R116 allow. -/

namespace Sys2Proof.Machine

open Sys2Proof.Safety

/-- A command is its wired sequence, run to its end (R85). -/
theorem exec_eq_runCommand (i : Instr) (s : State) :
    exec i s = .next (runCommand (encode i) (commandOf i s) s) := by
  cases i <;> rfl

/-- The sequence carried out to its end `e` by these completed events. -/
def Act.leads (dev : Nat) : Act → List BusEvent → Ending → Prop
  | .fin e, t, e' => t = [] ∧ e' = e
  | .use _ p, t, e' => p.leads dev t e'
  | .sub _ p, t, e' => p.leads dev t e'
  | .tr a f, t, e' => ∃ v t', t = .read dev a v :: t' ∧ (f v).leads dev t' e'
  | .tw a v p, t, e' => ∃ t', t = .write dev a v :: t' ∧ p.leads dev t' e'

/-- The sequence broken off: these events, the last of which failed with kind `k`. -/
def Act.breaks (dev : Nat) : Act → List BusEvent → Kind → Prop
  | .fin _, _, _ => False
  | .use _ p, t, k => p.breaks dev t k
  | .sub _ p, t, k => p.breaks dev t k
  | .tr a f, t, k =>
    t = [.readFailed dev a k] ∨ ∃ v t', t = .read dev a v :: t' ∧ (f v).breaks dev t' k
  | .tw a v p, t, k =>
    t = [.writeFailed dev a v k] ∨ ∃ t', t = .write dev a v :: t' ∧ p.breaks dev t' k

/-- A state after these events, up to what the PHY, the host-fault mark and SEQ are. -/
def State.after (s : State) (t : List BusEvent) (p : Phy) (q : Seq) (h : Bool) : State :=
  { s with trace := s.trace ++ t, phy := p, seq := q, hostFault := h, env := s.env.drop t.length,
           tick := s.tick + t.length }

theorem State.after_nil (s : State) (p : Phy) (q : Seq) (h : Bool) :
    s.after [] p q h = { s with phy := p, seq := q, hostFault := h } := by
  simp [State.after]

theorem State.after_event {s t : State} {e : BusEvent} (he : t.env = s.env.tail) (hk : t.tick = s.tick + 1)
    (ht : t.trace = s.trace ++ [e]) (hs : SameEngine s t) (hr : SameResults s t) (evs : List BusEvent) (p : Phy)
    (q : Seq) (h : Bool) : t.after evs p q h = s.after (e :: evs) p q h := by
  cases s; cases t
  simp only [State.after] at *
  obtain ⟨h1, h2, h3, h4, h5, h6⟩ := hs
  obtain ⟨k1, k2, k3, k4, k5⟩ := hr
  subst_vars
  simp [Nat.add_assoc, Nat.add_comm 1]

/-- Everything a run can end as. -/
theorem run_outcome (b : Option (BitVec 1)) (p : Act) (s : State) :
    ∃ t phy q h,
      (∃ e, p.leads s.devAddr t e ∧ run b p s = (s.after t phy q h).finish e) ∨
      (∃ k, p.breaks s.devAddr t k ∧ run b p s = (s.after t phy q h).finish (.transport b k)) := by
  induction p generalizing s with
  | fin e => exact ⟨[], s.phy, s.seq, s.hostFault, .inl ⟨e, ⟨rfl, rfl⟩, by simp [State.after_nil]⟩⟩
  | use o p ih =>
    obtain ⟨t, phy, q, h, hp⟩ := ih (s.useOperand o)
    exact ⟨t, phy, q, h, hp⟩
  | sub k p ih =>
    obtain ⟨t, phy, q, h, hp⟩ := ih (s.enterSub k)
    exact ⟨t, phy, q, h, hp⟩
  | tr a f ih =>
    rcases transportRead_cases a s with
      ⟨k, u, e, _, ht, _, _, he, hk, hs, hr⟩ | ⟨v, u, e, _, _, ht, _, _, he, hk, hs, hr⟩
    · refine ⟨[.readFailed s.devAddr a k], u.phy, u.seq, u.hostFault, .inr ⟨k, .inl rfl, ?_⟩⟩
      rw [run, e, ← State.after_event he hk ht hs hr [] u.phy u.seq u.hostFault, State.after_nil]
    · obtain ⟨t, phy, q, h, hp⟩ := ih v u
      rw [hs.devAddr] at hp
      refine ⟨.read s.devAddr a v :: t, phy, q, h, ?_⟩
      rw [← State.after_event he hk ht hs hr t phy q h, run, e]
      exact hp.imp (fun ⟨x, h1, h2⟩ => ⟨x, ⟨v, t, rfl, h1⟩, h2⟩)
        (fun ⟨x, h1, h2⟩ => ⟨x, .inr ⟨v, t, rfl, h1⟩, h2⟩)
  | tw a v p ih =>
    rcases transportWrite_cases a v s with
      ⟨k, u, e, _, ht, _, _, he, hk, hs, hr⟩ | ⟨u, e, _, ht, _, _, he, hk, hs, hr⟩
    · refine ⟨[.writeFailed s.devAddr a v k], u.phy, u.seq, u.hostFault, .inr ⟨k, .inl rfl, ?_⟩⟩
      rw [run, e, ← State.after_event he hk ht hs hr [] u.phy u.seq u.hostFault, State.after_nil]
    · obtain ⟨t, phy, q, h, hp⟩ := ih u
      rw [hs.devAddr] at hp
      refine ⟨.write s.devAddr a v :: t, phy, q, h, ?_⟩
      rw [← State.after_event he hk ht hs hr t phy q h, run, e]
      exact hp.imp (fun ⟨x, h1, h2⟩ => ⟨x, ⟨t, rfl, h1⟩, h2⟩)
        (fun ⟨x, h1, h2⟩ => ⟨x, .inr ⟨t, rfl, h1⟩, h2⟩)

/-- Everything a command can end as. -/
theorem exec_outcome (i : Instr) (s : State) :
    ∃ t phy q h,
      (∃ e, (commandOf i s).act.leads s.devAddr t e ∧
        exec i s = .next (((s.start (encode i)).after t phy q h).finish e)) ∨
      (∃ k, (commandOf i s).act.breaks s.devAddr t k ∧
        exec i s = .next (((s.start (encode i)).after t phy q h).finish
          (.transport (commandOf i s).failBool k))) := by
  obtain ⟨t, phy, q, h, hp⟩ := run_outcome (commandOf i s).failBool (commandOf i s).act (s.start (encode i))
  refine ⟨t, phy, q, h, ?_⟩
  rw [exec_eq_runCommand, runCommand]
  exact hp.imp (fun ⟨e, h1, h2⟩ => ⟨e, h1, by rw [h2]⟩) (fun ⟨k, h1, h2⟩ => ⟨k, h1, by rw [h2]⟩)

/-- A command that only ever returns, and writes no result register but STATUS: its bus trace is its plan, or the plan
cut short. -/
theorem exec_endsAs {α : Type} (i : Instr) (s : State) (plan : α → List BusEvent)
    (hf : (commandOf i s).failBool = none)
    (hl : ∀ t e, (commandOf i s).act.leads s.devAddr t e → ∃ r, t = plan r ∧ e = .ok)
    (hb : ∀ t k, (commandOf i s).act.breaks s.devAddr t k → ∃ r, cutShort (plan r) t k) :
    ∃ t, exec i s = .next t ∧ t = portOnly s t ∧ endsAs plan t := by
  obtain ⟨t, phy, q, h, ⟨e, h1, h2⟩ | ⟨k, h1, h2⟩⟩ := exec_outcome i s
  · obtain ⟨r, rfl, rfl⟩ := hl t e h1
    refine ⟨_, h2, ?_, .inl ⟨r, ?_⟩⟩
    · simp [State.start, State.after, State.finish, portOnly, Ending.ok]
    · exact ⟨by simp [State.start, State.after], rfl⟩
  · obtain ⟨r, hr⟩ := hb t k h1
    refine ⟨_, h2, ?_, .inr ⟨r, k, ?_⟩⟩
    · simp [State.start, State.after, State.finish, portOnly, Ending.transport, hf]
    · exact ⟨by simpa [State.start, State.after] using hr, rfl⟩

/-- Reading several operands leads where the rest leads. -/
@[simp] theorem leads_useAll (dev : Nat) (os : List Operand) (p : Act) :
    (useAll os p).leads dev = p.leads dev := by
  induction os with
  | nil => rfl
  | cons o os ih => exact ih

@[simp] theorem breaks_useAll (dev : Nat) (os : List Operand) (p : Act) :
    (useAll os p).breaks dev = p.breaks dev := by
  induction os with
  | nil => rfl
  | cons o os ih => exact ih

/-- The completed events of `RmwLoc` (R116). -/
theorem leads_rmwLoc (dev : Nat) (rm : RegMap) (l : RegLoc) (m v : Word) (p : Act) (t : List BusEvent)
    (e : Ending) :
    (rmwLoc rm l m v p).leads dev t e ↔
      ∃ cur t', t = rmwTrace dev rm cur (merge cur m v) l ++ t' ∧ p.leads dev t' e := by
  cases l <;> simp [rmwLoc, xsel, Act.leads, rmwTrace, selectTrace]

/-- The completed events of `RdLoc` (R116). -/
theorem leads_rdLoc (dev : Nat) (rm : RegMap) (l : RegLoc) (f : Word → Act) (t : List BusEvent) (e : Ending) :
    (rdLoc rm l f).leads dev t e ↔ ∃ v t', t = readTrace dev rm v l ++ t' ∧ (f v).leads dev t' e := by
  cases l <;> simp [rdLoc, xsel, Act.leads, readTrace, selectTrace]

/-- The completed events of `WrLoc` (R116). -/
theorem leads_wrLoc (dev : Nat) (rm : RegMap) (l : RegLoc) (v : Word) (p : Act) (t : List BusEvent) (e : Ending) :
    (wrLoc rm l v p).leads dev t e ↔ ∃ t', t = writeTrace dev rm v l ++ t' ∧ p.leads dev t' e := by
  cases l <;> simp [wrLoc, xsel, Act.leads, writeTrace, selectTrace]

theorem cutShort_cons {e : BusEvent} {plan t : List BusEvent} {k : Kind} (h : cutShort plan t k) :
    cutShort (e :: plan) (e :: t) k := by
  obtain ⟨n, x, hx, ht⟩ := h
  exact ⟨n + 1, x, by simpa using hx, by simp [ht]⟩

theorem cutShort_append {pre plan t : List BusEvent} {k : Kind} (h : cutShort plan t k) :
    cutShort (pre ++ plan) (pre ++ t) k := by
  induction pre with
  | nil => exact h
  | cons e pre ih => exact cutShort_cons ih

theorem cutShort_head (e : BusEvent) (plan : List BusEvent) (k : Kind) :
    cutShort (e :: plan) [failEvent e k] k := ⟨0, e, rfl, rfl⟩

theorem cutShort_weaken {plan more t : List BusEvent} {k : Kind} (h : cutShort plan t k) :
    cutShort (plan ++ more) t k := by
  obtain ⟨n, x, hx, ht⟩ := h
  obtain ⟨hn, _⟩ := List.getElem?_eq_some_iff.mp hx
  exact ⟨n, x, by rw [List.getElem?_append_left hn, hx], by rw [List.take_append_of_le_length hn.le, ht]⟩

/-- A sequence broken off is a sequence that leads somewhere, cut short. -/
theorem breaks_xsel {dev : Nat} {rm : RegMap} {x : Ext16} {p : Act} {t : List BusEvent} {k : Kind}
    (h : (xsel rm x p).breaks dev t k) :
    cutShort (selectTrace dev rm x) t k ∨ ∃ t', t = selectTrace dev rm x ++ t' ∧ p.breaks dev t' k := by
  simp only [xsel, Act.breaks] at h
  rcases h with rfl | ⟨t, rfl, rfl | ⟨t, rfl, rfl | ⟨t, rfl, h⟩⟩⟩
  · exact .inl (cutShort_head _ _ k)
  · exact .inl (cutShort_cons (cutShort_head _ _ k))
  · exact .inl (cutShort_cons (cutShort_cons (cutShort_head _ _ k)))
  · exact .inr ⟨t, rfl, h⟩

/-- The ways `RmwLoc` is broken off (R105, R116). -/
theorem breaks_rmwLoc {dev : Nat} {rm : RegMap} {l : RegLoc} {m v : Word} {p : Act} {t : List BusEvent}
    {k : Kind} (h : (rmwLoc rm l m v p).breaks dev t k) :
    ∃ cur, cutShort (rmwTrace dev rm cur (merge cur m v) l) t k ∨
      ∃ t', t = rmwTrace dev rm cur (merge cur m v) l ++ t' ∧ p.breaks dev t' k := by
  have tail : ∀ {a t}, (Act.tr a fun cur => .tw a (merge cur m v) p).breaks dev t k →
      ∃ cur, cutShort [.read dev a cur, .write dev a (merge cur m v)] t k ∨
        ∃ t', t = [.read dev a cur, .write dev a (merge cur m v)] ++ t' ∧ p.breaks dev t' k := by
    intro a t h
    simp only [Act.breaks] at h
    rcases h with rfl | ⟨cur, t, rfl, rfl | ⟨t, rfl, h⟩⟩
    · exact ⟨0, .inl (cutShort_head _ _ k)⟩
    · exact ⟨cur, .inl (cutShort_cons (cutShort_head _ _ k))⟩
    · exact ⟨cur, .inr ⟨t, rfl, h⟩⟩
  cases l with
  | direct a => exact tail h
  | ext x =>
    rcases breaks_xsel h with h2 | ⟨u, rfl, h2⟩
    · exact ⟨0, .inl (cutShort_weaken h2)⟩
    · obtain ⟨cur, h3 | ⟨t', rfl, h3⟩⟩ := tail h2
      · exact ⟨cur, .inl (cutShort_append h3)⟩
      · exact ⟨cur, .inr ⟨t', by simp [rmwTrace], h3⟩⟩

/-- The ways `WrLoc` is broken off (R105, R116). -/
theorem breaks_wrLoc {dev : Nat} {rm : RegMap} {l : RegLoc} {v : Word} {p : Act} {t : List BusEvent}
    {k : Kind} (h : (wrLoc rm l v p).breaks dev t k) :
    cutShort (writeTrace dev rm v l) t k ∨ ∃ t', t = writeTrace dev rm v l ++ t' ∧ p.breaks dev t' k := by
  have tail : ∀ {a t}, (Act.tw a v p).breaks dev t k →
      cutShort [.write dev a v] t k ∨ ∃ t', t = [.write dev a v] ++ t' ∧ p.breaks dev t' k := by
    intro a t h
    rcases h with rfl | ⟨t, rfl, h⟩
    · exact .inl (cutShort_head _ _ k)
    · exact .inr ⟨t, rfl, h⟩
  cases l with
  | direct a => exact tail h
  | ext x =>
    rcases breaks_xsel h with h2 | ⟨u, rfl, h2⟩
    · exact .inl (cutShort_weaken h2)
    · rcases tail h2 with h3 | ⟨t', rfl, h3⟩
      · exact .inl (cutShort_append h3)
      · exact .inr ⟨t', by simp [writeTrace], h3⟩

/-- The ways `RdLoc` is broken off (R105, R116). -/
theorem breaks_rdLoc {dev : Nat} {rm : RegMap} {l : RegLoc} {f : Word → Act} {t : List BusEvent} {k : Kind}
    (h : (rdLoc rm l f).breaks dev t k) :
    ∃ v, cutShort (readTrace dev rm v l) t k ∨ ∃ t', t = readTrace dev rm v l ++ t' ∧ (f v).breaks dev t' k := by
  have tail : ∀ {a t}, (Act.tr a f).breaks dev t k →
      ∃ v, cutShort [.read dev a v] t k ∨ ∃ t', t = [.read dev a v] ++ t' ∧ (f v).breaks dev t' k := by
    intro a t h
    rcases h with rfl | ⟨v, t, rfl, h⟩
    · exact ⟨0, .inl (cutShort_head _ _ k)⟩
    · exact ⟨v, .inr ⟨t, rfl, h⟩⟩
  cases l with
  | direct a => exact tail h
  | ext x =>
    rcases breaks_xsel h with h2 | ⟨u, rfl, h2⟩
    · exact ⟨0, .inl (cutShort_weaken h2)⟩
    · obtain ⟨v, h3 | ⟨t', rfl, h3⟩⟩ := tail h2
      · exact ⟨v, .inl (cutShort_append h3)⟩
      · exact ⟨v, .inr ⟨t', by simp [readTrace], h3⟩⟩

/-- What a command that is one masked update of one location (R116) can end as. -/
theorem exec_rmw_outcomes (i : Instr) (s : State) (l : RegLoc) (m v : Word) (os : List Operand)
    (hc : commandOf i s = ⟨useAll os (rmwLoc s.rm l m v (.fin .ok)), none⟩) :
    ∃ t, exec i s = .next t ∧ t = portOnly s t ∧
      endsAs (fun cur : Word => rmwTrace s.devAddr s.rm cur (merge cur m v) l) t := by
  refine exec_endsAs i s _ (by rw [hc]) (fun t e h => ?_) (fun t k h => ?_)
  · simp only [hc, leads_useAll, leads_rmwLoc, Act.leads] at h
    obtain ⟨cur, t', rfl, rfl, rfl⟩ := h
    exact ⟨cur, by simp, rfl⟩
  · simp only [hc, breaks_useAll] at h
    obtain ⟨cur, h2 | ⟨_, _, h2⟩⟩ := breaks_rmwLoc h
    · exact ⟨cur, h2⟩
    · exact False.elim h2

/-- What a command that is one overwrite of one location (R116) can end as. -/
theorem exec_wr_outcomes (i : Instr) (s : State) (l : RegLoc) (v : Word) (os : List Operand)
    (hc : commandOf i s = ⟨useAll os (wrLoc s.rm l v (.fin .ok)), none⟩) :
    ∃ t, exec i s = .next t ∧ t = portOnly s t ∧
      endsAs (fun _ : Unit => writeTrace s.devAddr s.rm v l) t := by
  refine exec_endsAs i s _ (by rw [hc]) (fun t e h => ?_) (fun t k h => ?_)
  · simp only [hc, leads_useAll, leads_wrLoc, Act.leads] at h
    obtain ⟨t', rfl, rfl, rfl⟩ := h
    exact ⟨(), by simp, rfl⟩
  · simp only [hc, breaks_useAll] at h
    rcases breaks_wrLoc h with h2 | ⟨_, _, h2⟩
    · exact ⟨(), h2⟩
    · exact False.elim h2

end Sys2Proof.Machine
end

