-- ==== Sys2Proof/Laws/PerInstr.lean ====
section
/-! SUPPORT. The statement made of every command on its own: its encoding (30_encoding.md R86, R87, R93). -/

namespace Sys2Proof.Laws.Encoding

/-- A command's byte decodes to it, and is no other command's. -/
def Statement (i : Instr) : Prop := decodeOpcode (encode i) = .ok i ∧ ∀ j, encode j = encode i → j = i

theorem rdd : Statement .rdd := ⟨rfl, by intro j h; cases j <;> first | rfl | cases h⟩

theorem wrd : Statement .wrd := ⟨rfl, by intro j h; cases j <;> first | rfl | cases h⟩

theorem rmwd : Statement .rmwd := ⟨rfl, by intro j h; cases j <;> first | rfl | cases h⟩

theorem rdx : Statement .rdx := ⟨rfl, by intro j h; cases j <;> first | rfl | cases h⟩

theorem wrx : Statement .wrx := ⟨rfl, by intro j h; cases j <;> first | rfl | cases h⟩

theorem rmwx : Statement .rmwx := ⟨rfl, by intro j h; cases j <;> first | rfl | cases h⟩

theorem ident : Statement .ident := ⟨rfl, by intro j h; cases j <;> first | rfl | cases h⟩

theorem linksup : Statement .linksup := ⟨rfl, by intro j h; cases j <;> first | rfl | cases h⟩

theorem setlink : Statement .setlink := ⟨rfl, by intro j h; cases j <;> first | rfl | cases h⟩

theorem setclksh : Statement .setclksh := ⟨rfl, by intro j h; cases j <;> first | rfl | cases h⟩

theorem setclkdly : Statement .setclkdly := ⟨rfl, by intro j h; cases j <;> first | rfl | cases h⟩

theorem setimped : Statement .setimped := ⟨rfl, by intro j h; cases j <;> first | rfl | cases h⟩

theorem setfifo : Statement .setfifo := ⟨rfl, by intro j h; cases j <;> first | rfl | cases h⟩

theorem setgpio : Statement .setgpio := ⟨rfl, by intro j h; cases j <;> first | rfl | cases h⟩

theorem setled : Statement .setled := ⟨rfl, by intro j h; cases j <;> first | rfl | cases h⟩

theorem setmdix : Statement .setmdix := ⟨rfl, by intro j h; cases j <;> first | rfl | cases h⟩

theorem setidle : Statement .setidle := ⟨rfl, by intro j h; cases j <;> first | rfl | cases h⟩

theorem setdspeq : Statement .setdspeq := ⟨rfl, by intro j h; cases j <;> first | rfl | cases h⟩

theorem fldfix : Statement .fldfix := ⟨rfl, by intro j h; cases j <;> first | rfl | cases h⟩

theorem setloop : Statement .setloop := ⟨rfl, by intro j h; cases j <;> first | rfl | cases h⟩

theorem configure : Statement .configure := ⟨rfl, by intro j h; cases j <;> first | rfl | cases h⟩

theorem reset : Statement .reset := ⟨rfl, by intro j h; cases j <;> first | rfl | cases h⟩

theorem isrstdone : Statement .isrstdone := ⟨rfl, by intro j h; cases j <;> first | rfl | cases h⟩

end Sys2Proof.Laws.Encoding
end

