-- ==== Sys2Proof/Laws/Quiet.lean ====
section
/-! SUPPORT. What the procedures of the Register Access Engine (40_register_access.md R109, R116) do when the
environment is quiet (ENV_REF, no failure, no step of its own): one lemma per procedure, in terms of the PHY
after the transaction. -/

namespace Sys2Proof.Machine

open Sys2Proof.Safety

/-- A state after some completed events of a quiet environment. -/
def State.afterEvents (s : State) (t : List BusEvent) (p : Phy) (rest : List Draw) : State :=
  { s with phy := p, env := rest, tick := s.tick + t.length, trace := s.trace ++ t,
           seq := Seq.count^[t.length] s.seq }

theorem State.afterEvents_afterEvents (s : State) (t t' : List BusEvent) (p p' : Phy) (r r' : List Draw) :
    (s.afterEvents t p r).afterEvents t' p' r' = s.afterEvents (t ++ t') p' r' := by
  simp [State.afterEvents, Nat.add_assoc, List.length_append, Nat.add_comm t.length, Function.iterate_add_apply]

theorem RegMap.wf_ctl_ne_data {rm : RegMap} (h : rm.wf = true) : rm.mmdCtl ≠ rm.mmdData := by
  simp only [RegMap.wf, RegMap.wfMmd, Bool.and_eq_true, bne_iff_ne] at h
  tauto

theorem RegMap.wf_words_ne {rm : RegMap} (h : rm.wf = true) : rm.mmdAddrWord ≠ rm.mmdDataWord := by
  simp only [RegMap.wf, RegMap.wfMmd, Bool.and_eq_true, bne_iff_ne] at h
  tauto

/-- R56 (a): no location of the map is the MMD pair. -/
theorem RegMap.wf_apart {rm : RegMap} (h : rm.wf = true) {l : RegLoc} (hl : l ∈ rm.locations) :
    l ≠ .direct rm.mmdCtl ∧ l ≠ .direct rm.mmdData := by
  simp only [RegMap.wf, Bool.and_eq_true] at h
  have := h.1.1.2
  simpa [RegMap.wfMmdApart] using List.all_eq_true.mp this l hl

theorem run_tr_quiet (b : Option (BitVec 1)) (a : Direct5) (f : Word → Act) (s : State) (v : Word)
    (rest : List Draw) (he : s.env = quiet :: rest) (hl : s.phy.lost = false)
    (hv : s.phy.read s.rm a = some v) :
    run b (.tr a f) s = run b (f v) (s.afterEvents [.read s.devAddr a v] s.phy rest) := by
  rw [run, transportRead_quiet a v s rest he hl hv]
  rfl

theorem run_tw_quiet (b : Option (BitVec 1)) (a : Direct5) (v : Word) (p : Act) (s : State)
    (rest : List Draw) (he : s.env = quiet :: rest) :
    run b (.tw a v p) s = run b p (s.afterEvents [.write s.devAddr a v] (s.phy.write s.rm a v) rest) := by
  rw [run, transportWrite_quiet a v s rest he]
  rfl

/-- A write to the MMD control register and the mode it selects (R78). -/
theorem Phy.write_ctl {rm : RegMap} (h : rm.mmdCtl ≠ rm.mmdData) (p : Phy) (v : Word) :
    p.write rm rm.mmdCtl v = p.setDirect rm.mmdCtl v := by
  simp [Phy.write, h]

/-- The mode is address mode after the address word was written. -/
theorem Phy.mode_addr (rm : RegMap) (p : Phy) : (p.setDirect rm.mmdCtl rm.mmdAddrWord).mode rm = .address := by
  simp [Phy.mode, Phy.direct_setDirect_same]

/-- The mode is data mode after the data word was written. -/
theorem Phy.mode_data {rm : RegMap} (h : rm.mmdAddrWord ≠ rm.mmdDataWord) (p : Phy)
    (hp : p.direct rm.mmdCtl = rm.mmdDataWord) : p.mode rm = .data := by
  simp [Phy.mode, hp, h.symm]

/-- The three selection writes (R109, R117). -/
theorem Phy.select_writes {rm : RegMap} (h : rm.mmdCtl ≠ rm.mmdData) (p : Phy) (x : Ext16) :
    ((p.write rm rm.mmdCtl rm.mmdAddrWord).write rm rm.mmdData x).write rm rm.mmdCtl rm.mmdDataWord =
      selected rm (.ext x) p := by
  rw [p.write_ctl h]
  have h2 : (p.setDirect rm.mmdCtl rm.mmdAddrWord).write rm rm.mmdData x =
      { p.setDirect rm.mmdCtl rm.mmdAddrWord with xa := x } := by
    simp [Phy.write, Phy.mode_addr]
  rw [h2, Phy.write_ctl h]
  simp [selected, Phy.setDirect, Mem.write_write_same]

/-- XSEL under a quiet environment (R109). -/
theorem run_xsel_quiet (b : Option (BitVec 1)) (x : Ext16) (p : Act) (s : State) (rest : List Draw)
    (h : s.rm.wf = true) (he : s.env = List.replicate 3 quiet ++ rest) :
    run b (xsel s.rm x p) s =
      run b p (s.afterEvents (selectTrace s.devAddr s.rm x) (selected s.rm (.ext x) s.phy) rest) := by
  unfold xsel
  rw [run_tw_quiet _ _ _ _ _ (quiet :: quiet :: rest) he, run_tw_quiet _ _ _ _ _ (quiet :: rest) rfl,
    run_tw_quiet _ _ _ _ _ rest rfl]
  simp only [State.afterEvents_afterEvents]
  congr 1
  simp only [State.afterEvents, selectTrace, ← Phy.select_writes (RegMap.wf_ctl_ne_data h) s.phy x]
  rfl

/-- A selected extended register is what the MMD data register reads (R79, R117). -/
theorem Phy.read_selected {rm : RegMap} (h : rm.wf = true) (p : Phy) (x : Ext16) :
    (selected rm (.ext x) p).read rm rm.mmdData = some (p.ext x) := by
  have hm : (selected rm (.ext x) p).mode rm = .data :=
    Phy.mode_data (RegMap.wf_words_ne h) _ (Phy.direct_setDirect_same _ _ _)
  simp only [Phy.read, hm, if_true]
  rfl

/-- A write to the MMD data register reaches the selected extended register (R78, R117). -/
theorem Phy.write_selected {rm : RegMap} (h : rm.wf = true) (p : Phy) (x : Ext16) (v : Word) :
    (selected rm (.ext x) p).write rm rm.mmdData v = stored rm (.ext x) v p := by
  have hm : (selected rm (.ext x) p).mode rm = .data :=
    Phy.mode_data (RegMap.wf_words_ne h) _ (Phy.direct_setDirect_same _ _ _)
  simp only [Phy.write, hm, if_true]
  rfl

theorem selected_lost (rm : RegMap) (l : RegLoc) (p : Phy) : (selected rm l p).lost = p.lost := by
  cases l <;> rfl

theorem stored_lost (rm : RegMap) (l : RegLoc) (v : Word) (p : Phy) : (stored rm l v p).lost = p.lost := by
  cases l <;> rfl

/-- `RdLoc` under a quiet environment (R116). -/
theorem run_rdLoc_quiet (b : Option (BitVec 1)) (l : RegLoc) (f : Word → Act) (s : State) (rest : List Draw)
    (h : s.rm.wf = true) (hl : l ≠ .direct s.rm.mmdData) (hp : s.phy.lost = false)
    (he : s.env = List.replicate (1 + selections l) quiet ++ rest) :
    run b (rdLoc s.rm l f) s =
      run b (f (s.phy.reg l))
        (s.afterEvents (readTrace s.devAddr s.rm (s.phy.reg l) l) (selected s.rm l s.phy) rest) := by
  cases l with
  | direct a =>
    have ha : a ≠ s.rm.mmdData := fun e => hl (by rw [e])
    exact run_tr_quiet b a f s (s.phy.direct a) rest he hp (by simp [Phy.read, ha])
  | ext x =>
    simp only [rdLoc]
    rw [run_xsel_quiet b x _ s (quiet :: rest) h he]
    rw [run_tr_quiet b _ f _ (s.phy.ext x) rest rfl (by simpa [State.afterEvents, selected] using hp)
      (by simpa [State.afterEvents] using Phy.read_selected h s.phy x)]
    rw [State.afterEvents_afterEvents]
    rfl

/-- `WrLoc` under a quiet environment (R116). -/
theorem run_wrLoc_quiet (b : Option (BitVec 1)) (l : RegLoc) (v : Word) (p : Act) (s : State) (rest : List Draw)
    (h : s.rm.wf = true) (hl : l ≠ .direct s.rm.mmdData)
    (he : s.env = List.replicate (1 + selections l) quiet ++ rest) :
    run b (wrLoc s.rm l v p) s =
      run b p (s.afterEvents (writeTrace s.devAddr s.rm v l) (stored s.rm l v s.phy) rest) := by
  cases l with
  | direct a =>
    have ha : a ≠ s.rm.mmdData := fun e => hl (by rw [e])
    simp only [wrLoc]
    rw [run_tw_quiet b a v p s rest he]
    simp [Phy.write, ha, stored, selected, writeTrace]
  | ext x =>
    simp only [wrLoc]
    rw [run_xsel_quiet b x _ s (quiet :: rest) h he, run_tw_quiet b _ v p _ rest rfl]
    rw [State.afterEvents_afterEvents]
    have := Phy.write_selected h s.phy x v
    simp only [State.afterEvents] at this ⊢
    rw [this]
    rfl

/-- `RmwLoc` under a quiet environment (R116). -/
theorem run_rmwLoc_quiet (b : Option (BitVec 1)) (l : RegLoc) (m v : Word) (p : Act) (s : State)
    (rest : List Draw) (h : s.rm.wf = true) (hl : l ≠ .direct s.rm.mmdData) (hp : s.phy.lost = false)
    (he : s.env = List.replicate (2 + selections l) quiet ++ rest) :
    run b (rmwLoc s.rm l m v p) s =
      run b p
        (s.afterEvents (rmwTrace s.devAddr s.rm (s.phy.reg l) (merge (s.phy.reg l) m v) l)
          (stored s.rm l (merge (s.phy.reg l) m v) s.phy) rest) := by
  cases l with
  | direct a =>
    have ha : a ≠ s.rm.mmdData := fun e => hl (by rw [e])
    simp only [rmwLoc]
    rw [run_tr_quiet b a _ s (s.phy.direct a) (quiet :: rest) he hp (by simp [Phy.read, ha]),
      run_tw_quiet b a _ p _ rest rfl, State.afterEvents_afterEvents]
    simp [State.afterEvents, Phy.write, ha, stored, selected, rmwTrace, Phy.reg]
  | ext x =>
    simp only [rmwLoc]
    rw [run_xsel_quiet b x _ s (quiet :: quiet :: rest) h he]
    rw [run_tr_quiet b _ _ _ (s.phy.ext x) (quiet :: rest) rfl
      (by simpa [State.afterEvents, selected] using hp)
      (by simpa [State.afterEvents] using Phy.read_selected h s.phy x), run_tw_quiet b _ _ p _ rest rfl]
    simp only [State.afterEvents_afterEvents]
    have := Phy.write_selected h s.phy x (merge (s.phy.ext x) m v)
    simp only [State.afterEvents] at this ⊢
    rw [this]
    rfl

/-- A quiet command's end: the events of its run are its bus trace. -/
theorem finish_afterEvents_start (s : State) (op : Opcode) (os : List Operand) (t : List BusEvent) (p : Phy)
    (rest : List Draw) (e : Ending) :
    ((({ s.start op with hostFault := faultAfter s os } : State).afterEvents t p rest).finish e) =
      { afterOk s os t p rest with
        status := e.result.word
        rval := e.rval.getD s.rval
        rbool := e.rbool.getD s.rbool
        rstate := e.rstate.getD s.rstate } := by
  simp [State.afterEvents, State.start, State.finish, afterOk]

/-- A command that is one masked update of one location, under a quiet environment (R116). -/
theorem exec_rmw_quiet (i : Instr) (s : State) (l : RegLoc) (m v : Word) (os : List Operand) (e : Ending)
    (rest : List Draw) (hc : commandOf i s = ⟨useAll os (rmwLoc s.rm l m v (.fin e)), none⟩)
    (h : s.rm.wf = true) (hl : l ≠ .direct s.rm.mmdData) (hq : quietFor (2 + selections l) s rest) :
    exec i s =
      .next { afterRmw s os l m v rest with
              status := e.result.word
              rval := e.rval.getD s.rval
              rbool := e.rbool.getD s.rbool
              rstate := e.rstate.getD s.rstate } := by
  rw [exec_eq_runCommand, runCommand, hc]
  simp only [run_useAll]
  refine congrArg Host.Outcome.next (Eq.trans (run_rmwLoc_quiet none l m v (.fin e)
    { s.start (encode i) with hostFault := faultAfter (s.start (encode i)) os } rest h hl hq.2 hq.1) ?_)
  exact finish_afterEvents_start s (encode i) os _ _ _ e

/-- A command that is one overwrite of one location, under a quiet environment (R116). -/
theorem exec_wr_quiet (i : Instr) (s : State) (l : RegLoc) (v : Word) (os : List Operand) (rest : List Draw)
    (hc : commandOf i s = ⟨useAll os (wrLoc s.rm l v (.fin .ok)), none⟩) (h : s.rm.wf = true)
    (hl : l ≠ .direct s.rm.mmdData) (hq : quietFor (1 + selections l) s rest) :
    exec i s = .next (afterOk s os (writeTrace s.devAddr s.rm v l) (stored s.rm l v s.phy) rest) := by
  rw [exec_eq_runCommand, runCommand, hc]
  simp only [run_useAll]
  refine congrArg Host.Outcome.next (Eq.trans (run_wrLoc_quiet none l v (.fin .ok)
    { s.start (encode i) with hostFault := faultAfter (s.start (encode i)) os } rest h hl hq.1) ?_)
  exact finish_afterEvents_start s (encode i) os _ _ _ .ok

end Sys2Proof.Machine
end

