-- ==== Sys2Proof/Tests/Slice0.lean ====
section
/-! SUPPORT. The model's own tests. Expected values are those of 95_test_vectors.md (the vector is named before
each), words are written out from 30_encoding.md R86 and R87; `wit_…` theorems show that the hypotheses of the
obligation of that name can be met together. -/

namespace Sys2Proof.Tests

open Sys2Proof.Machine Sys2Proof.Safety

/-! ## The register map of the vectors -/

/-- `RM_REF` (92_eei_decisions.md D9), the map 95_test_vectors.md uses. It is no part of the model. -/
def rmRef : RegMap where
  mmdCtl := 0x0D
  mmdData := 0x0E
  mmdAddrWord := 0x001F
  mmdDataWord := 0x401F
  ctrl := .direct 0x1F
  resetBit := 0x8000
  modeCtl := 0x0032
  rmiiEn := 0x0080
  clkShift := 0x0032
  txShift := 0x0002
  rxShift := 0x0001
  clkDelay := .ext 0x0086
  txDelay := 0x00F0
  rxDelay := 0x000F
  imped := .ext 0x0170
  impedField := 0x001F
  fifo := .direct 0x10
  fifoCode3 := 0
  fifoCode4 := 1
  fifoCode6 := 2
  fifoCode8 := 3
  gpio := .ext 0x0172
  gpio0 := 0x000F
  gpio1 := 0x00F0
  led := .direct 0x18
  ledField0 := 0x000F
  ledField1 := 0x00F0
  ledField2 := 0x0F00
  ledField3 := 0xF000
  mdix := 0x10
  mdixField := 0x0060
  mdixAuto := 2
  mdixOff := 0
  mdix2 := 0x1E
  robustBit := 0x0200
  loop := 0x00FE
  loopOn := 0xE721
  loopOff := 0xE720
  strap := 0x006F
  fldStrapBit := 0x0400
  fldThr := .ext 0x002E
  fldThrField := 0x0007
  fldThrVal := 1
  idle := 0x0053
  idleField := 0x001F
  dspEq := 0x012C
  dspEqMask := 0x03FF
  dspEqVal := 0x0281
  idOui := 0x00080028
  idModel := 0x23
  idRev := 1

/-! ## Well-formed maps -/

theorem test_wf_ref : rmRef.wf = true := by decide +kernel

/-- V31's aliased map is well-formed (R56). -/
theorem test_wf_aliased : ({ rmRef with mdix := 0x1B, mdix2 := 0x1B } : RegMap).wf = true := by decide +kernel

theorem test_ill_mmd : ({ rmRef with mmdData := 0x0D } : RegMap).wfMmd = false := by decide +kernel
theorem test_ill_reset : ({ rmRef with resetBit := 0xC000 } : RegMap).wfReset = false := by decide +kernel
theorem test_ill_mode : ({ rmRef with rmiiEn := 0 } : RegMap).wfMode = false := by decide +kernel
theorem test_ill_shift : ({ rmRef with rxShift := 0x0002 } : RegMap).wfShift = false := by decide +kernel
theorem test_ill_delay : ({ rmRef with txDelay := 0x01E0 } : RegMap).wfDelay = false := by decide +kernel
theorem test_ill_imped : ({ rmRef with impedField := 0x001D } : RegMap).wfImped = false := by decide +kernel
theorem test_ill_fifo : ({ rmRef with fifoCode8 := 0 } : RegMap).wfFifo = false := by decide +kernel
theorem test_ill_gpio : ({ rmRef with gpio1 := 0x0078 } : RegMap).wfGpio = false := by decide +kernel
theorem test_ill_led : ({ rmRef with ledField3 := 0x0F00 } : RegMap).wfLed = false := by decide +kernel
theorem test_ill_mdix : ({ rmRef with mdixOff := 2 } : RegMap).wfMdix = false := by decide +kernel
theorem test_ill_loop : ({ rmRef with loopOn := 0xE720 } : RegMap).wfLoop = false := by decide +kernel
theorem test_ill_fld : ({ rmRef with fldThrField := 0x000F } : RegMap).wfFld = false := by decide +kernel
theorem test_ill_idle : ({ rmRef with idleField := 0x0005 } : RegMap).wfIdle = false := by decide +kernel
theorem test_ill_dspEq : ({ rmRef with dspEqVal := 0x0400 } : RegMap).wfDspEq = false := by decide +kernel
theorem test_ill_apart : ({ rmRef with led := .direct 0x0E } : RegMap).wfMmdApart = false := by decide +kernel
theorem test_ill_alias : ({ rmRef with clkDelay := .ext 0x0170 } : RegMap).wfAlias = false := by decide +kernel
theorem test_ill_whole : ({ rmRef with ctrl := .direct 0x18 } : RegMap).wfWhole = false := by decide +kernel

/-! ## Decoding: family in bits 7:4, operation in bits 3:0 (R86, R87) -/

theorem test_decode_access :
    decode [0b00000000, 0xAB] = .ok (.rdd, [0xAB]) ∧ decode [0b00000001] = .ok (.wrd, []) ∧
      decode [0b00000010] = .ok (.rmwd, []) ∧ decode [0b00000011] = .ok (.rdx, []) ∧
      decode [0b00000100] = .ok (.wrx, []) ∧ decode [0b00000101] = .ok (.rmwx, []) := by decide +kernel

theorem test_decode_capability :
    decode [0b00010000] = .ok (.ident, []) ∧ decode [0b00010001] = .ok (.linksup, []) := by decide +kernel

theorem test_decode_subops :
    decode [0b00100000] = .ok (.setlink, []) ∧ decode [0b00100001] = .ok (.setclksh, []) ∧
      decode [0b00100010] = .ok (.setclkdly, []) ∧ decode [0b00100011] = .ok (.setimped, []) ∧
      decode [0b00100100] = .ok (.setfifo, []) ∧ decode [0b00100101] = .ok (.setgpio, []) := by decide +kernel

theorem test_decode_more_subops :
    decode [0b00100110] = .ok (.setled, []) ∧ decode [0b00100111] = .ok (.setmdix, []) ∧
      decode [0b00101000] = .ok (.setidle, []) ∧ decode [0b00101001] = .ok (.setdspeq, []) ∧
      decode [0b00101010] = .ok (.fldfix, []) ∧ decode [0b00101011] = .ok (.setloop, []) := by decide +kernel

theorem test_decode_composite :
    decode [0b00110000] = .ok (.configure, []) ∧ decode [0b01000000] = .ok (.reset, []) ∧
      decode [0b01000001] = .ok (.isrstdone, []) := by decide +kernel

/-- V120, V121: bytes that are no command, the neighbours of each family among them. -/
theorem test_decode_illegal :
    [0x06, 0x0F, 0x12, 0x2C, 0x31, 0x42, 0x50, 0x80, 0xFF].all
      (fun b => decodeOpcode b == .error (.illegalOpcode b)) = true ∧ decode [] = .error .noByte := by
  decide +kernel

theorem test_table_word : decodeTableWord 8 0x41 = some .isrstdone ∧ decodeTableWord 8 0x42 = none := by
  decide +kernel

/-! ## Small states -/

/-- A machine with `RM_REF` and device address 1, these operands, these PHY registers, and `n` events of ENV_REF to
come. -/
def st (o : Operands) (d x : Mem) (n : Nat) : State :=
  { State.resetWith rmRef 1 with
    ops := o, unwritten := [], env := List.replicate n quiet, phy := ⟨d, x, 0, false⟩ }

/-- The same, but the event after `n` successful ones fails with kind `k`. -/
def stFail (o : Operands) (d x : Mem) (n : Nat) (k : Kind) : State :=
  { st o d x 0 with env := List.replicate n quiet ++ [{ quiet with fail := some k }] }

/-- Operands of the register access commands. -/
def acc (a m v : BitVec 16) : Operands := { Operands.reset with aAddr := a, aMask := m, aVal := v }

def z : Operands := Operands.reset

/-- STATUS and the bus trace after a command. -/
def ends (i : Instr) (s : State) : Option (Word × List BusEvent) :=
  match exec i s with
  | .next t => some (t.status, t.trace)
  | _ => none

/-- One value of the state after a command. -/
def leaves {α : Type} (f : State → α) (i : Instr) (s : State) : Option α :=
  match exec i s with
  | .next t => some (f t)
  | _ => none

/-- `SEL(x)` of 95_test_vectors.md. -/
def sel (x : Word) : List BusEvent := [.write 1 0x0D 0x001F, .write 1 0x0E x, .write 1 0x0D 0x401F]

/-- `SEL(x), TR(0x0E)=cur, TW(0x0E,new)`. -/
def rmwExt (x cur new : Word) : List BusEvent := sel x ++ [.read 1 0x0E cur, .write 1 0x0E new]

/-! ## Register access -/

/-- V19c, V2: the largest legal direct address and the next. -/
theorem test_rdd : ends .rdd (st (acc 31 0 0) [(31, 0x8000)] [] 1) = some (0x0000, [.read 1 0x1F 0x8000]) ∧
    ends .rdd (st (acc 32 0 0) [] [] 1) = some (0x0001, []) := by decide +kernel

/-- V1: RVAL. -/
theorem test_rdd_rval : leaves State.rval .rdd (st (acc 0x1F 0 0) [(0x1F, 0x8000)] [] 1) = some 0x8000 := by
  decide +kernel

/-- V11, V3. -/
theorem test_wrd : ends .wrd (st (acc 0x18 0 0x1234) [] [] 1) = some (0x0000, [.write 1 0x18 0x1234]) ∧
    leaves (fun t => t.phy.d) .wrd (st (acc 0x18 0 0x1234) [] [] 1) = some [(0x18, 0x1234)] ∧
    ends .wrd (st (acc 32 0 0) [] [] 1) = some (0x0001, []) := by decide +kernel

/-- V7. -/
theorem test_rmwd : ends .rmwd (st (acc 0x10 0x0F0F 0xABCD) [(0x10, 0xA5C3)] [] 2) =
    some (0x0000, [.read 1 0x10 0xA5C3, .write 1 0x10 0xABCD]) := by decide +kernel

/-- V9: a failed read, nothing written. -/
theorem test_rmwd_fails : ends .rmwd (stFail (acc 0x10 0x0060 0x0040) [(0x10, 0x5028)] [] 0 0x05) =
    some (0x0502, [.readFailed 1 0x10 0x05]) := by decide +kernel

/-- V12. -/
theorem test_rdx : ends .rdx (st (acc 0x006F 0 0) [] [(0x006F, 0x0400)] 4) =
      some (0x0000, sel 0x006F ++ [.read 1 0x0E 0x0400]) ∧
    leaves (fun t => (t.rval, t.phy.d, t.phy.xa)) .rdx (st (acc 0x006F 0 0) [] [(0x006F, 0x0400)] 4) =
      some (0x0400, [(0x0D, 0x401F)], 0x006F) := by decide +kernel

/-- V13. -/
theorem test_wrx : ends .wrx (st (acc 0x00FE 0 0xE720) [] [] 4) =
      some (0x0000, sel 0x00FE ++ [.write 1 0x0E 0xE720]) ∧
    leaves (fun t => t.phy.x) .wrx (st (acc 0x00FE 0 0xE720) [] [] 4) = some [(0x00FE, 0xE720)] := by
  decide +kernel

/-- R36, R80 (d), by hand: the strap bit (0x0400) of register 0x6F keeps its value, every other bit is stored. -/
theorem test_wrx_strap :
    leaves (fun t => t.phy.ext 0x6F) .wrx (st (acc 0x6F 0 0xFBFF) [] [(0x6F, 0x0400)] 4) = some 0xFFFF ∧
      leaves (fun t => t.phy.ext 0x6F) .wrx (st (acc 0x6F 0 0x0C00) [] [] 4) = some 0x0800 := by
  decide +kernel

/-- V14. -/
theorem test_rmwx : ends .rmwx (st (acc 0x0086 0x00FF 0x0030) [] [(0x0086, 0x0077)] 5) =
    some (0x0000, rmwExt 0x0086 0x0077 0x0030) := by decide +kernel

/-- V16: the PHY is left in address mode. -/
theorem test_rmwx_fails :
    ends .rmwx (stFail (acc 0x0086 0x00FF 0x0030) [] [(0x0086, 0x0077)] 1 0x12) =
      some (0x1202, [.write 1 0x0D 0x001F, .writeFailed 1 0x0E 0x0086 0x12]) ∧
    leaves (fun t => (t.phy.d, t.phy.x)) .rmwx
      (stFail (acc 0x0086 0x00FF 0x0030) [] [(0x0086, 0x0077)] 1 0x12) =
      some ([(0x0D, 0x001F)], [(0x0086, 0x0077)]) := by decide +kernel

/-! ## Capability -/

/-- V20, V24. -/
theorem test_ident :
    leaves (fun t => (t.rbool, t.trace)) .ident (st { z with pOui := 0x00080028, pModel := 0x23, pRev := 1 } [] [] 0) =
      some (1, []) ∧
    leaves State.rbool .ident (st { z with pOui := 0x01080028, pModel := 0x23, pRev := 1 } [] [] 0) = some 0 := by
  decide +kernel

/-- V25 to V28. -/
theorem test_linksup :
    ([0, 1, 2, 3, 0xFFFFFFFF].map fun m => leaves State.rbool .linksup (st { z with pLinkMode := m } [] [] 0)) =
      [some 1, some 1, some 0, some 0, some 0] := by decide +kernel

/-! ## Configuration sub-operations -/

/-- V30, V34. -/
theorem test_setlink :
    ends .setlink (st { z with pLinkMode := 1 } [] [(0x32, 0x0050)] 5) =
      some (0x0000, rmwExt 0x32 0x0050 0x00D0) ∧
    ends .setlink (st { z with pLinkMode := 7 } [] [(0x32, 0x00D3)] 5) =
      some (0x0000, rmwExt 0x32 0x00D3 0x0053) := by decide +kernel

/-- V35, V37. -/
theorem test_setclksh :
    ends .setclksh (st { z with pTxShift := 1 } [] [(0x32, 0x00D1)] 5) =
      some (0x0000, rmwExt 0x32 0x00D1 0x00D2) ∧
    ends .setclksh (st { z with pRxShift := 1 } [] [(0x32, 0x00D2)] 5) =
      some (0x0000, rmwExt 0x32 0x00D2 0x00D1) := by decide +kernel

/-- V40, V44. -/
theorem test_setclkdly :
    ends .setclkdly (st { z with pTxDelay := 4000 } [] [(0x86, 0xFF00)] 5) =
      some (0x0000, rmwExt 0x86 0xFF00 0xFFF0) ∧
    ends .setclkdly (st { z with pTxDelay := 251, pRxDelay := 3751 } [] [(0x86, 0xFF00)] 5) =
      some (0x0000, rmwExt 0x86 0xFF00 0xFF1F) := by decide +kernel

/-- V41, V42. -/
theorem test_setclkdly_invalid :
    ends .setclkdly (st { z with pTxDelay := 4001 } [] [(0x86, 0xFF00)] 5) = some (0x0001, []) ∧
    ends .setclkdly (st { z with pRxDelay := 4001 } [] [(0x86, 0xFF00)] 5) = some (0x0001, []) := by
  decide +kernel

/-- V51 to V53. -/
theorem test_setimped :
    ([35000, 52500, 70000].map fun v => ends .setimped (st { z with pImped := v } [] [(0x170, 0xFFFF)] 5)) =
      [some (0x0000, rmwExt 0x170 0xFFFF 0xFFFF), some (0x0000, rmwExt 0x170 0xFFFF 0xFFF0),
       some (0x0000, rmwExt 0x170 0xFFFF 0xFFE0)] := by decide +kernel

/-- V50, V54. -/
theorem test_setimped_invalid :
    ([34999, 70001].map fun v => ends .setimped (st { z with pImped := v } [] [] 5)) =
      [some (0x0001, []), some (0x0001, [])] := by decide +kernel

/-- V60 to V63. -/
theorem test_setfifo :
    ([3, 4, 6, 8].map fun v => ends .setfifo (st { z with pFifo := v } [(0x10, 0x3FFF)] [] 2)) =
      [0x3FFF, 0x7FFF, 0xBFFF, 0xFFFF].map fun w =>
        some (0x0000, [.read 1 0x10 0x3FFF, .write 1 0x10 w]) := by decide +kernel

/-- V64 to V66. -/
theorem test_setfifo_invalid :
    ([0, 5, 7, 9, 0x00010004].all fun v =>
      ends .setfifo (st { z with pFifo := v } [(0x10, 0x3FFF)] [] 2) == some (0x0001, [])) = true := by
  decide +kernel

/-- V70, V71. -/
theorem test_setgpio :
    ends .setgpio (st { z with pGpio0 := 3, pGpio1 := 0x12 } [] [(0x172, 0xAB00)] 5) =
      some (0x0000, rmwExt 0x172 0xAB00 0xAB23) ∧
    ends .setgpio (st { z with pGpio0 := 0x100, pGpio1 := 0xFFFFFFF8 } [] [(0x172, 0xFFFF)] 5) =
      some (0x0000, rmwExt 0x172 0xFFFF 0xFF80) := by decide +kernel

/-- V72, V74. -/
theorem test_setled :
    ends .setled (st { z with pLed0 := 5, pLed1 := 6, pLed2 := 1, pLed3 := 0x1B } [(0x18, 0xFFFF)] [] 1) =
      some (0x0000, [.write 1 0x18 0xB165]) ∧
    ends .setled (st { z with pLed0 := 0xD, pLed1 := 0x1E, pLed2 := 0x2F, pLed3 := 0x10 } [] [] 1) =
      some (0x0000, [.write 1 0x18 0x0FED]) := by decide +kernel

/-- V78, V79. -/
theorem test_setmdix :
    ends .setmdix (st { z with pMdixEn := 1 } [(0x10, 0x5028), (0x1E, 0x0002)] [] 4) =
      some (0x0000, [.read 1 0x10 0x5028, .write 1 0x10 0x5048, .read 1 0x1E 0x0002, .write 1 0x1E 0x0202]) ∧
    ends .setmdix (st z [(0x10, 0x5048), (0x1E, 0x0202)] [] 2) =
      some (0x0000, [.read 1 0x10 0x5048, .write 1 0x10 0x5008]) := by decide +kernel

/-- V31: both registers at one address. -/
theorem test_setmdix_aliased :
    ends .setmdix { st { z with pMdixEn := 1 } [(0x1B, 0x0005)] [] 4 with
        rm := { rmRef with mdix := 0x1B, mdix2 := 0x1B } } =
      some (0x0000, [.read 1 0x1B 0x0005, .write 1 0x1B 0x0045, .read 1 0x1B 0x0045, .write 1 0x1B 0x0245]) := by
  decide +kernel

/-- V76. -/
theorem test_setidle : ends .setidle (st { z with pIdleThr := 0x25 } [] [(0x53, 0x0A08)] 5) =
    some (0x0000, rmwExt 0x53 0x0A08 0x0A05) := by decide +kernel

/-- V77. -/
theorem test_setdspeq : ends .setdspeq (st z [] [(0x12C, 0x0C00)] 5) =
    some (0x0000, rmwExt 0x12C 0x0C00 0x0E81) := by decide +kernel

/-- V81, V82. -/
theorem test_fldfix :
    ends .fldfix (st z [] [(0x2E, 0x0AA6), (0x6F, 0x0400)] 9) =
      some (0x0000, sel 0x6F ++ [.read 1 0x0E 0x0400] ++ rmwExt 0x2E 0x0AA6 0x0AA1) ∧
    ends .fldfix (st z [] [(0x2E, 0x0AA6)] 4) = some (0x0000, sel 0x6F ++ [.read 1 0x0E 0x0000]) := by
  decide +kernel

/-- V84, V85. -/
theorem test_setloop :
    ends .setloop (st { z with pLoopEn := 1 } [] [] 4) = some (0x0000, sel 0xFE ++ [.write 1 0x0E 0xE721]) ∧
    ends .setloop (st z [] [] 4) = some (0x0000, sel 0xFE ++ [.write 1 0x0E 0xE720]) := by decide +kernel

/-! ## CONFIGURE -/

/-- The operands of program P2. -/
def p2 : Operands :=
  { z with
    pLinkMode := 1, pTxShift := 1, pTxDelay := 1000, pRxDelay := 250, pFifo := 4, pImped := 50000, pGpio0 := 3
    pGpio1 := 0x12, pLed0 := 5, pLed1 := 6, pLed2 := 1, pLed3 := 0x1B, pIdleThr := 5, pMdixEn := 1 }

/-- The PHY of program P2. -/
def p2d : Mem := [(0x10, 0x9028), (0x18, 0xFFFF), (0x1E, 0x0002)]

def p2x : Mem :=
  [(0x2E, 0x0AA6), (0x32, 0x0051), (0x53, 0x0A08), (0x6F, 0x0400), (0x86, 0x0077), (0x12C, 0x0C00),
   (0x170, 0x0C10), (0x172, 0xAB00)]

/-- V90, V91: STATUS, the number of events, and the register the first two sub-operations share. -/
theorem test_configure :
    leaves (fun t => (t.status, t.trace.length, t.phy.ext 0x86)) .configure (st p2 p2d p2x 57) =
      some (0x0000, 51, 0x0030) ∧
    leaves (fun t => (t.status, t.trace.length, t.phy.ext 0x32)) .configure
      (st { p2 with pRxDelay := 4001 } p2d p2x 57) = some (0x0001, 10, 0x00D2) := by decide +kernel

/-- V97: the LED write fails; the FIFO field stands, the MDIX field was not reached. -/
theorem test_configure_fails :
    leaves (fun t => (t.status, t.trace.length, t.phy.direct 0x18, t.phy.direct 0x10)) .configure
      (stFail p2 p2d p2x 27 0x44) = some (0x4402, 28, 0xFFFF, 0x5028) := by decide +kernel

/-! ## Reset -/

/-- V110, V113. -/
theorem test_reset :
    leaves (fun t => (t.trace, t.rstate)) .reset (st z [(0x1F, 0x0040)] [] 2) =
      some ([.read 1 0x1F 0x0040, .write 1 0x1F 0x8040], .requested) ∧
    leaves (fun t => (t.trace, t.rstate)) .reset { st z [(0x1F, 0x8000)] [] 2 with rstate := .complete } =
      some ([.read 1 0x1F 0x8000, .write 1 0x1F 0x8000], .requested) := by decide +kernel

/-- V115, V116. -/
theorem test_isrstdone :
    leaves (fun t => (t.rbool, t.rstate)) .isrstdone { st z [(0x1F, 0x0040)] [] 1 with rstate := .requested } =
      some (1, .complete) ∧
    leaves (fun t => (t.rbool, t.rstate)) .isrstdone (st z [] [] 1) = some (1, .idle) := by decide +kernel

/-- V117. -/
theorem test_isrstdone_fails :
    leaves (fun t => (t.status, t.rbool, t.rstate)) .isrstdone
      { stFail z [(0x1F, 0x8040)] [] 0 0x09 with rstate := .requested, rbool := 1 } =
      some (0x0902, 0, .requested) := by decide +kernel

/-! ## The host -/

/-- V120. -/
theorem test_illegal :
    step { st z [] [] 0 with host := [.write 0x00 0x06] } =
      .next { st z [] [] 0 with status := 0x0003 } := by rfl

/-- V124: the model runs the command and marks the host's fault. -/
theorem test_host_fault :
    leaves State.hostFault .setimped { State.resetWith rmRef 1 with env := [quiet] } = some true := by
  decide +kernel

/-! ## Witnesses: the hypotheses of each obligation can be met -/

/-- A state at the end of a command. -/
def run1 (i : Instr) (s : State) : State := runCommand (encode i) (commandOf i s) s

theorem wit_StepRunsIssuedCommand :
    let s := { st z [] [] 0 with host := [HostMove.write 0x00 0x130] }
    s.seq = .idle ∧ s.host = [.write 0x00 0x130] ∧
      decode ((0x130 : BitVec 32).setWidth 8 :: []) = .ok (.configure, []) := by decide +kernel

theorem wit_IllegalCommandOnlyWritesStatus :
    let s := { st z [] [] 0 with host := [HostMove.write 0x00 0x06] }
    s.seq = .idle ∧ s.host = [.write 0x00 0x06] ∧ ∀ i, (0x06 : BitVec 32).setWidth 8 ≠ encode i := by
  refine ⟨rfl, rfl, ?_⟩
  intro i; cases i <;> decide

/-- The first, a one-bit and the last operand register. -/
theorem wit_HostWriteTruncates :
    let s := { st z [] [] 0 with host := [HostMove.write 0x1D 3] }
    s.seq = .idle ∧ s.host = [.write 0x1D 3] ∧ 0x1D = registerIndex (.operand .pMdixEn) ∧
      0x08 = registerIndex (.operand .aAddr) ∧ 0x22 = registerIndex (.operand .pRev) := by decide +kernel

theorem wit_HostReadReturnsRegister :
    let s := { st z [] [] 0 with host := [HostMove.read 0x04], rstate := .complete }
    s.seq = .idle ∧ s.host = [.read 0x04] ∧ 0x04 = registerIndex .rstate ∧ 0x01 = registerIndex .status ∧
      0x02 = registerIndex .rval ∧ 0x03 = registerIndex .rbool ∧ s.rstate = .complete ∧
      (st z [] [] 0).rstate = .idle ∧ (run1 .reset (st z [] [] 2)).rstate = .requested := by decide +kernel

/-- The indices where the ranges of R22 end. -/
theorem wit_HostAccessRefused :
    (∀ n ∈ [0x05, 0x07, 0x0B, 0x0F, 0x23], ∀ r, BitVec.ofNat 8 n ≠ registerIndex r) ∧
      0x01 = registerIndex .status ∧ 0x04 = registerIndex .rstate ∧
      ({ st z [] [] 0 with host := [HostMove.read 0x00] } : State).host = [.read 0x00] := by
  refine ⟨?_, rfl, rfl, rfl⟩
  intro n hn r
  cases r with
  | operand o => cases o <;> (revert n; decide)
  | _ => revert n; decide

theorem wit_ResetLeaves :
    let s := { st z [] [] 0 with host := [HostMove.engineReset], status := 0x0502, rstate := .complete }
    s.seq = .idle ∧ s.host = [.engineReset] := by decide +kernel

theorem wit_BusyHostHasNoMove :
    (issue .rdd (st (acc 1 0 0) [] [] 1)).busy = true ∧
      ∃ t, step (issue .rdd (st (acc 1 0 0) [] [] 1)) = .next t := ⟨rfl, _, rfl⟩

/-- The four forms: a direct register at each end of the range, address mode, data mode, any other mode. -/
theorem wit_DirectUnderEnvRef :
    let s := st (acc 31 0 0) [] [] 2
    let a := st (acc 0x0E 0 0) [(0x0D, 0x001F)] [] 2
    let d := st (acc 0x0E 0 0) [(0x0D, 0x401F)] [] 2
    let o := st (acc 0x0E 0 0) [] [] 2
    quietFor 1 s [quiet] ∧ quietFor 2 s [] ∧ quietFor 1 a [quiet] ∧ quietFor 2 a [] ∧ quietFor 1 d [quiet] ∧
      quietFor 2 d [] ∧ quietFor 1 o [quiet] ∧ quietFor 2 o [] ∧
      s.ops.aAddr.toNat = (31 : Direct5).toNat ∧ (31 : Direct5) ≠ s.rm.mmdData ∧ (0 : Direct5) ≠ s.rm.mmdData ∧
      a.ops.aAddr.toNat = a.rm.mmdData.toNat ∧ a.phy.direct a.rm.mmdCtl = a.rm.mmdAddrWord ∧
      d.phy.direct d.rm.mmdCtl ≠ d.rm.mmdAddrWord ∧ d.phy.direct d.rm.mmdCtl = d.rm.mmdDataWord ∧
      o.phy.direct o.rm.mmdCtl ≠ o.rm.mmdAddrWord ∧ o.phy.direct o.rm.mmdCtl ≠ o.rm.mmdDataWord := by
  unfold quietFor
  decide +kernel

theorem wit_ExtendedAccessUnderEnvRef :
    let s := st (acc 0xFFFF 0x00FF 0x0030) [] [] 6
    s.rm.wf = true ∧ quietFor 4 s [quiet, quiet] ∧ quietFor 5 s [quiet] := by
  unfold quietFor
  decide +kernel

theorem wit_DirectReadReachesSelectedRegister :
    let s := st (acc 0x0086 0x00FF 0x0030) [] [(0x86, 0x0077)] 6
    s.rm.wf = true ∧ quietFor 5 s [quiet] ∧ quietFor 6 s [] ∧
      (∀ i ∈ [Instr.rdx, .wrx, .rmwx], exec i s = .next (run1 i s)) ∧
      exec .rdd { run1 .rdx s with ops := { s.ops with aAddr := s.rm.mmdData.setWidth 16 } } =
        .next (run1 .rdd { run1 .rdx s with ops := { s.ops with aAddr := s.rm.mmdData.setWidth 16 } }) := by
  refine ⟨by decide +kernel, ⟨rfl, rfl⟩, ⟨rfl, rfl⟩, ?_, rfl⟩
  exact fun i _ => by cases i <;> rfl

theorem wit_ExtendedSubopsUnderEnvRef :
    let s := st { z with pLinkMode := 1, pTxShift := 1 } [] [] 5
    s.rm.wf = true ∧ quietFor 5 s [] ∧ quietFor 4 s [quiet] ∧ (s.ops.pLoopEn = 0) := by
  unfold quietFor
  decide +kernel

/-- The ends of the valid ranges. -/
theorem wit_OpenSubopsUnderEnvRef :
    let s := st { z with pTxDelay := 4000, pImped := 35000, pFifo := 3 } [] [] 5
    let u := st { z with pRxDelay := 4000, pImped := 70000, pFifo := 8 } [] [] 2
    s.rm.wf = true ∧ s.ops.pTxDelay.toNat ≤ 4000 ∧ s.ops.pRxDelay.toNat ≤ 4000 ∧
      quietFor (2 + selections s.rm.clkDelay) s [] ∧ 35000 ≤ s.ops.pImped.toNat ∧ s.ops.pImped.toNat ≤ 70000 ∧
      35000 ≤ u.ops.pImped.toNat ∧ u.ops.pImped.toNat ≤ 70000 ∧ quietFor (2 + selections s.rm.imped) s [] ∧
      fifoCode s.rm s.ops.pFifo = some 0 ∧ fifoCode u.rm u.ops.pFifo = some 3 ∧
      quietFor (2 + selections u.rm.fifo) u [] ∧ quietFor (2 + selections s.rm.gpio) s [] ∧
      quietFor (1 + selections u.rm.led) u [quiet] := by
  unfold quietFor
  decide +kernel

theorem wit_ConditionalSubopsUnderEnvRef :
    let s := st z [] [] 4
    let e := st { z with pMdixEn := 1 } [] [] 4
    let f := st z [] [(0x6F, 0x0400)] 9
    s.rm.wf = true ∧ s.ops.pMdixEn = 0 ∧ quietFor 2 s [quiet, quiet] ∧ e.ops.pMdixEn = 1 ∧ quietFor 4 e [] ∧
      s.phy.ext s.rm.strap &&& s.rm.fldStrapBit = 0 ∧ quietFor 4 s [] ∧
      f.phy.ext f.rm.strap &&& f.rm.fldStrapBit ≠ 0 ∧ quietFor (6 + selections f.rm.fldThr) f [] := by
  unfold quietFor
  decide +kernel

/-- A direct register, the MMD control register, and the strap register. -/
theorem wit_TransactionFrame :
    let s := st z [] [(0x6F, 0x0400)] 5
    let u := st z [] [] 2
    s.rm.wf = true ∧ quietFor (2 + selections (.ext 0x6F)) s [] ∧ quietFor (1 + selections (.ext 0x6F)) s [quiet] ∧
      .ext 0x6F = RegLoc.ext s.rm.strap ∧ quietFor (2 + selections (.direct 31)) u [] ∧
      quietFor (1 + selections (.direct 0x0D)) u [quiet] ∧
      ∀ l ∈ [RegLoc.ext 0x6F, .direct 31, .direct 0x0D], l ≠ .direct s.rm.mmdData := by
  unfold quietFor
  decide +kernel

/-- WRX of 0x00FE: the trace stores to the MMD control register and to that register; to no other, so not to the one
latched before; and RDX stores to the MMD control register alone. -/
theorem wit_UnwrittenRegistersKept :
    let s := st (acc 0x00FE 0 0xE720) [] [] 57
    stillFor 57 s ∧ exec .wrx s = .next (run1 .wrx s) ∧ (run1 .wrx s).phy.lost = false ∧
      storesTo s.rm 0 0 (run1 .wrx s).trace = [.direct 0x0D, .direct 0x0D, .ext 0x00FE] ∧
      storesTo s.rm 0 0 (run1 .rdx s).trace = [.direct 0x0D, .direct 0x0D] ∧
      ∀ e ∈ (run1 .rdd s).trace, writtenTo e ≠ some s.rm.mmdData := by
  refine ⟨⟨by decide +kernel, by decide +kernel⟩, rfl, ?_⟩
  decide +kernel

/-- With the reset bit set, with it clear, and draws of an event that completes, fails, and fails but lands. -/
theorem wit_EnvironmentSteps :
    let s := { st (acc 31 0 7) [(0x1F, 0x8000)] [] 0 with env := [{ quiet with moves := [.clearReset] }] }
    let u := { s with env := [{ quiet with fail := some 9, lands := true }] }
    s.phy.reg s.rm.ctrl &&& s.rm.resetBit ≠ 0 ∧ (phyAfterMoves s s.draw).reg s.rm.ctrl &&& s.rm.resetBit = 0 ∧
      (s.rm.ctrl = .ext s.rm.strap → s.rm.resetBit &&& s.rm.fldStrapBit = 0) ∧
      s.ops.aAddr.toNat = (31 : Direct5).toNat ∧ (31 : Direct5) ≠ s.rm.mmdData ∧ s.draw.fail = none ∧
      s.draw.value = none ∧ (phyAfterMoves s s.draw).lost = false ∧ u.draw.lands = true := by decide +kernel

theorem wit_StrapBitIsReadOnly : ∃ t, step { st z [] [] 0 with host := [.write 0x00 0x04] } = .next t := ⟨_, rfl⟩

theorem wit_UnitConversionsOnRange :
    4000 ≤ 4000 ∧ 0 ≤ 4000 ∧ 35000 ≤ 35000 ∧ 35000 ≤ 70000 ∧ 70000 ≤ 70000 := by decide

theorem wit_MaskedUpdateAndPlace :
    isField 0x8000 = true ∧ isField 0x00F0 = true ∧ isField 0xFFFF = true ∧ isField 0x0005 = false ∧
      rmRef.wf = true ∧ (rmRef.ledField3, p2.pLed3) ∈
        [(rmRef.ledField0, p2.pLed0), (rmRef.ledField1, p2.pLed1), (rmRef.ledField2, p2.pLed2),
          (rmRef.ledField3, p2.pLed3)] ∧
      isModeEnumeration gpioModeCount ((List.range 9).map (BitVec.ofNat 4)) = true ∧
      isModeEnumeration ledModeCount ((List.range 14).map (BitVec.ofNat 4)) = true := by decide +kernel

theorem wit_ConfigureCompletes :
    let s := st { p2 with pTxDelay := 4000, pRxDelay := 0, pImped := 35000, pFifo := 8 } p2d p2x 57
    s.ops.pTxDelay.toNat ≤ 4000 ∧ s.ops.pRxDelay.toNat ≤ 4000 ∧ 35000 ≤ s.ops.pImped.toNat ∧
      s.ops.pImped.toNat ≤ 70000 ∧ s.ops.pFifo.toNat ∈ [3, 4, 6, 8] ∧ succeedsFor 57 s := by
  unfold succeedsFor
  decide +kernel

theorem wit_ConfigureStopsAtInvalidDelay :
    (st { p2 with pTxDelay := 4001 } p2d p2x 57).ops.pTxDelay.toNat > 4000 ∧
      (st { p2 with pRxDelay := 4001 } p2d p2x 57).ops.pRxDelay.toNat > 4000 := by decide +kernel

theorem wit_ConfigureIgnoresGates :
    ((st { p2 with pLinkMode := 0 } p2d p2x 57).ops.pLinkMode.toNat = 1 ↔ (2 : BitVec 32).toNat = 1) ∧
      ((st p2 p2d p2x 57).ops.pLinkMode.toNat = 1 ↔ (1 : BitVec 32).toNat = 1) := by decide +kernel

theorem wit_SharedRegisterUpdatesSurvive :
    let s := st p2 [] [(0x32, 0x0051)] 10
    s.rm.wf = true ∧ s.rm.clkShift = s.rm.modeCtl ∧ quietFor 10 s [] ∧ exec .setlink s = .next (run1 .setlink s) ∧
      exec .setclksh (run1 .setlink s) = .next (run1 .setclksh (run1 .setlink s)) := by
  refine ⟨by decide +kernel, rfl, ⟨rfl, rfl⟩, rfl, rfl⟩

/-- Each clause of RDX's statement: a command that completed, and one that did not. -/
theorem wit_RdxOutcomes :
    (run1 .rdx (st (acc 0x00FE 0 0) [] [] 4)).trace =
        selectTrace 1 rmRef 0x00FE ++ [.read 1 rmRef.mmdData 0] ∧
      (run1 .rdx (stFail (acc 0x00FE 0 0) [] [] 3 0x44)).status ≠ 0x0000 := by decide +kernel

/-- Each clause of SETFIFO's statement, at both ends of the set and beside it. -/
theorem wit_SetfifoOutcomes :
    { z with pFifo := 2 }.pFifo.toNat ∉ [3, 4, 6, 8] ∧ { z with pFifo := 9 }.pFifo.toNat ∉ [3, 4, 6, 8] ∧
      { z with pFifo := 3 }.pFifo.toNat = 3 ∧ { z with pFifo := 8 }.pFifo.toNat = 8 := by decide

/-- Each clause of the reset commands' statements: a command that ended OK, and one that did not. -/
theorem wit_ResetOutcomes :
    (run1 .reset (st z [] [] 2)).status = 0x0000 ∧ (run1 .reset (stFail z [] [] 0 0x09)).status ≠ 0x0000 ∧
      (run1 .isrstdone (stFail z [] [] 0 0x09)).status ≠ 0x0000 ∧
      (run1 .isrstdone (st z [] [] 1)).trace = readTrace 1 rmRef 0 rmRef.ctrl := by decide +kernel

theorem wit_ResetMachineUnderEnvRef :
    let s := st z [(0x1F, 0x0040)] [] 2
    s.rm.wf = true ∧ quietFor (2 + selections s.rm.ctrl) s [] ∧ quietFor (1 + selections s.rm.ctrl) s [quiet] := by
  unfold quietFor
  decide +kernel

/-- A next state of a command, for the statements whose hypothesis is one; and a draw that gives a read's value. -/
theorem wit_FirstFailureEndsCommand : (∃ t, exec .configure (stFail p2 p2d p2x 27 0x44) = .next t) ∧
    ∃ s : State, (run1 .rdd s).trace[0]?.bind readResult = some 0x1234 ∧ (drawAt s 0).value = some 0x1234 :=
  ⟨⟨_, rfl⟩, { st (acc 1 0 0) [] [] 0 with env := [{ quiet with value := some 0x1234 }] }, by decide +kernel⟩

theorem wit_CommandFrame : (∃ t, exec .rdd (st (acc 31 0 0) [] [] 1) = .next t) ∧
    (run1 .rdd (st (acc 32 0 0) [] [] 1)).status ≠ 0x0000 ∧ Instr.wrd ∉ [Instr.rdd, .rdx] ∧
    Instr.rdd ∉ [Instr.ident, .linksup, .isrstdone] ∧ Instr.rdd ∉ [Instr.reset, .isrstdone] := by
  refine ⟨⟨_, rfl⟩, by decide +kernel, by decide, by decide, by decide⟩

theorem wit_UnreadOperandsDoNotMatter : Operand.aVal ∉ operandsRead .rdd ∧ Operand.pLoopEn ∉ operandsRead .configure := by
  decide

theorem wit_HostFaultMarksUnwrittenOperands :
    operandsWritten .configure (st p2 [] [] 0) ∧ (run1 .configure (st p2 p2d p2x 57)).status = 0x0000 ∧
      operandsReached .configure (st { p2 with pTxDelay := 4001 } p2d p2x 57) (st z [] [] 0) =
        [.pLinkMode, .pTxShift, .pRxShift, .pTxDelay, .pRxDelay] ∧
      (operandsRead .setimped).head? = some .pImped ∧
      .pImped ∈ (State.resetWith rmRef 1).unwritten := by
  unfold operandsWritten
  decide +kernel

theorem wit_EveryCommandEnds : (run1 .rdd (st (acc 32 0 0) [] [] 0)).status = 0x0001 := by decide +kernel

/-- CONFIGURE of program P2 after the five events of SETLINK (V90), with sub-operation 1 in progress. -/
def afterSetlink : State :=
  { st p2 p2d p2x 52 with
    seq := .running 0x30 1 5
    trace := selectTrace 1 rmRef 0x0032 ++ [.read 1 0x0E 0x0051, .write 1 0x0E 0x00D1] }

/-- SEQ and the bus trace after `n` steps of CONFIGURE of program P2. -/
def midConfigure (n : Nat) : Option (Seq × List BusEvent) :=
  match Sys2Proof.core.run n (issue .configure (st p2 p2d p2x 57)) with
  | .next t => some (t.seq, t.trace)
  | _ => none

/-- R30: `s` grows with each event, `k` with the fifth, the last of SETLINK. -/
theorem test_configure_seq :
    (midConfigure 4).map Prod.fst = some (.running 0x30 0 4) ∧
      midConfigure 5 = some (afterSetlink.seq, afterSetlink.trace) := by decide +kernel

/-- Also for EngineNeverFaults: the invariant holds of an idle state that lists PHY registers, of one with a
command in progress, and of one inside CONFIGURE. -/
theorem wit_StepKeepsInv :
    (Inv (st z [(0x1F, 0x0040)] [] 1) ∧ ∃ t, step (st z [(0x1F, 0x0040)] [] 1) = .next t) ∧
      (Inv (issue .isrstdone (st z [(0x1F, 0x0040)] [] 1)) ∧
        (issue .isrstdone (st z [(0x1F, 0x0040)] [] 1)).busy = true ∧
        ∃ t, step (issue .isrstdone (st z [(0x1F, 0x0040)] [] 1)) = .next t) ∧
      (Inv afterSetlink ∧ afterSetlink.busy = true ∧ ∃ t, step afterSetlink = .next t) := by
  have hm : memoryCanonical (st z [(0x1F, 0x0040)] [] 1) := by unfold memoryCanonical; decide +kernel
  have hc : memoryCanonical afterSetlink := by unfold memoryCanonical; decide +kernel
  exact ⟨⟨⟨hm, ⟨.ok, rfl⟩, trivial⟩, _, rfl⟩,
    ⟨⟨hm, ⟨.ok, rfl⟩, by decide, rfl, rfl, .isrstdone, rfl, _, rfl, trivial⟩, rfl, _, rfl⟩,
    ⟨⟨hc, ⟨.ok, rfl⟩, by decide, by decide +kernel, rfl, .configure, rfl, _, rfl, trivial⟩, rfl, _, rfl⟩⟩

/-- A busy step and a command whose trace has more than one event. -/
theorem wit_OneEventAtATimeIsExec :
    (afterSetlink.busy = true ∧ ∃ t, step afterSetlink = .next t) ∧
      (run1 .rmwd (st (acc 16 1 1) [] [] 2)).trace.length = 2 := ⟨⟨rfl, _, rfl⟩, by decide +kernel⟩

end Sys2Proof.Tests
end

section
/-! Fields and masks: which bits a field has (00_scope.md R13), what `merge` and `place` leave in a mask
(R108, 30_encoding.md R90), and the LED and GPIO words built of them (42_config_subops.md R133, R134). -/

namespace Sys2Proof.Machine

theorem merge_and_not (cur m v : Word) : merge cur m v &&& ~~~m = cur &&& ~~~m := by
  simp [merge, BitVec.and_or_distrib_right, BitVec.and_assoc]

theorem merge_and_mask (cur m v : Word) : merge cur m v &&& m = v &&& m := by
  simp [merge, BitVec.and_or_distrib_right, BitVec.and_assoc]

@[simp] theorem place_and_mask (m : Word) (n : Nat) : place m n &&& m = place m n := by
  simp [place, BitVec.and_assoc]

theorem place_and_not (m : Word) (n : Nat) : place m n &&& ~~~m = 0 := by
  simp [place, BitVec.and_assoc]

theorem place_and_of_disjoint {m f : Word} (h : m &&& f = 0) (n : Nat) : place m n &&& f = 0 := by
  simp [place, BitVec.and_assoc, h]

/-- R13: the bits of a field are the `fieldWidth` ones from `fieldShift` on. -/
theorem getLsbD_of_isField {m : Word} (h : isField m = true) (i : Nat) :
    m.getLsbD i = decide (i < 16 ∧ fieldShift m ≤ i ∧ i < fieldShift m + fieldWidth m) := by
  simp only [isField, Bool.and_eq_true, beq_iff_eq] at h
  conv_lhs => rw [h.2]
  rw [BitVec.getLsbD_ofNat, Nat.testBit_mul_two_pow, Nat.testBit_two_pow_sub_one]
  grind

/-- R13: a field ends within the word. -/
theorem fieldWidth_le_of_isField {m : Word} (h : isField m = true) : fieldWidth m ≤ 16 - fieldShift m := by
  have hbits : (List.range 16).filter (fun i => m.getLsbD i) ⊆ List.range' (fieldShift m) (16 - fieldShift m) := by
    intro i hi
    simp only [getLsbD_of_isField h, List.mem_filter, decide_eq_true_eq, List.mem_range'_1] at hi ⊢
    omega
  simpa [fieldWidth] using (List.subperm_of_subset (List.nodup_range.filter _) hbits).length_le

/-- R13, R90: a field read back holds the low `fieldWidth` bits of the number placed there. -/
theorem place_shift_toNat {m : Word} (h : isField m = true) (n : Nat) :
    (place m n >>> fieldShift m).toNat = n % 2 ^ fieldWidth m := by
  have hw := fieldWidth_le_of_isField h
  refine Nat.eq_of_testBit_eq fun i => ?_
  rw [BitVec.testBit_toNat, BitVec.getLsbD_ushiftRight, place, BitVec.getLsbD_and, getLsbD_of_isField h,
    BitVec.getLsbD_ofNat, Nat.testBit_shiftLeft, Nat.testBit_mod_two_pow, Nat.add_sub_cancel_left]
  grind

theorem place_shift_toNat_of_isFieldOf {k : Nat} {m : Word} (h : isFieldOf k m = true) (n : Nat) :
    (place m n >>> fieldShift m).toNat = n % 2 ^ k := by
  simp only [isFieldOf, Bool.and_eq_true, beq_iff_eq] at h
  rw [place_shift_toNat h.1, h.2]

theorem fieldWidth_or_of_disjoint {m n : Word} (h : m &&& n = 0) :
    fieldWidth (m ||| n) = fieldWidth m + fieldWidth n := by
  have hbit (i : Nat) : ¬(m.getLsbD i = true ∧ n.getLsbD i = true) := by
    simpa using congrArg (BitVec.getLsbD · i) h
  simp only [fieldWidth, ← List.countP_eq_length_filter, BitVec.getLsbD_or]
  induction List.range 16 with
  | nil => rfl
  | cons i is ih => simp only [List.countP_cons]; grind

theorem eq_allOnes_of_fieldWidth {m : Word} (h : fieldWidth m = 16) : m = BitVec.allOnes 16 := by
  have hall : ∀ i < 16, m.getLsbD i = true := by
    simpa using List.length_filter_eq_length_iff.mp (h.trans List.length_range.symm)
  ext i hi
  rw [BitVec.getElem_allOnes]
  exact hall i hi

/-- R8, R48, R49: fewer codes than a 4-bit field has values leave a value out. -/
theorem exists_notMem_of_isModeEnumeration {n : Nat} (hn : n < 16) {codes : List (BitVec 4)}
    (h : isModeEnumeration n codes = true) : ∃ c, c ∉ codes := by
  have hlen : codes.length = n := by simp_all [isModeEnumeration]
  have hcard : codes.toFinset.card < (Finset.univ : Finset (BitVec 4)).card := by
    calc codes.toFinset.card ≤ codes.length := codes.toFinset_card_le
      _ < 16 := by omega
      _ = (Finset.univ : Finset (BitVec 4)).card := by decide
  obtain ⟨c, -, hc⟩ := Finset.exists_mem_notMem_of_card_lt_card hcard
  exact ⟨c, by simpa using hc⟩

/-- Each number in the field beside it, one word of them all. -/
def placeAll (cs : List (Word × BitVec 32)) : Word := cs.foldr (fun p w => place p.1 p.2.toNat ||| w) 0

@[simp] theorem placeAll_nil : placeAll [] = 0 := rfl

@[simp] theorem placeAll_cons (f : Word) (c : BitVec 32) (cs : List (Word × BitVec 32)) :
    placeAll ((f, c) :: cs) = place f c.toNat ||| placeAll cs := rfl

theorem placeAll_and_of_disjoint {f : Word} {cs : List (Word × BitVec 32)} (h : ∀ p ∈ cs, p.1 &&& f = 0) :
    placeAll cs &&& f = 0 := by
  induction cs with
  | nil => simp
  | cons p cs ih =>
    rw [List.forall_mem_cons] at h
    rw [placeAll_cons, BitVec.and_or_distrib_right, place_and_of_disjoint h.1, ih h.2]
    simp

theorem placeAll_and_mask {f : Word} {c : BitVec 32} {cs : List (Word × BitVec 32)}
    (hd : cs.Pairwise fun p q => p.1 &&& q.1 = 0) (h : (f, c) ∈ cs) : placeAll cs &&& f = place f c.toNat := by
  induction cs with
  | nil => simp at h
  | cons p cs ih =>
    obtain ⟨hp, hcs⟩ := List.pairwise_cons.mp hd
    rw [placeAll_cons, BitVec.and_or_distrib_right]
    rcases List.mem_cons.mp h with rfl | h
    · rw [place_and_mask, placeAll_and_of_disjoint fun q hq => (BitVec.and_comm _ _).trans (hp q hq)]
      simp
    · rw [place_and_of_disjoint (hp _ h), ih hcs h]
      simp

/-- R90, R141: in a word of disjoint fields each field holds its number's low bits. -/
theorem placeAll_shift_toNat {k : Nat} {f : Word} {c : BitVec 32} {cs : List (Word × BitVec 32)}
    (hf : ∀ p ∈ cs, isFieldOf k p.1 = true) (hd : cs.Pairwise fun p q => p.1 &&& q.1 = 0) (h : (f, c) ∈ cs) :
    ((placeAll cs &&& f) >>> fieldShift f).toNat = c.toNat % 2 ^ k := by
  rw [placeAll_and_mask hd h, place_shift_toNat_of_isFieldOf (hf _ h)]

/-- R134: the fields of the LED register, each with its operand. -/
def ledCodes (rm : RegMap) (b : Operands) : List (Word × BitVec 32) :=
  [(rm.ledField0, b.pLed0), (rm.ledField1, b.pLed1), (rm.ledField2, b.pLed2), (rm.ledField3, b.pLed3)]

theorem ledWord_eq_placeAll (rm : RegMap) (b : Operands) : ledWord rm b = placeAll (ledCodes rm b) := by
  simp [ledWord, ledCodes, BitVec.or_assoc]

/-- R133: the fields of the GPIO register, each with its operand. -/
def gpioCodes (rm : RegMap) (b : Operands) : List (Word × BitVec 32) :=
  [(rm.gpio0, b.pGpio0), (rm.gpio1, b.pGpio1)]

theorem gpioValue_eq_placeAll (rm : RegMap) (b : Operands) :
    place rm.gpio0 b.pGpio0.toNat ||| place rm.gpio1 b.pGpio1.toNat = placeAll (gpioCodes rm b) := by
  simp [gpioCodes]

theorem RegMap.wfLed_of_wf {rm : RegMap} (h : rm.wf = true) : rm.wfLed = true := by
  simp_all [RegMap.wf]

theorem RegMap.wfGpio_of_wf {rm : RegMap} (h : rm.wf = true) : rm.wfGpio = true := by
  simp_all [RegMap.wf]

/-- R49: the LED fields are four bits wide and disjoint. -/
theorem RegMap.ledCodes_disjoint {rm : RegMap} (h : rm.wf = true) (b : Operands) :
    (∀ p ∈ ledCodes rm b, isFieldOf 4 p.1 = true) ∧ (ledCodes rm b).Pairwise fun p q => p.1 &&& q.1 = 0 := by
  simpa [RegMap.wfLed, ledCodes, and_assoc] using RegMap.wfLed_of_wf h

/-- R48: the GPIO fields are four bits wide and disjoint. -/
theorem RegMap.gpioCodes_disjoint {rm : RegMap} (h : rm.wf = true) (b : Operands) :
    (∀ p ∈ gpioCodes rm b, isFieldOf 4 p.1 = true) ∧ (gpioCodes rm b).Pairwise fun p q => p.1 &&& q.1 = 0 := by
  simpa [RegMap.wfGpio, gpioCodes, and_assoc] using RegMap.wfGpio_of_wf h

/-- R49: four disjoint nibbles have sixteen bits, so they cover the word. -/
theorem RegMap.ledFields_cover {rm : RegMap} (h : rm.wf = true) :
    rm.ledField0 ||| rm.ledField1 ||| rm.ledField2 ||| rm.ledField3 = 0xFFFF := by
  have hled := RegMap.wfLed_of_wf h
  simp only [RegMap.wfLed, isFieldOf, Bool.and_eq_true, beq_iff_eq, decide_eq_true_eq, List.pairwise_cons,
    List.forall_mem_cons] at hled
  obtain ⟨⟨⟨⟨⟨-, w0⟩, -, w1⟩, -, w2⟩, -, w3⟩, ⟨d01, d02, d03, -⟩, ⟨d12, d13, -⟩, ⟨d23, -⟩, -⟩ := hled
  have d2 : (rm.ledField0 ||| rm.ledField1) &&& rm.ledField2 = 0 := by
    simp [BitVec.and_or_distrib_right, d02, d12]
  have d3 : (rm.ledField0 ||| rm.ledField1 ||| rm.ledField2) &&& rm.ledField3 = 0 := by
    simp [BitVec.and_or_distrib_right, d03, d13, d23]
  refine eq_allOnes_of_fieldWidth ?_
  rw [fieldWidth_or_of_disjoint d3, fieldWidth_or_of_disjoint d2, fieldWidth_or_of_disjoint d01, w0, w1, w2, w3]

end Sys2Proof.Machine
end

section
/-! The statements of 00_scope.md settled. -/

namespace Sys2Proof.Proofs

open Sys2Proof.Machine

/-- Settles O42: bit by bit for `merge` and `place`, by the disjoint fields of `RegMap.wf` for the LED and GPIO
words, and by counting for the mode codes. -/
theorem maskedUpdateAndPlace : Obligations.MaskedUpdateAndPlace := by
  refine ⟨fun cur m v => ⟨⟨merge_and_not cur m v, merge_and_mask cur m v⟩, fun n =>
    ⟨place_and_not m n, fun hm => place_shift_toNat hm n⟩⟩, fun rm b hwf => ⟨RegMap.ledFields_cover hwf, ?_, ?_⟩, ?_⟩
  · intro f c hfc
    obtain ⟨hf, hd⟩ := RegMap.ledCodes_disjoint hwf b
    rw [ledWord_eq_placeAll]
    exact placeAll_shift_toNat hf hd hfc
  · intro f c hfc
    obtain ⟨hf, hd⟩ := RegMap.gpioCodes_disjoint hwf b
    rw [gpioValue_eq_placeAll]
    exact placeAll_shift_toNat hf hd hfc
  · rintro codes (h | h)
    · exact exists_notMem_of_isModeEnumeration (by decide) h
    · exact exists_notMem_of_isModeEnumeration (by decide) h

end Sys2Proof.Proofs
end

section
/-! A wired sequence and the bus trace it has carried out: the event it is at, the sub-operation SEQ shows there
(10_state.md R30, 43_configure.md R151), and what holds of every operand read, mark and end of a sequence. -/

namespace Sys2Proof.Machine

open Sys2Proof.Safety

/-- The event or end a sequence is at once it has carried out a bus trace (R30). -/
def Act.ahead (dev : Nat) (p : Act) (t : List BusEvent) : Option Act := (p.after dev t).map Act.pending

@[simp] theorem Act.ahead_nil (dev : Nat) (p : Act) : p.ahead dev [] = some p.pending := by
  simp [Act.ahead]

@[simp] theorem Act.ahead_use (dev : Nat) (o : Operand) (p : Act) (t : List BusEvent) :
    (Act.use o p).ahead dev t = p.ahead dev t := by
  cases t <;> simp [Act.ahead, Act.after, Act.pending]

@[simp] theorem Act.ahead_sub (dev k : Nat) (p : Act) (t : List BusEvent) :
    (Act.sub k p).ahead dev t = p.ahead dev t := by
  cases t <;> simp [Act.ahead, Act.after, Act.pending]

theorem Act.ahead_fin {dev : Nat} {e : Ending} {t : List BusEvent} {q : Act} :
    (Act.fin e).ahead dev t = some q ↔ t = [] ∧ q = .fin e := by
  by_cases ht : t = [] <;> simp [Act.ahead, Act.after, Act.pending, ht, eq_comm]

theorem Act.after_tr_cons {dev : Nat} {a : Direct5} {f : Word → Act} {x : BusEvent} {t : List BusEvent} {q : Act} :
    (Act.tr a f).after dev (x :: t) = some q ↔ ∃ v, x = .read dev a v ∧ (f v).after dev t = some q := by
  cases x <;> simp [Act.after, and_assoc]

theorem Act.after_tw_cons {dev : Nat} {a : Direct5} {v : Word} {p : Act} {x : BusEvent} {t : List BusEvent}
    {q : Act} :
    (Act.tw a v p).after dev (x :: t) = some q ↔ x = .write dev a v ∧ p.after dev t = some q := by
  cases x <;> simp [Act.after, and_assoc]

theorem Act.ahead_tr_cons {dev : Nat} {a : Direct5} {f : Word → Act} {x : BusEvent} {t : List BusEvent} {q : Act} :
    (Act.tr a f).ahead dev (x :: t) = some q ↔ ∃ v, x = .read dev a v ∧ (f v).ahead dev t = some q := by
  simp only [Act.ahead, Option.map_eq_some_iff, Act.after_tr_cons]
  tauto

theorem Act.ahead_tw_cons {dev : Nat} {a : Direct5} {v : Word} {p : Act} {x : BusEvent} {t : List BusEvent}
    {q : Act} :
    (Act.tw a v p).ahead dev (x :: t) = some q ↔ x = .write dev a v ∧ p.ahead dev t = some q := by
  simp only [Act.ahead, Option.map_eq_some_iff, Act.after_tw_cons]
  tauto

theorem Act.ahead_append {dev : Nat} {p q r : Act} {t : List BusEvent} {x : BusEvent}
    (h : p.ahead dev t = some q) (hr : q.after dev [x] = some r) : p.ahead dev (t ++ [x]) = some r.pending := by
  obtain ⟨p', hp', rfl⟩ := Option.map_eq_some_iff.mp h
  rw [Act.ahead, Act.after_append dev p t x hp', hr, Option.map_some]

/-- The sub-operation SEQ shows once a sequence entered at `k` has carried out a bus trace and is at its next event
(R30, R151). -/
def Act.mark : Act → List BusEvent → Nat → Nat
  | .fin _, _, k => k
  | .use _ p, t, k => p.mark t k
  | .sub k' p, t, _ => p.mark t k'
  | .tr _ f, t, k =>
    match t with
    | .read _ _ v :: t' => (f v).mark t' k
    | _ => k
  | .tw _ _ p, t, k =>
    match t with
    | .write _ _ _ :: t' => p.mark t' k
    | _ => k

theorem Act.mark_append {dev : Nat} {p q r : Act} {t : List BusEvent} {x : BusEvent}
    (h : p.ahead dev t = some q) (hr : q.after dev [x] = some r) (k : Nat) :
    p.mark (t ++ [x]) k = r.mark [] (p.mark t k) := by
  induction p generalizing t k with
  | fin e =>
    obtain ⟨-, rfl⟩ := Act.ahead_fin.mp h
    simp [Act.after] at hr
  | use o p ih => exact ih (by simpa using h) k
  | sub j p ih => exact ih (by simpa using h) j
  | tr a f ih =>
    cases t with
    | nil =>
      cases (Act.ahead_nil dev _).symm.trans h
      obtain ⟨v, rfl, hv⟩ := Act.after_tr_cons.mp hr
      cases (Act.after_nil dev _).symm.trans hv
      rfl
    | cons y t =>
      obtain ⟨v, rfl, hv⟩ := Act.ahead_tr_cons.mp h
      exact ih v hv k
  | tw a v p ih =>
    cases t with
    | nil =>
      cases (Act.ahead_nil dev _).symm.trans h
      obtain ⟨rfl, hv⟩ := Act.after_tw_cons.mp hr
      cases (Act.after_nil dev _).symm.trans hv
      rfl
    | cons y t =>
      obtain ⟨rfl, hv⟩ := Act.ahead_tw_cons.mp h
      exact ih hv k

/-- Every operand a sequence reads, every mark and every end of it, on all its paths. -/
def Act.all (U : Operand → Prop) (S : Nat → Prop) (E : Ending → Prop) : Act → Prop
  | .fin e => E e
  | .use o p => U o ∧ p.all U S E
  | .sub k p => S k ∧ p.all U S E
  | .tr _ f => ∀ v, (f v).all U S E
  | .tw _ _ p => p.all U S E

section
variable {U U' : Operand → Prop} {S S' : Nat → Prop} {E E' : Ending → Prop}

theorem Act.all.imp {p : Act} (h : p.all U S E) (hU : ∀ o, U o → U' o) (hS : ∀ k, S k → S' k)
    (hE : ∀ e, E e → E' e) : p.all U' S' E' := by
  induction p with
  | fin e => exact hE e h
  | use o p ih => exact ⟨hU o h.1, ih h.2⟩
  | sub k p ih => exact ⟨hS k h.1, ih h.2⟩
  | tr a f ih => exact fun v => ih v (h v)
  | tw a v p ih => exact ih h

@[simp] theorem Act.all_fin (e : Ending) : (Act.fin e).all U S E ↔ E e := Iff.rfl

@[simp] theorem Act.all_use (o : Operand) (p : Act) : (Act.use o p).all U S E ↔ U o ∧ p.all U S E := Iff.rfl

@[simp] theorem Act.all_tr (a : Direct5) (f : Word → Act) :
    (Act.tr a f).all U S E ↔ ∀ v, (f v).all U S E := Iff.rfl

@[simp] theorem Act.all_tw (a : Direct5) (v : Word) (p : Act) : (Act.tw a v p).all U S E ↔ p.all U S E := Iff.rfl

@[simp] theorem Act.all_ite (c : Prop) [Decidable c] (p q : Act) :
    (if c then p else q).all U S E ↔ (c → p.all U S E) ∧ (¬c → q.all U S E) := by
  by_cases hc : c <;> simp [hc]

@[simp] theorem Act.all_useAll (os : List Operand) (p : Act) :
    (useAll os p).all U S E ↔ (∀ o ∈ os, U o) ∧ p.all U S E := by
  induction os with
  | nil => simp [useAll]
  | cons o os ih => simp [useAll, ih, and_assoc]

@[simp] theorem Act.all_xsel (rm : RegMap) (x : Ext16) (p : Act) : (xsel rm x p).all U S E ↔ p.all U S E := Iff.rfl

@[simp] theorem Act.all_rdLoc (rm : RegMap) (l : RegLoc) (f : Word → Act) :
    (rdLoc rm l f).all U S E ↔ ∀ v, (f v).all U S E := by
  cases l <;> simp [rdLoc]

@[simp] theorem Act.all_wrLoc (rm : RegMap) (l : RegLoc) (v : Word) (p : Act) :
    (wrLoc rm l v p).all U S E ↔ p.all U S E := by
  cases l <;> simp [wrLoc]

@[simp] theorem Act.all_rmwLoc (rm : RegMap) (l : RegLoc) (m v : Word) (p : Act) :
    (rmwLoc rm l m v p).all U S E ↔ p.all U S E := by
  cases l <;> simp [rmwLoc]

theorem Act.all_withDirect (addr : BitVec 16) {f : Direct5 → Act} (hi : E .invalid) (h : ∀ a, (f a).all U S E) :
    (withDirect addr f).all U S E := by
  unfold withDirect
  split
  · exact hi
  · exact h _

theorem Act.all_andThen {p q : Act} (hp : p.all U S E) (hq : q.all U S E) : (p.andThen q).all U S E := by
  induction p with
  | fin e =>
    unfold Act.andThen
    split
    · exact hq
    · exact hp
  | use o p ih => exact ⟨hp.1, ih hp.2⟩
  | sub k p ih => exact ⟨hp.1, ih hp.2⟩
  | tr a f ih => exact fun v => ih v (hp v)
  | tw a v p ih => exact ih hp

theorem Act.all_chain {ps : List Act} (hS : ∀ k, S k) (hE : E .ok) (h : ∀ p ∈ ps, p.all U S E) (k : Nat) :
    (chain k ps).all U S E := by
  induction ps generalizing k with
  | nil => exact hE
  | cons p ps ih =>
    rw [List.forall_mem_cons] at h
    exact ⟨hS k, Act.all_andThen h.1 (ih h.2 (k + 1))⟩

theorem Act.all.of_leads {dev : Nat} {p : Act} {t : List BusEvent} {e : Ending} (h : p.all U S E)
    (hl : p.leads dev t e) : E e := by
  induction p generalizing t with
  | fin x =>
    obtain ⟨-, rfl⟩ := hl
    exact h
  | use o p ih => exact ih h.2 hl
  | sub k p ih => exact ih h.2 hl
  | tr a f ih =>
    obtain ⟨v, t', -, hl⟩ := hl
    exact ih v (h v) hl
  | tw a v p ih =>
    obtain ⟨t', -, hl⟩ := hl
    exact ih h hl

end

/-- A body without marks, and what comes after it: the trace has either not carried the body to its `return`, and SEQ
shows what it showed, or is that far and on in what comes after it (R151). -/
theorem Act.ahead_andThen {dev : Nat} {p q r : Act} {t : List BusEvent}
    (hp : p.all (fun _ => True) (fun _ => False) (fun _ => True)) (h : (p.andThen q).ahead dev t = some r)
    (hr : hasEvent r) (k : Nat) :
    (pastReturn p t = none ∧ (p.andThen q).mark t k = k) ∨
      ∃ t', pastReturn p t = some t' ∧ q.ahead dev t' = some r ∧ (p.andThen q).mark t k = q.mark t' k := by
  induction p generalizing t with
  | fin e =>
    by_cases he : e.result = .ok
    · simp only [Act.andThen, he, if_true] at h
      exact .inr ⟨t, by simp [he], h, by simp [Act.andThen, he]⟩
    · simp only [Act.andThen, he, if_false] at h
      obtain ⟨-, rfl⟩ := Act.ahead_fin.mp h
      exact hr.elim
  | use o p ih => exact ih hp.2 (by simpa [Act.andThen] using h)
  | sub j p ih => exact hp.1.elim
  | tr a f ih =>
    cases t with
    | nil => exact .inl ⟨rfl, rfl⟩
    | cons x t =>
      obtain ⟨v, rfl, hv⟩ := Act.ahead_tr_cons.mp h
      exact ih v (hp v) hv
  | tw a v p ih =>
    cases t with
    | nil => exact .inl ⟨rfl, rfl⟩
    | cons x t =>
      obtain ⟨rfl, hv⟩ := Act.ahead_tw_cons.mp h
      exact ih hp hv

/-- R30, R151: while a chain of bodies is at an event, SEQ shows how many of them the trace has carried to their
`return`. -/
theorem mark_chain {dev : Nat} {ps : List Act} {j : Nat} {t : List BusEvent} {r : Act}
    (hps : ∀ p ∈ ps, p.all (fun _ => True) (fun _ => False) (fun _ => True))
    (h : (chain j ps).ahead dev t = some r) (hr : hasEvent r) (k : Nat) :
    completedSubops ps t < ps.length ∧ (chain j ps).mark t k = j + completedSubops ps t := by
  induction ps generalizing j k t with
  | nil =>
    obtain ⟨-, rfl⟩ := Act.ahead_fin.mp h
    exact hr.elim
  | cons p ps ih =>
    rw [List.forall_mem_cons] at hps
    simp only [chain, Act.ahead_sub] at h
    simp only [chain, Act.mark, completedSubops, List.length_cons]
    obtain ⟨hpast, hmark⟩ | ⟨t', hpast, hq, hmark⟩ := Act.ahead_andThen hps.1 h hr j <;> rw [hpast, hmark]
    · exact ⟨Nat.succ_pos _, rfl⟩
    · obtain ⟨hlt, hm⟩ := ih hps.2 hq j
      exact ⟨Nat.succ_lt_succ hlt, hm.trans (Nat.add_right_comm j 1 _)⟩

end Sys2Proof.Machine
end

section
/-! One transport event of a command in progress (10_state.md R30, 20_memory.md R61): what the event does, what the
engine's own work after it does, and how the two add up to the rest of the command's run. -/

namespace Sys2Proof.Machine

open Sys2Proof.Safety

theorem encode_of_decodeOpcode {w : Opcode} {i : Instr} (h : decodeOpcode w = .ok i) : w = encode i := by
  unfold decodeOpcode at h
  split at h
  case h_1 r hr =>
    have hrow : ∀ r ∈ opcodeMap, r.mask = 0xFF ∧ r.pattern = encode r.instr := by decide
    obtain ⟨hmask, hpattern⟩ := hrow r (List.mem_of_find?_eq_some hr)
    have hw := List.find?_some hr
    cases h
    rw [← hpattern, ← beq_iff_eq.mp hw, hmask]
    exact (BitVec.and_allOnes (x := w)).symm
  case h_2 => cases h

theorem decodeOpcode_encode (i : Instr) : decodeOpcode (encode i) = .ok i := by
  cases i <;> rfl

theorem encode_inj {i j : Instr} (h : encode i = encode j) : i = j := by
  simpa [decodeOpcode_encode] using congrArg decodeOpcode h

/-- R85: a command's sequence depends on the register map and the operand registers only, but for what ISRSTDONE writes
to RSTATE. -/
theorem commandOf_congr {i : Instr} {s t : State} (hrm : t.rm = s.rm) (hops : t.ops = s.ops)
    (hr : i = .isrstdone → t.rstate = s.rstate) : commandOf i t = commandOf i s := by
  cases s
  cases t
  dsimp only at hrm hops hr
  subst hrm hops
  cases i
  case isrstdone => rw [hr rfl]; rfl
  all_goals rfl

/-- What a transport event with this record does to everything but SEQ (R16, R60, R76). -/
structure State.Happens (s : State) (x : BusEvent) (u : State) : Prop where
  trace : u.trace = s.trace ++ [x]
  env : u.env = s.env.tail
  tick : u.tick = s.tick + 1
  engine : SameEngine s u
  results : SameResults s u
  keeps : ∀ P : State → Prop, RunClosed P → P s → P u

/-- Where the next event of the sequence `q` takes the engine: a failure ends the command, and a completed event is
followed by the engine's own work; either way the run of `q` goes through the same state. -/
inductive EventStep (b : Option (BitVec 1)) (q : Act) (s : State) : State → Prop
  | failed {x : BusEvent} {k : Kind} {u : State} (hap : s.Happens x u)
      (hrun : run b q s = u.finish (.transport b k)) : EventStep b q s (u.finish (.transport b k))
  | completed {x : BusEvent} {u : State} {r : Act} (hap : s.Happens x u) (hseq : u.seq = s.seq.count)
      (hafter : q.after s.devAddr [x] = some r) (hrun : run b q s = run b r u) : EventStep b q s (advance r u)

theorem State.Happens.of_read {s u : State} {x : BusEvent} {a : Direct5} {r : Except Kind Word}
    (h : transportRead a s = (r, u)) (ht : u.trace = s.trace ++ [x]) (he : u.env = s.env.tail)
    (hk : u.tick = s.tick + 1) (hs : SameEngine s u) (hr : SameResults s u) : s.Happens x u :=
  ⟨ht, he, hk, hs, hr, fun P hP hp => by simpa [h] using hP.read s a hp⟩

theorem State.Happens.of_write {s u : State} {x : BusEvent} {a : Direct5} {v : Word} {r : Except Kind Unit}
    (h : transportWrite a v s = (r, u)) (ht : u.trace = s.trace ++ [x]) (he : u.env = s.env.tail)
    (hk : u.tick = s.tick + 1) (hs : SameEngine s u) (hr : SameResults s u) : s.Happens x u :=
  ⟨ht, he, hk, hs, hr, fun P hP hp => by simpa [h] using hP.write s a v hp⟩

/-- A command whose sequence is at an event performs that event (R30). -/
theorem oneEvent_of_ahead {c : Command} {s : State} {q : Act} (h : c.act.ahead s.devAddr s.trace = some q)
    (hq : hasEvent q) : ∃ t, oneEvent c s = .next t ∧ EventStep c.failBool q s t := by
  unfold oneEvent
  rw [show (c.act.after s.devAddr s.trace).map Act.pending = some q from h]
  cases q with
  | tr a f =>
    rcases transportRead_cases a s with
      ⟨k, u, e, _, ht, _, _, he, hk, hs, hr⟩ | ⟨v, u, e, _, _, ht, hseq, _, he, hk, hs, hr⟩ <;> simp only [e]
    · exact ⟨_, rfl, .failed (.of_read e ht he hk hs hr) (by simp only [run, e])⟩
    · exact ⟨_, rfl, .completed (.of_read e ht he hk hs hr) hseq (by simp [Act.after]) (by simp only [run, e])⟩
  | tw a v p =>
    rcases transportWrite_cases a v s with
      ⟨k, u, e, _, ht, _, _, he, hk, hs, hr⟩ | ⟨u, e, _, ht, hseq, _, he, hk, hs, hr⟩ <;> simp only [e]
    · exact ⟨_, rfl, .failed (.of_write e ht he hk hs hr) (by simp only [run, e])⟩
    · exact ⟨_, rfl, .completed (.of_write e ht he hk hs hr) hseq (by simp [Act.after]) (by simp only [run, e])⟩
  | fin | use | sub => exact hq.elim

/-- The engine moves only where its sequence is at an event (log entry 15). -/
theorem ahead_of_oneEvent {c : Command} {s t : State} (h : oneEvent c s = .next t) :
    ∃ q, c.act.ahead s.devAddr s.trace = some q ∧ hasEvent q := by
  unfold oneEvent at h
  split at h
  case h_1 a f hq => exact ⟨_, hq, trivial⟩
  case h_2 a v p hq => exact ⟨_, hq, trivial⟩
  case h_3 => cases h

/-- Everything a step of a busy engine can do. -/
theorem engineStep_cases {op : Opcode} {s t : State} (h : engineStep op s = .next t) :
    ∃ i q, op = encode i ∧ (commandOf i s).act.ahead s.devAddr s.trace = some q ∧ hasEvent q ∧
      EventStep (commandOf i s).failBool q s t := by
  unfold engineStep at h
  split at h
  case h_1 i hi =>
    obtain ⟨q, hq, hev⟩ := ahead_of_oneEvent h
    obtain ⟨t', ht', hstep⟩ := oneEvent_of_ahead hq hev
    cases ht'.symm.trans h
    exact ⟨i, q, encode_of_decodeOpcode hi, hq, hev, hstep⟩
  case h_2 => cases h

theorem engineStep_of_ahead {i : Instr} {s : State} {q : Act}
    (h : (commandOf i s).act.ahead s.devAddr s.trace = some q) (hq : hasEvent q) :
    ∃ t, engineStep (encode i) s = .next t ∧ EventStep (commandOf i s).failBool q s t := by
  rw [engineStep, decodeOpcode_encode]
  exact oneEvent_of_ahead h hq

/-- A property that every part of a run keeps is kept by one event of it. -/
theorem EventStep.keeps {P : State → Prop} (hP : RunClosed P) {b : Option (BitVec 1)} {q : Act} {s t : State}
    (h : EventStep b q s t) (hs : P s) : P t := by
  cases h with
  | failed hap => exact hP.fin _ _ (hap.keeps P hP hs)
  | completed hap => exact advance_keeps hP _ _ (hap.keeps P hP hs)

theorem engineStep_keeps {P : State → Prop} (hP : RunClosed P) {op : Opcode} {s t : State}
    (h : engineStep op s = .next t) (hs : P s) : P t := by
  obtain ⟨i, q, -, -, -, hstep⟩ := engineStep_cases h
  exact hstep.keeps hP hs

theorem exec_keeps {P : State → Prop} (hP : RunClosed P) {i : Instr} {s t : State} (h : exec i s = .next t)
    (hs : P (s.start (encode i))) : P t := by
  rw [exec_eq_runCommand] at h
  cases h
  exact run_keeps hP _ _ _ hs

/-! The engine's own work between two events -/

theorem run_eq_advance (b : Option (BitVec 1)) {p : Act} (h : ¬hasEvent p.pending) (s : State) :
    run b p s = advance p s := by
  induction p generalizing s with
  | fin e => rfl
  | use o p ih => exact ih h _
  | sub k p ih => exact ih h _
  | tr a f => exact (h trivial).elim
  | tw a v p => exact (h trivial).elim

theorem run_pending_advance (b : Option (BitVec 1)) {p : Act} (h : hasEvent p.pending) (s : State) :
    run b p.pending (advance p s) = run b p s := by
  induction p generalizing s with
  | fin e => exact h.elim
  | use o p ih => exact ih h _
  | sub k p ih => exact ih h _
  | tr a f => rfl
  | tw a v p => rfl

theorem advance_seq_of_not_hasEvent {p : Act} (h : ¬hasEvent p.pending) (s : State) : (advance p s).seq = .idle := by
  rw [← run_eq_advance none h, run_seq]

/-- Before its next event the engine only marks the sub-operation it has come to (R30). -/
theorem advance_seq_of_hasEvent {p : Act} (h : hasEvent p.pending) {s : State} {op : Opcode} {k n : Nat}
    (hs : s.seq = .running op k n) : (advance p s).seq = .running op (p.mark [] k) n := by
  induction p generalizing s k with
  | fin e => exact h.elim
  | use o p ih => exact ih h hs
  | sub j p ih => exact ih h (by rw [State.enterSub_seq, hs]; rfl)
  | tr a f => exact hs
  | tw a v p => exact hs

theorem advance_rstate_of_hasEvent {p : Act} (h : hasEvent p.pending) (s : State) :
    (advance p s).rstate = s.rstate := by
  induction p generalizing s with
  | fin e => exact h.elim
  | use o p ih => exact ih h _
  | sub k p ih => exact ih h _
  | tr a f => rfl
  | tw a v p => rfl

theorem advance_env (p : Act) (s : State) : (advance p s).env = s.env ∧ (advance p s).tick = s.tick := by
  induction p generalizing s with
  | fin e => exact ⟨rfl, rfl⟩
  | use o p ih => exact ih _
  | sub k p ih => exact ih _
  | tr a f => exact ⟨rfl, rfl⟩
  | tw a v p => exact ⟨rfl, rfl⟩

theorem advance_sameEngine (p : Act) (s : State) : SameEngine s (advance p s) :=
  advance_keeps (sameEngine_closed s) p s (.refl s)

theorem commandOf_advance (i : Instr) {p : Act} (h : hasEvent p.pending) (s : State) :
    commandOf i (advance p s) = commandOf i s :=
  commandOf_congr (advance_sameEngine p s).rm (advance_sameEngine p s).ops fun _ => advance_rstate_of_hasEvent h s

theorem State.Happens.commandOf_eq {s u : State} {x : BusEvent} (h : s.Happens x u) (i : Instr) :
    commandOf i u = commandOf i s :=
  commandOf_congr h.engine.rm h.engine.ops fun _ => h.results.rstate

/-- R16, R61: an event adds itself to the bus trace and uses up one draw. -/
theorem EventStep.records {b : Option (BitVec 1)} {q : Act} {s t : State} (h : EventStep b q s t) :
    ∃ x, t.trace = s.trace ++ [x] ∧ t.env = s.env.tail ∧ t.tick = s.tick + 1 := by
  cases h with
  | failed hap => exact ⟨_, hap.trace, hap.env, hap.tick⟩
  | @completed x u r hap =>
    obtain ⟨henv, htick⟩ := advance_env r u
    exact ⟨x, (advance_trace r u).trans hap.trace, henv.trans hap.env, htick.trans hap.tick⟩

/-- A command in progress: SEQ is at this command and place, and its sequence is at the event `q` (R30). -/
structure State.At (s : State) (i : Instr) (k n : Nat) (q : Act) : Prop where
  seq : s.seq = .running (encode i) k n
  ahead : (commandOf i s).act.ahead s.devAddr s.trace = some q
  event : hasEvent q

/-- The engine's own work leaves the command ended, or at its next event. -/
theorem advance_at (b : Option (BitVec 1)) {i : Instr} {r : Act} {u : State} {k n : Nat}
    (hseq : u.seq = .running (encode i) k n)
    (h : (commandOf i u).act.ahead u.devAddr u.trace = some r.pending) :
    ((advance r u).seq = .idle ∧ run b r u = advance r u) ∨
      (State.At (advance r u) i (r.mark [] k) n r.pending ∧ run b r u = run b r.pending (advance r u)) := by
  by_cases hr : hasEvent r.pending
  · refine .inr ⟨⟨advance_seq_of_hasEvent hr hseq, ?_, hr⟩, (run_pending_advance b hr u).symm⟩
    rw [commandOf_advance i hr, (advance_sameEngine r u).devAddr, advance_trace, h]
  · exact .inl ⟨advance_seq_of_not_hasEvent hr u, run_eq_advance b hr u⟩

theorem issue_trace (i : Instr) (s : State) : (issue i s).trace = [] := advance_trace _ _

/-- R30: issuing a command leaves it ended, or at its first event. -/
theorem issue_cases (i : Instr) (s : State) :
    ((issue i s).seq = .idle ∧ exec i s = .next (issue i s)) ∨
      ∃ q, commandOf i (issue i s) = commandOf i s ∧ (issue i s).At i ((commandOf i s).act.mark [] 0) 0 q ∧
        exec i s = .next (run (commandOf i s).failBool q (issue i s)) := by
  have hc : commandOf i (s.start (encode i)) = commandOf i s := commandOf_congr rfl rfl fun _ => rfl
  rw [exec_eq_runCommand, runCommand]
  obtain ⟨hidle, hrun⟩ | ⟨hat, hrun⟩ :=
    advance_at (commandOf i s).failBool (i := i) (r := (commandOf i s).act) (u := s.start (encode i)) rfl
      (by simp [hc])
  · exact .inl ⟨hidle, by rw [hrun]; rfl⟩
  · exact .inr ⟨_, (commandOf_advance i hat.event _).trans hc, hat, by rw [hrun]; rfl⟩

/-- R30: an event of a command in progress leaves it ended, with SEQ at IDLE, or at its next event. -/
theorem EventStep.cases_at {i : Instr} {s t : State} {k n : Nat} {q : Act}
    (h : EventStep (commandOf i s).failBool q s t) (hat : s.At i k n q) :
    (t.seq = .idle ∧ run (commandOf i s).failBool q s = t) ∨
      ∃ x r r', q.after s.devAddr [x] = some r ∧ t.trace = s.trace ++ [x] ∧ commandOf i t = commandOf i s ∧
        t.At i (r.mark [] k) (n + 1) r' ∧
        run (commandOf i s).failBool q s = run (commandOf i s).failBool r' t := by
  cases h with
  | failed hap hrun => exact .inl ⟨rfl, hrun⟩
  | @completed x u r hap hseq hafter hrun =>
    rw [hrun]
    have hu : u.seq = .running (encode i) k (n + 1) := by rw [hseq, hat.seq]; rfl
    have hahead : (commandOf i u).act.ahead u.devAddr u.trace = some r.pending := by
      rw [hap.commandOf_eq, hap.engine.devAddr, hap.trace]
      exact Act.ahead_append hat.ahead hafter
    obtain ⟨hidle, hr⟩ | ⟨hat', hr⟩ := advance_at (commandOf i s).failBool hu hahead
    · exact .inl ⟨hidle, hr⟩
    · exact .inr ⟨x, r, _, hafter, (advance_trace r u).trans hap.trace,
        (commandOf_advance i hat'.event u).trans (hap.commandOf_eq i), hat', hr⟩

end Sys2Proof.Machine
end

section
/-! What every command's sequence reads, marks and ends with (30_encoding.md R88), and how many events it has. -/

namespace Sys2Proof.Machine

open Sys2Proof.Safety

/-- The result registers a command's endings may write, by command (R23, R106, R110, R121, R122, R159, R160). -/
structure Ending.Fits (i : Instr) (e : Ending) : Prop where
  rval : i ∉ [.rdd, .rdx] ∨ e.result ≠ .ok → e.rval = none
  rbool : i ∉ [.ident, .linksup, .isrstdone] → e.rbool = none
  rstate : i ∉ [.reset, .isrstdone] → e.rstate = none

theorem Ending.fits_ok (i : Instr) : Ending.ok.Fits i := ⟨fun _ => rfl, fun _ => rfl, fun _ => rfl⟩

theorem Ending.fits_invalid (i : Instr) : Ending.invalid.Fits i := ⟨fun _ => rfl, fun _ => rfl, fun _ => rfl⟩

/-- A configuration sub-operation reads its own operands, marks nothing, and ends OK or InvalidParameter (R140). -/
theorem subop_all {i : Instr} (hi : i ∈ subopOrder) (s : State) :
    (commandOf i s).act.all (· ∈ operandsRead i) (fun _ => False) (fun e => e = .ok ∨ e = .invalid) := by
  cases i
  case setlink => simp [commandOf, setlinkAct, operandsRead]
  case setclksh => simp [commandOf, setclkshAct, operandsRead]
  case setclkdly => simp [commandOf, setclkdlyAct, operandsRead]
  case setimped => simp [commandOf, setimpedAct, operandsRead]
  case setfifo =>
    simp only [commandOf, setfifoAct]
    split <;> simp [operandsRead]
  case setgpio => simp [commandOf, setgpioAct, operandsRead]
  case setled => simp [commandOf, setledAct, operandsRead]
  case setmdix => simp [commandOf, setmdixAct, operandsRead]
  case setidle => simp [commandOf, setidleAct, operandsRead]
  case setdspeq => simp [commandOf, setdspeqAct]
  case fldfix => simp [commandOf, fldfixAct]
  all_goals exact absurd hi (by decide)

theorem operandsRead_configure : subopOrder.flatMap operandsRead = operandsRead .configure := rfl

/-- Every command reads operands of its row of R88 only, only CONFIGURE marks sub-operations, and an ending writes the
command's own result registers. -/
theorem commandOf_all (i : Instr) (s : State) :
    (commandOf i s).act.all (· ∈ operandsRead i) (fun _ => i = .configure) (Ending.Fits i) := by
  have hsub {j : Instr} (hj : j ∈ subopOrder) {U : Operand → Prop} {S : Nat → Prop}
      (hU : ∀ o ∈ operandsRead j, U o) : (commandOf j s).act.all U S (Ending.Fits i) :=
    (subop_all hj s).imp hU (fun _ h => h.elim)
      (by rintro e (rfl | rfl) <;> [exact Ending.fits_ok i; exact Ending.fits_invalid i])
  by_cases hi : i ∈ subopOrder
  · exact hsub hi fun _ ho => ho
  have hok := Ending.fits_ok i
  have hinv := Ending.fits_invalid i
  cases i
  case configure =>
    refine Act.all_chain (fun _ => rfl) hok (fun p hp => ?_) 0
    rw [← operandsRead_configure]
    obtain ⟨j, hj, rfl⟩ := List.mem_map.mp (show p ∈ subopOrder.map fun j => (commandOf j s).act from hp)
    exact hsub hj fun o ho => List.mem_flatMap.mpr ⟨j, hj, ho⟩
  case rdd =>
    refine ⟨by simp [operandsRead], Act.all_withDirect _ hinv fun a v => ?_⟩
    exact ⟨by simp [Ending.value], fun _ => rfl, fun _ => rfl⟩
  case wrd => exact ⟨by simp [operandsRead], Act.all_withDirect _ hinv fun a => by simpa [operandsRead] using hok⟩
  case rmwd =>
    simp only [commandOf, rmwdCommand, Act.all_useAll]
    exact ⟨by simp [operandsRead], Act.all_withDirect _ hinv fun a => by simpa using hok⟩
  case rdx =>
    simp only [commandOf, rdxCommand, Act.all_use, Act.all_rdLoc]
    exact ⟨by simp [operandsRead], fun v => ⟨by simp [Ending.value], fun _ => rfl, fun _ => rfl⟩⟩
  case wrx => simpa [commandOf, wrxCommand, operandsRead] using hok
  case rmwx => simpa [commandOf, rmwxCommand, operandsRead] using hok
  case ident =>
    simp only [commandOf, identCommand, Act.all_useAll, Act.all_fin]
    exact ⟨by simp [operandsRead], fun _ => rfl, by simp, fun _ => rfl⟩
  case linksup => exact ⟨by simp [operandsRead], fun _ => rfl, by simp, fun _ => rfl⟩
  case setloop => simpa [commandOf, setloopAct, operandsRead] using hok
  case reset =>
    simp only [commandOf, resetCommand, Act.all_rmwLoc, Act.all_fin]
    exact ⟨fun _ => rfl, fun _ => rfl, by simp⟩
  case isrstdone =>
    simp only [commandOf, isrstdoneCommand, Act.all_rdLoc, Act.all_fin]
    exact fun v => ⟨fun _ => rfl, by simp, by simp⟩
  all_goals exact absurd (by decide) hi

/-- Outside CONFIGURE nothing is marked, so SEQ's `k` stays 0 (R30). -/
theorem Act.mark_of_all {U : Operand → Prop} {E : Ending → Prop} {p : Act} (h : p.all U (fun _ => False) E)
    (t : List BusEvent) (k : Nat) : p.mark t k = k := by
  induction p generalizing t with
  | fin e => rfl
  | use o p ih => exact ih h.2 t
  | sub j p ih => exact h.1.elim
  | tr a f ih =>
    unfold Act.mark
    split
    · exact ih _ (h _) _
    · rfl
  | tw a v p ih =>
    unfold Act.mark
    split
    · exact ih h _
    · rfl

/-! How many events a sequence has (R157) -/

/-- No path of the sequence has more than `n` events. -/
def Act.atMost : Act → Nat → Prop
  | .fin _, _ => True
  | .use _ p, n => p.atMost n
  | .sub _ p, n => p.atMost n
  | .tr _ f, n => 0 < n ∧ ∀ v, (f v).atMost (n - 1)
  | .tw _ _ p, n => 0 < n ∧ p.atMost (n - 1)

theorem Act.atMost.mono {p : Act} {m n : Nat} (h : p.atMost m) (hmn : m ≤ n) : p.atMost n := by
  induction p generalizing m n with
  | fin e => trivial
  | use o p ih => exact ih h hmn
  | sub k p ih => exact ih h hmn
  | tr a f ih => exact ⟨by have := h.1; omega, fun v => ih v (h.2 v) (by omega)⟩
  | tw a v p ih => exact ⟨by have := h.1; omega, ih h.2 (by omega)⟩

theorem Act.atMost.andThen {p q : Act} {m n : Nat} (hp : p.atMost m) (hq : q.atMost n) :
    (p.andThen q).atMost (m + n) := by
  induction p generalizing m with
  | fin e =>
    unfold Act.andThen
    split
    · exact hq.mono (by omega)
    · trivial
  | use o p ih => exact ih hp
  | sub k p ih => exact ih hp
  | tr a f ih =>
    obtain ⟨hm, hf⟩ := hp
    exact ⟨by omega, fun v => (ih v (hf v)).mono (by omega)⟩
  | tw a v p ih =>
    obtain ⟨hm, hf⟩ := hp
    exact ⟨by omega, (ih hf).mono (by omega)⟩

theorem Act.atMost_useAll {os : List Operand} {p : Act} {n : Nat} (h : p.atMost n) : (useAll os p).atMost n := by
  induction os with
  | nil => exact h
  | cons o os ih => exact ih

theorem Act.atMost_xsel {rm : RegMap} {x : Ext16} {p : Act} {n : Nat} (h : p.atMost n) :
    (xsel rm x p).atMost (n + 3) := by
  simpa [xsel, Act.atMost] using h

theorem Act.atMost_rdLoc {rm : RegMap} {l : RegLoc} {f : Word → Act} {n : Nat} (h : ∀ v, (f v).atMost n) :
    (rdLoc rm l f).atMost (n + 4) := by
  cases l with
  | direct a => exact ⟨by omega, fun v => (h v).mono (by omega)⟩
  | ext x => exact Act.atMost_xsel (n := n + 1) ⟨by omega, h⟩

theorem Act.atMost_wrLoc {rm : RegMap} {l : RegLoc} {v : Word} {p : Act} {n : Nat} (h : p.atMost n) :
    (wrLoc rm l v p).atMost (n + 4) := by
  cases l with
  | direct a => exact ⟨by omega, h.mono (by omega)⟩
  | ext x => exact Act.atMost_xsel (n := n + 1) ⟨by omega, h⟩

theorem Act.atMost_rmwDirect {rm : RegMap} {a : Direct5} {m v : Word} {p : Act} {n : Nat} (h : p.atMost n) :
    (rmwLoc rm (.direct a) m v p).atMost (n + 2) :=
  ⟨by omega, fun _ => ⟨by omega, h⟩⟩

theorem Act.atMost_rmwLoc {rm : RegMap} {l : RegLoc} {m v : Word} {p : Act} {n : Nat} (h : p.atMost n) :
    (rmwLoc rm l m v p).atMost (n + 5) := by
  cases l with
  | direct a => exact (Act.atMost_rmwDirect h).mono (by omega)
  | ext x => exact Act.atMost_xsel (n := n + 2) ⟨by omega, fun _ => ⟨by omega, h⟩⟩

theorem Act.atMost_withDirect {addr : BitVec 16} {f : Direct5 → Act} {n : Nat} (h : ∀ a, (f a).atMost n) :
    (withDirect addr f).atMost n := by
  unfold withDirect
  split
  · trivial
  · exact h _

theorem Act.atMost_fin (e : Ending) (n : Nat) : (Act.fin e).atMost n := trivial

/-- A chain has at most the events of its bodies together. -/
theorem Act.atMost_chain {is : List Instr} {f : Instr → Act} {n : Instr → Nat}
    (h : ∀ i ∈ is, (f i).atMost (n i)) (k : Nat) : (chain k (is.map f)).atMost (is.map n).sum := by
  induction is generalizing k with
  | nil => trivial
  | cons i is ih =>
    rw [List.forall_mem_cons] at h
    exact h.1.andThen (ih h.2 (k + 1))

/-- The most events a command has (R157). -/
def eventBound : Instr → Nat
  | .ident | .linksup => 0
  | .rdd | .wrd => 1
  | .rmwd => 2
  | .rdx | .wrx | .setled | .setmdix | .setloop | .isrstdone => 4
  | .fldfix => 9
  | .configure => 57
  | _ => 5

theorem rmwLoc_atMost (rm : RegMap) (l : RegLoc) (m v : Word) (e : Ending) : (rmwLoc rm l m v (.fin e)).atMost 5 :=
  Act.atMost_rmwLoc (Act.atMost_fin e 0)

theorem rmwDirect_atMost (rm : RegMap) (a : Direct5) (m v : Word) :
    (rmwLoc rm (.direct a) m v (.fin .ok)).atMost 2 :=
  Act.atMost_rmwDirect (Act.atMost_fin .ok 0)

theorem wrLoc_atMost (rm : RegMap) (l : RegLoc) (v : Word) : (wrLoc rm l v (.fin .ok)).atMost 4 :=
  Act.atMost_wrLoc (Act.atMost_fin .ok 0)

theorem subop_atMost {i : Instr} (hi : i ∈ subopOrder) (s : State) : (commandOf i s).act.atMost (eventBound i) := by
  cases i
  case setlink => exact rmwLoc_atMost _ _ _ _ _
  case setclksh => exact Act.atMost_useAll (rmwLoc_atMost _ _ _ _ _)
  case setclkdly =>
    simp only [commandOf, setclkdlyAct]
    split
    · exact Act.atMost_useAll (Act.atMost_fin _ _)
    · exact Act.atMost_useAll (rmwLoc_atMost _ _ _ _ _)
  case setimped =>
    simp only [commandOf, setimpedAct]
    split
    · trivial
    · exact rmwLoc_atMost _ _ _ _ _
  case setfifo =>
    simp only [commandOf, setfifoAct]
    split
    · trivial
    · exact rmwLoc_atMost _ _ _ _ _
  case setgpio => exact Act.atMost_useAll (rmwLoc_atMost _ _ _ _ _)
  case setled => exact Act.atMost_useAll (wrLoc_atMost _ _ _)
  case setmdix =>
    refine Act.atMost_rmwDirect (rm := s.rm) (n := 2) ?_
    split
    · exact rmwDirect_atMost _ _ _ _
    · exact Act.atMost_fin _ _
  case setidle => exact rmwLoc_atMost _ _ _ _ _
  case setdspeq =>
    simp only [commandOf, setdspeqAct]
    exact rmwLoc_atMost _ _ _ _ _
  case fldfix =>
    simp only [commandOf, fldfixAct]
    refine Act.atMost_rdLoc (n := 5) fun v => ?_
    split
    · exact rmwLoc_atMost _ _ _ _ _
    · exact Act.atMost_fin _ _
  all_goals exact absurd hi (by decide)

/-- R157: no command has more events than its bound. -/
theorem commandOf_atMost (i : Instr) (s : State) : (commandOf i s).act.atMost (eventBound i) := by
  by_cases hi : i ∈ subopOrder
  · exact subop_atMost hi s
  cases i
  case configure => exact Act.atMost_chain (fun j hj => subop_atMost hj s) 0
  case rdd => exact Act.atMost_withDirect fun a => ⟨Nat.one_pos, fun v => Act.atMost_fin _ _⟩
  case wrd => exact Act.atMost_withDirect fun a => ⟨Nat.one_pos, Act.atMost_fin _ _⟩
  case rmwd => exact Act.atMost_useAll (Act.atMost_withDirect fun a => rmwDirect_atMost _ _ _ _)
  case rdx => exact Act.atMost_rdLoc (n := 0) fun v => Act.atMost_fin _ _
  case wrx => exact Act.atMost_xsel (n := 1) ⟨Nat.one_pos, Act.atMost_fin _ _⟩
  case rmwx => exact Act.atMost_useAll (rmwLoc_atMost _ _ _ _ _)
  case ident => exact Act.atMost_useAll (Act.atMost_fin _ _)
  case linksup => trivial
  case setloop => exact wrLoc_atMost _ _ _
  case reset => exact rmwLoc_atMost _ _ _ _ _
  case isrstdone => exact Act.atMost_rdLoc (n := 0) fun v => Act.atMost_fin _ _
  all_goals exact absurd (by decide) hi

theorem run_trace_length {p : Act} {n : Nat} (h : p.atMost n) (b : Option (BitVec 1)) (s : State) :
    (run b p s).trace.length ≤ s.trace.length + n := by
  induction p generalizing n s with
  | fin e => exact Nat.le_add_right _ _
  | use o p ih => exact ih h _
  | sub k p ih => exact ih h _
  | tr a f ih =>
    obtain ⟨hn, hf⟩ := h
    rcases transportRead_cases a s with ⟨k, u, e, _, ht, _⟩ | ⟨v, u, e, _, _, ht, _⟩ <;> simp only [run, e]
    · simpa [ht] using Nat.succ_le_of_lt hn
    · have := ih v (hf v) u
      simp only [ht, List.length_append, List.length_singleton] at this
      omega
  | tw a v p ih =>
    obtain ⟨hn, hp⟩ := h
    rcases transportWrite_cases a v s with ⟨k, u, e, _, ht, _⟩ | ⟨u, e, _, ht, _⟩ <;> simp only [run, e]
    · simpa [ht] using Nat.succ_le_of_lt hn
    · have := ih hp u
      simp only [ht, List.length_append, List.length_singleton] at this
      omega

theorem eventBound_le (i : Instr) : eventBound i ≤ 57 := by
  cases i <;> decide

/-- R157, R167: no command has more than 57 events. -/
theorem exec_trace_length {i : Instr} {s t : State} (h : exec i s = .next t) : t.trace.length ≤ 57 := by
  rw [exec_eq_runCommand] at h
  cases h
  calc (runCommand (encode i) (commandOf i s) s).trace.length ≤ (s.start (encode i)).trace.length + eventBound i :=
        run_trace_length (commandOf_atMost i s) _ _
    _ ≤ 57 := by simpa using eventBound_le i

end Sys2Proof.Machine
end

section
/-! One step of the machine (10_state.md R30, R31): everything a move of the host and a step can do, and the machine's
invariant. -/

namespace Sys2Proof.Machine

open Sys2Proof.Safety

/-- Everything a move of the host can do where it is not refused. -/
theorem hostMove_cases {m : HostMove} {s t : State} (h : hostMove m s = .next t) :
    (∃ i, exec i s = .next t) ∨ t = s.illegalCommand ∨ (∃ o v, t = s.setOperand o v) ∨
      (∃ got, t = { s with got := got }) ∨ t = s.engineReset := by
  cases m with
  | write index v =>
    simp only [hostMove, hostWrite, writeCmd] at h
    split at h
    case h_2 =>
      split at h
      case h_1 i _ => exact .inl ⟨i, h⟩
      case h_2 =>
        cases h
        exact .inr (.inl rfl)
    case h_3 o _ =>
      cases h
      exact .inr (.inr (.inl ⟨o, v, rfl⟩))
    all_goals cases h
  | read index =>
    simp only [hostMove, hostReadAt] at h
    split at h
    case h_1 => cases h
    case h_2 r _ =>
      split at h
      case h_1 =>
        cases h
        exact .inr (.inr (.inr (.inl ⟨_, rfl⟩)))
      case h_2 => cases h
  | engineReset =>
    cases h
    exact .inr (.inr (.inr (.inr rfl)))

/-- Everything a step can do where it neither faults nor is refused. -/
theorem step_cases {s t : State} (h : step s = .next t) :
    (∃ op k n, s.seq = .running op k n ∧ engineStep op s = .next t) ∨ (s.seq = .idle ∧ t = s) ∨
      (∃ m ms, s.seq = .idle ∧ hostMove m { s with host := ms } = .next t) := by
  unfold step at h
  split at h
  case h_1 op k n hseq => exact .inl ⟨op, k, n, hseq, h⟩
  case h_2 hseq =>
    split at h
    case h_1 =>
      cases h
      exact .inr (.inl ⟨hseq, rfl⟩)
    case h_2 m ms _ => exact .inr (.inr ⟨m, ms, hseq, h⟩)

theorem step_busy {s : State} {op : Opcode} {k n : Nat} (h : s.seq = .running op k n) :
    step s = engineStep op s := by
  simp only [step, h]

theorem step_host {s : State} {m : HostMove} {ms : List HostMove} (hs : s.seq = .idle) (h : s.host = m :: ms) :
    step s = hostMove m { s with host := ms } := by
  simp only [step, hs, h]

theorem running_of_busy {s : State} (h : s.busy = true) : ∃ op k n, s.seq = .running op k n := by
  cases hs : s.seq with
  | idle => simp [State.busy, hs] at h
  | running op k n => exact ⟨op, k, n, rfl⟩

theorem engineStep_of_busy {s t : State} (hb : s.busy = true) (h : step s = .next t) :
    ∃ op k n, s.seq = .running op k n ∧ engineStep op s = .next t := by
  obtain ⟨op, k, n, hs⟩ := running_of_busy hb
  exact ⟨op, k, n, hs, step_busy hs ▸ h⟩

/-- Every command answers a next state, in which the engine is idle again. -/
theorem exec_seq {i : Instr} {s t : State} (h : exec i s = .next t) : t.seq = .idle := by
  rw [exec_eq_runCommand] at h
  cases h
  exact run_seq _ _ _

/-! SEQ and the bus trace (R30, R151) -/

/-- While a command is at an event, the mark of its sequence is the `k` R30 gives it. -/
theorem mark_eq_subopReached {i : Instr} {s : State} {q : Act}
    (h : (commandOf i s).act.ahead s.devAddr s.trace = some q) (hq : hasEvent q) :
    (commandOf i s).act.mark s.trace 0 ≤ 10 ∧ (commandOf i s).act.mark s.trace 0 = subopReached (encode i) s := by
  by_cases hi : i = .configure
  · subst hi
    have hbody : ∀ p ∈ subopOrder.map fun i => (commandOf i s).act,
        p.all (fun _ => True) (fun _ => False) (fun _ => True) := by
      rw [List.forall_mem_map]
      exact fun j hj => (subop_all hj s).imp (fun _ _ => trivial) (fun _ h => h) (fun _ _ => trivial)
    obtain ⟨hlt, hmark⟩ := mark_chain hbody h hq 0
    replace hmark := hmark.trans (Nat.zero_add _)
    rw [subopReached, if_pos rfl]
    exact ⟨(le_of_eq hmark).trans (Nat.lt_succ_iff.mp hlt), hmark⟩
  · have hne : encode i ≠ encode .configure := fun e => hi (encode_inj e)
    have hall := (commandOf_all i s).imp (fun _ h => h) (fun _ h => hi h) (fun _ h => h)
    rw [subopReached, if_neg hne, Act.mark_of_all hall]
    exact ⟨Nat.zero_le _, rfl⟩

/-- R30: SEQ agrees with the bus trace exactly if the engine is idle, or its command is at an event, with the mark of
its sequence in `k` and the number of events so far in `s`. -/
theorem seqAgrees_iff {s : State} :
    seqAgrees s ↔ s.seq = .idle ∨
      ∃ i q, s.At i ((commandOf i s).act.mark s.trace 0) s.trace.length q := by
  unfold seqAgrees
  split
  case h_1 hs => simp [hs]
  case h_2 op k n hs =>
    constructor
    · rintro ⟨-, hk, hn, i, rfl, p, hp, hev⟩
      have hahead : (commandOf i s).act.ahead s.devAddr s.trace = some p.pending := by rw [Act.ahead, hp]; rfl
      refine .inr ⟨i, _, ?_, hahead, hev⟩
      rw [hs, hk, hn, (mark_eq_subopReached hahead hev).2]
    · rintro (hidle | ⟨i, q, hseq, hahead, hev⟩)
      · exact absurd (hs.symm.trans hidle) (by simp)
      · cases hs.symm.trans hseq
        obtain ⟨hle, heq⟩ := mark_eq_subopReached hahead hev
        obtain ⟨p, hp, rfl⟩ := Option.map_eq_some_iff.mp hahead
        exact ⟨hle, heq, rfl, i, rfl, p, hp, hev⟩

theorem issue_seqAgrees (i : Instr) (s : State) : seqAgrees (issue i s) := by
  rw [seqAgrees_iff]
  obtain ⟨hidle, -⟩ | ⟨q, hc, hat, -⟩ := issue_cases i s
  · exact .inl hidle
  · refine .inr ⟨i, q, ?_⟩
    rw [issue_trace, hc]
    exact hat

theorem EventStep.keeps_seqAgrees {i : Instr} {s t : State} {q : Act}
    (hat : s.At i ((commandOf i s).act.mark s.trace 0) s.trace.length q)
    (h : EventStep (commandOf i s).failBool q s t) : seqAgrees t := by
  rw [seqAgrees_iff]
  obtain ⟨hidle, -⟩ | ⟨x, r, r', hafter, htrace, hc, hat', -⟩ := h.cases_at hat
  · exact .inl hidle
  · refine .inr ⟨i, r', ?_⟩
    rw [htrace, hc, Act.mark_append hat.ahead hafter, List.length_append, List.length_singleton]
    exact hat'

/-- Where SEQ agrees with the bus trace, a busy engine performs its next event, and they agree again. -/
theorem step_of_seqAgrees {s : State} (h : seqAgrees s) (hb : s.busy = true) :
    ∃ t, step s = .next t ∧ seqAgrees t := by
  obtain hidle | ⟨i, q, hat⟩ := seqAgrees_iff.mp h
  · simp [State.busy, hidle] at hb
  · obtain ⟨t, ht, hstep⟩ := engineStep_of_ahead hat.ahead hat.event
    exact ⟨t, (step_busy hat.seq).trans ht, hstep.keeps_seqAgrees hat⟩

/-! The invariant -/

theorem memoryCanonical_closed : RunClosed memoryCanonical := phyWf_closed

theorem statusLegal_closed : RunClosed statusLegal where
  use _ _ h := h
  sub _ _ h := h
  fin _ e _ := ⟨e.result, rfl⟩
  read t a h := by
    rcases transportRead_cases a t with
      ⟨k, u, e, _, _, _, _, _, _, _, hr⟩ | ⟨v, u, e, _, _, _, _, _, _, _, _, hr⟩ <;>
      rw [e] <;> obtain ⟨r, hs⟩ := h <;> exact ⟨r, hr.status.trans hs⟩
  write t a v h := by
    rcases transportWrite_cases a v t with
      ⟨k, u, e, _, _, _, _, _, _, _, hr⟩ | ⟨u, e, _, _, _, _, _, _, _, hr⟩ <;>
      rw [e] <;> obtain ⟨r, hs⟩ := h <;> exact ⟨r, hr.status.trans hs⟩

theorem seqAgrees_of_idle {s : State} (h : s.seq = .idle) : seqAgrees s := seqAgrees_iff.mpr (.inl h)

theorem inv_exec {i : Instr} {s t : State} (hm : memoryCanonical s) (hs : statusLegal s) (h : exec i s = .next t) :
    Inv t :=
  ⟨exec_keeps memoryCanonical_closed h hm, exec_keeps statusLegal_closed h hs, seqAgrees_of_idle (exec_seq h)⟩

theorem inv_hostMove {m : HostMove} {s t : State} (hs : Inv s) (hidle : s.seq = .idle) (h : hostMove m s = .next t) :
    Inv t := by
  obtain ⟨hmem, hstatus, -⟩ := hs
  obtain ⟨i, hi⟩ | rfl | ⟨o, v, rfl⟩ | ⟨got, rfl⟩ | rfl := hostMove_cases h
  · exact inv_exec hmem hstatus hi
  · exact ⟨hmem, ⟨.illegalCommand, rfl⟩, seqAgrees_of_idle rfl⟩
  · exact ⟨hmem, hstatus, seqAgrees_of_idle hidle⟩
  · exact ⟨hmem, hstatus, seqAgrees_of_idle hidle⟩
  · exact ⟨hmem, ⟨.ok, rfl⟩, seqAgrees_of_idle rfl⟩

theorem inv_step {s t : State} (hs : Inv s) (h : step s = .next t) : Inv t := by
  obtain ⟨op, k, n, hseq, he⟩ | ⟨-, rfl⟩ | ⟨m, ms, hidle, hm⟩ := step_cases h
  · obtain ⟨hmem, hstatus, hagree⟩ := hs
    obtain ⟨u, hu, hagree'⟩ := step_of_seqAgrees hagree (by simp [State.busy, hseq])
    cases hu.symm.trans h
    exact ⟨engineStep_keeps memoryCanonical_closed he hmem,
      engineStep_keeps statusLegal_closed he hstatus, hagree'⟩
  · exact hs
  · obtain ⟨hmem, hstatus, -⟩ := hs
    exact inv_hostMove (s := { s with host := ms }) ⟨hmem, hstatus, seqAgrees_of_idle hidle⟩ hidle hm

theorem inv_issue {s : State} (i : Instr) (hs : Inv s) : Inv (issue i s) := by
  obtain ⟨hmem, hstatus, -⟩ := hs
  exact ⟨advance_keeps memoryCanonical_closed _ (s.start _) hmem,
    advance_keeps statusLegal_closed _ (s.start _) hstatus, issue_seqAgrees i s⟩

theorem hostMove_ne_fault (m : HostMove) (s : State) (f : Fault) : hostMove m s ≠ .fault f := by
  intro h
  cases m with
  | write index v =>
    simp only [hostMove, hostWrite, writeCmd] at h
    split at h
    case h_2 =>
      split at h
      · rw [exec_eq_runCommand] at h
        cases h
      · cases h
    all_goals cases h
  | read index =>
    simp only [hostMove, hostReadAt] at h
    split at h
    · cases h
    · split at h <;> cases h
  | engineReset => cases h

/-- R31: where SEQ agrees with the bus trace no step faults. -/
theorem step_ne_fault {s : State} (h : seqAgrees s) (f : Fault) : step s ≠ .fault f := by
  intro hf
  cases hs : s.seq with
  | running op k n =>
    obtain ⟨t, ht, -⟩ := step_of_seqAgrees h (by simp [State.busy, hs])
    cases ht.symm.trans hf
  | idle =>
    cases hh : s.host with
    | nil => simp [step, hs, hh] at hf
    | cons m ms => exact hostMove_ne_fault m _ f ((step_host hs hh).symm.trans hf)

end Sys2Proof.Machine
end

section
/-! The steps of a command add up to its run (10_state.md R30; 92_eei_decisions.md D32), and what no command changes. -/

namespace Sys2Proof.Machine

open Sys2Proof.Safety

/-- The state a command in progress, or one that has ended, will be in when it has ended. -/
def State.EndsIn (u t : State) : Prop :=
  u = t ∨ ∃ i k n q, u.At i k n q ∧ run (commandOf i u).failBool q u = t

/-- R16: a run only adds events to the bus trace. -/
theorem run_trace_append (b : Option (BitVec 1)) (p : Act) (s : State) :
    ∃ xs, (run b p s).trace = s.trace ++ xs := by
  obtain ⟨xs, phy, seq, hf, ⟨e, -, h⟩ | ⟨k, -, h⟩⟩ := run_outcome b p s <;> exact ⟨xs, by rw [h]; rfl⟩

theorem State.EndsIn.trace_append {u t : State} (h : u.EndsIn t) : ∃ xs, t.trace = u.trace ++ xs := by
  obtain rfl | ⟨i, k, n, q, -, rfl⟩ := h
  · exact ⟨[], (List.append_nil _).symm⟩
  · exact run_trace_append _ q u

theorem State.At.step_endsIn {u t : State} {i : Instr} {k n : Nat} {q : Act} (hat : u.At i k n q)
    (hrun : run (commandOf i u).failBool q u = t) :
    ∃ v x, step u = .next v ∧ v.trace = u.trace ++ [x] ∧ v.EndsIn t := by
  obtain ⟨v, hv, hstep⟩ := engineStep_of_ahead hat.ahead hat.event
  obtain ⟨x, hx, -, -⟩ := hstep.records
  refine ⟨v, x, (step_busy hat.seq).trans hv, hx, ?_⟩
  obtain ⟨-, h⟩ | ⟨-, r, r', -, -, hc, hat', h⟩ := hstep.cases_at hat
  · exact .inl (h.symm.trans hrun)
  · exact .inr ⟨i, _, _, r', hat', by rw [hc, ← h, hrun]⟩

theorem core_run_succ (M : Host.Core) {u v : M.State} (h : M.step u = .next v) (n : Nat) :
    M.run (n + 1) u = M.run n v := by
  rw [Host.Core.run, h]

/-- R30: the steps of a command add its events to the bus trace one by one, and the last leaves the state its run
ends in. -/
theorem State.EndsIn.core_run {u t : State} (h : u.EndsIn t) {xs : List BusEvent} (hxs : t.trace = u.trace ++ xs)
    {n : Nat} (hn : n ≤ xs.length) :
    ∃ v : State, Sys2Proof.core.run n u = .next v ∧ v.trace = u.trace ++ xs.take n ∧
      (n < xs.length → v.busy = true) ∧ (n = xs.length → v = t) := by
  induction xs generalizing u n with
  | nil =>
    obtain rfl := Nat.le_zero.mp hn
    refine ⟨u, rfl, by simp, by simp, fun _ => ?_⟩
    obtain rfl | ⟨i, k, n, q, hat, hrun⟩ := h
    · rfl
    · obtain ⟨v, x, -, hx, hv⟩ := State.At.step_endsIn hat hrun
      obtain ⟨ys, hys⟩ := hv.trace_append
      simp [hx, hxs] at hys
  | cons y xs ih =>
    obtain rfl | ⟨i, k, m, q, hat, hrun⟩ := h
    · simp at hxs
    obtain ⟨v, x, hv, hx, hends⟩ := State.At.step_endsIn hat hrun
    obtain ⟨ys, hys⟩ := hends.trace_append
    obtain ⟨rfl, rfl⟩ : y = x ∧ xs = ys := by simpa [hxs, hx] using hys
    cases n with
    | zero => exact ⟨u, rfl, by simp, fun _ => by simp [State.busy, hat.seq], by simp⟩
    | succ n =>
      obtain ⟨w, hw, htrace, hbusy, hend⟩ := ih hends hys (Nat.le_of_succ_le_succ hn)
      refine ⟨w, (core_run_succ Sys2Proof.core hv n).trans hw, ?_, fun h => hbusy (Nat.lt_of_succ_lt_succ h),
        fun h => hend (Nat.succ.inj h)⟩
      rw [htrace, hx, List.take_succ_cons, List.append_assoc, List.singleton_append]

theorem issue_endsIn (i : Instr) (s : State) : ∃ t, exec i s = .next t ∧ (issue i s).EndsIn t := by
  obtain ⟨-, h⟩ | ⟨q, hc, hat, h⟩ := issue_cases i s
  · exact ⟨_, h, .inl rfl⟩
  · exact ⟨_, h, .inr ⟨i, _, _, q, hat, by rw [hc]⟩⟩

/-! What no command changes -/

theorem leads_device {dev : Nat} {p : Act} {t : List BusEvent} {e : Ending} (h : p.leads dev t e) :
    ∀ x ∈ t, eventDevice x = dev := by
  induction p generalizing t with
  | fin _ =>
    obtain ⟨rfl, -⟩ := h
    exact List.forall_mem_nil _
  | use o p ih => exact ih h
  | sub k p ih => exact ih h
  | tr a f ih =>
    obtain ⟨v, t', rfl, h⟩ := h
    exact List.forall_mem_cons.mpr ⟨rfl, ih v h⟩
  | tw a v p ih =>
    obtain ⟨t', rfl, h⟩ := h
    exact List.forall_mem_cons.mpr ⟨rfl, ih h⟩

theorem breaks_device {dev : Nat} {p : Act} {t : List BusEvent} {k : Kind} (h : p.breaks dev t k) :
    ∀ x ∈ t, eventDevice x = dev := by
  induction p generalizing t with
  | fin _ => exact h.elim
  | use o p ih => exact ih h
  | sub k p ih => exact ih h
  | tr a f ih =>
    obtain rfl | ⟨v, t', rfl, h⟩ := h
    · exact List.forall_mem_singleton.mpr rfl
    · exact List.forall_mem_cons.mpr ⟨rfl, ih v h⟩
  | tw a v p ih =>
    obtain rfl | ⟨t', rfl, h⟩ := h
    · exact List.forall_mem_singleton.mpr rfl
    · exact List.forall_mem_cons.mpr ⟨rfl, ih h⟩

/-- Only ISRSTDONE writes RBOOL when an event fails (R160, R173). -/
theorem failBool_eq_none {i : Instr} (h : i ≠ .isrstdone) (s : State) : (commandOf i s).failBool = none := by
  cases i
  case isrstdone => exact absurd rfl h
  all_goals rfl

theorem Ending.fits_transport {i : Instr} (s : State) (k : Kind) :
    (Ending.transport (commandOf i s).failBool k).Fits i where
  rval _ := rfl
  rbool h := failBool_eq_none (fun e => h (by simp [e])) s
  rstate _ := rfl

/-- Every command ends with an ending that fits it, after events that all went to DEVADDR and took a draw each. -/
theorem exec_ends {i : Instr} {s t : State} (h : exec i s = .next t) :
    ∃ xs phy q hf e, t = ((s.start (encode i)).after xs phy q hf).finish e ∧ e.Fits i ∧
      ∀ x ∈ xs, eventDevice x = s.devAddr := by
  obtain ⟨xs, phy, q, hf, ⟨e, hl, ht⟩ | ⟨k, hb, ht⟩⟩ := exec_outcome i s <;> cases h.symm.trans ht
  · exact ⟨xs, phy, q, hf, e, rfl, (commandOf_all i s).of_leads hl, leads_device hl⟩
  · exact ⟨xs, phy, q, hf, _, rfl, Ending.fits_transport s k, breaks_device hb⟩

theorem Result.word_ok_iff (r : Result) : r.word = 0x0000 ↔ r = .ok := by
  cases r with
  | ok => exact ⟨fun _ => rfl, fun _ => rfl⟩
  | invalidParameter => decide
  | illegalCommand => decide
  | transportFailure k =>
    refine ⟨fun h => ?_, fun h => nomatch h⟩
    have := congrArg (fun w : Word => w.getLsbD 1) h
    simp [Result.word] at this

/-! The strap bit (R36) -/

/-- From one state to another the register map and the strap bit are the same. -/
def SameStrap (s t : State) : Prop :=
  t.rm = s.rm ∧ t.phy.ext s.rm.strap &&& s.rm.fldStrapBit = s.phy.ext s.rm.strap &&& s.rm.fldStrapBit

theorem SameStrap.of_phy {s t u : State} (h : SameStrap s t) (hrm : u.rm = t.rm)
    (hphy : u.phy.ext t.rm.strap &&& t.rm.fldStrapBit = t.phy.ext t.rm.strap &&& t.rm.fldStrapBit) :
    SameStrap s u := by
  obtain ⟨hr, hp⟩ := h
  rw [hr] at hphy
  exact ⟨hrm.trans hr, hphy.trans hp⟩

theorem Phy.strap_write (rm : RegMap) (p : Phy) (a : Direct5) (v : Word) :
    (p.write rm a v).ext rm.strap &&& rm.fldStrapBit = p.ext rm.strap &&& rm.fldStrapBit := by
  unfold Phy.write
  split
  · split
    · rfl
    · exact p.strap_store rm _ v
    · rfl
  · rfl

theorem Phy.strap_move (rm : RegMap) (p : Phy) (m : EnvMove) :
    (p.move rm m).ext rm.strap &&& rm.fldStrapBit = p.ext rm.strap &&& rm.fldStrapBit := by
  unfold Phy.move
  split
  · cases m with
    | clearReset => exact p.strap_store rm _ _
    | change l v => exact p.strap_store rm _ _
    | changeLatch v => rfl
  · rfl

theorem Phy.strap_moves (rm : RegMap) (ms : List EnvMove) (p : Phy) :
    (ms.foldl (Phy.move rm) p).ext rm.strap &&& rm.fldStrapBit = p.ext rm.strap &&& rm.fldStrapBit := by
  induction ms generalizing p with
  | nil => rfl
  | cons m ms ih => exact (ih (p.move rm m)).trans (p.strap_move rm m)

theorem sameStrap_closed (s : State) : RunClosed (SameStrap s) where
  use _ _ h := h
  sub _ _ h := h
  fin _ _ h := h
  read t a h := by
    have hmoves := Phy.strap_moves t.rm t.draw.moves t.phy
    rcases transportRead_cases a t with
      ⟨k, u, e, _, _, _, ⟨b, hp⟩, _, _, hu, _⟩ | ⟨v, u, e, _, _, _, _, ⟨b, hp⟩, _, _, hu, _⟩ <;>
      rw [e] <;> exact h.of_phy hu.rm (by rw [hp]; exact hmoves)
  write t a v h := by
    have hmoves := Phy.strap_moves t.rm t.draw.moves t.phy
    have hwrite := (Phy.strap_write t.rm t.takeDraw.phy a v).trans hmoves
    rcases transportWrite_cases a v t with
      ⟨k, u, e, _, _, _, hp, _, _, hu, _⟩ | ⟨u, e, _, _, _, hp, _, _, hu, _⟩ <;>
      rw [e] <;> refine h.of_phy hu.rm ?_ <;> rw [hp]
    · split
      · exact hwrite
      · exact hmoves
    · exact hwrite

theorem step_sameStrap {s t : State} (h : step s = .next t) : SameStrap s t := by
  obtain ⟨op, k, n, -, he⟩ | ⟨-, rfl⟩ | ⟨m, ms, -, hm⟩ := step_cases h
  · exact engineStep_keeps (sameStrap_closed s) he ⟨rfl, rfl⟩
  · exact ⟨rfl, rfl⟩
  · obtain ⟨i, hi⟩ | rfl | ⟨o, v, rfl⟩ | ⟨got, rfl⟩ | rfl := hostMove_cases hm
    · exact exec_keeps (sameStrap_closed s) hi ⟨rfl, rfl⟩
    all_goals exact ⟨rfl, rfl⟩

end Sys2Proof.Machine
end

section
/-! The host-fault mark (10_state.md R58): the operand registers a run has read by the bus trace it left, command by
command, and for CONFIGURE by the sub-operations issued one after another (43_configure.md R151 to R153). -/

namespace Sys2Proof.Machine

open Sys2Proof.Safety

/-- The operand registers a sequence has read once it has carried out a bus trace and is at its next event (R58). -/
def Act.used : Act → List BusEvent → List Operand
  | .fin _, _ => []
  | .use o p, t => o :: p.used t
  | .sub _ p, t => p.used t
  | .tr _ f, t =>
    match t with
    | .read _ _ v :: t' => (f v).used t'
    | _ => []
  | .tw _ _ p, t =>
    match t with
    | .write _ _ _ :: t' => p.used t'
    | _ => []

@[simp] theorem faultAfter_nil (s : State) : faultAfter s [] = s.hostFault := by
  simp [faultAfter]

theorem faultAfter_append {s t : State} {os : List Operand} (hu : t.unwritten = s.unwritten)
    (hf : t.hostFault = faultAfter s os) (os' : List Operand) : faultAfter t os' = faultAfter s (os ++ os') := by
  simp [faultAfter, hf, hu, Bool.or_assoc]

theorem faultAfter_of_written {s : State} {os : List Operand} (h : ∀ o ∈ os, o ∉ s.unwritten) :
    faultAfter s os = s.hostFault := by
  simpa [faultAfter] using fun o ho hu => absurd hu (h o ho)

theorem faultAfter_of_mem {s : State} {os : List Operand} {o : Operand} (ho : o ∈ os) (hu : o ∈ s.unwritten) :
    faultAfter s os = true := by
  simp only [faultAfter, Bool.or_eq_true, List.any_eq_true, List.contains_iff_mem]
  exact .inr ⟨o, ho, hu⟩

/-- R58: a run marks exactly the unwritten operands its sequence has read by the events it added to the trace. -/
theorem run_hostFault (b : Option (BitVec 1)) {p : Act} {s : State} {xs : List BusEvent}
    (h : (run b p s).trace = s.trace ++ xs) : (run b p s).hostFault = faultAfter s (p.used xs) := by
  induction p generalizing s xs with
  | fin e => simp [Act.used]
  | use o p ih =>
    rw [run_use, ih h]
    exact faultAfter_append (s := s) (t := s.useOperand o) (os := [o]) rfl (by simp [faultAfter]) _
  | sub k p ih => exact ih h
  | tr a f ih =>
    rcases transportRead_cases a s with
      ⟨k, u, e, _, ht, _, _, _, _, _, hr⟩ | ⟨v, u, e, _, _, ht, _, _, _, _, hs, hr⟩ <;> simp only [run, e] at h ⊢
    · obtain rfl : xs = [.readFailed s.devAddr a k] := by simpa [ht] using h.symm
      simpa [Act.used] using hr.hostFault
    · obtain ⟨ys, hys⟩ := run_trace_append b (f v) u
      obtain rfl : .read s.devAddr a v :: ys = xs := by simpa [hys, ht] using h
      rw [ih v hys]
      exact faultAfter_append (os := []) hs.unwritten (by simpa using hr.hostFault) _
  | tw a v p ih =>
    rcases transportWrite_cases a v s with
      ⟨k, u, e, _, ht, _, _, _, _, _, hr⟩ | ⟨u, e, _, ht, _, _, _, _, hs, hr⟩ <;> simp only [run, e] at h ⊢
    · obtain rfl : xs = [.writeFailed s.devAddr a v k] := by simpa [ht] using h.symm
      simpa [Act.used] using hr.hostFault
    · obtain ⟨ys, hys⟩ := run_trace_append b p u
      obtain rfl : .write s.devAddr a v :: ys = xs := by simpa [hys, ht] using h
      rw [ih hys]
      exact faultAfter_append (os := []) hs.unwritten (by simpa using hr.hostFault) _

theorem exec_hostFault {i : Instr} {s t : State} (h : exec i s = .next t) :
    t.hostFault = faultAfter s ((commandOf i s).act.used t.trace) := by
  rw [exec_eq_runCommand] at h
  cases h
  exact run_hostFault (s := s.start (encode i)) _ rfl

@[simp] theorem Act.used_use (o : Operand) (p : Act) (t : List BusEvent) : (Act.use o p).used t = o :: p.used t := rfl

@[simp] theorem Act.used_useAll (os : List Operand) (p : Act) (t : List BusEvent) :
    (useAll os p).used t = os ++ p.used t := by
  induction os with
  | nil => rfl
  | cons o os ih => exact congrArg (o :: ·) ih

theorem Act.used_of_all {S : Nat → Prop} {E : Ending → Prop} {p : Act} (h : p.all (fun _ => False) S E)
    (t : List BusEvent) : p.used t = [] := by
  induction p generalizing t with
  | fin e => rfl
  | use o p ih => exact h.1.elim
  | sub k p ih => exact ih h.2 t
  | tr a f ih =>
    unfold Act.used
    split
    · exact ih _ (h _) _
    · rfl
  | tw a v p ih =>
    unfold Act.used
    split
    · exact ih h _
    · rfl

/-- R28, R88: but for WRD, WRX and CONFIGURE a command reads its whole row of R88 first, and no operand after it. -/
theorem commandOf_used {i : Instr} (hi : i ∉ [.wrd, .wrx, .configure]) (s : State) (t : List BusEvent) :
    (commandOf i s).act.used t = operandsRead i := by
  have hnone {p : Act} (hp : p.all (fun _ => False) (fun _ => True) (fun _ => True)) : p.used t = [] :=
    Act.used_of_all hp t
  cases i
  case setfifo =>
    simp only [commandOf, setfifoAct]
    split <;> simp [operandsRead, hnone]
  case wrd | wrx | configure => exact absurd (by decide) hi
  all_goals
    simp [commandOf, operandsRead, hnone, withDirect, rddCommand, rmwdCommand, rdxCommand, rmwxCommand, identCommand,
      linksupCommand, setlinkAct, setclkshAct, setclkdlyAct, setimpedAct, setgpioAct, setledAct, setmdixAct, setidleAct,
      setdspeqAct, fldfixAct, setloopAct, resetCommand, isrstdoneCommand]

/-- How a command has ended, by its bus trace and STATUS. -/
theorem exec_leads_or_breaks {i : Instr} {s t : State} (h : exec i s = .next t) :
    (∃ e, (commandOf i s).act.leads s.devAddr t.trace e ∧ t.status = e.result.word) ∨
      ∃ k, (commandOf i s).act.breaks s.devAddr t.trace k ∧ t.status = (Result.transportFailure k).word := by
  obtain ⟨xs, phy, q, hf, ⟨e, hl, ht⟩ | ⟨k, hb, ht⟩⟩ := exec_outcome i s <;> cases h.symm.trans ht
  · exact .inl ⟨e, hl, rfl⟩
  · exact .inr ⟨k, hb, rfl⟩

/-- R107: WRD reads `A_VAL` exactly if its address passed the check, and then has an event. -/
theorem wrd_reached {s t : State} (h : exec .wrd s = .next t) :
    (commandOf .wrd s).act.used t.trace = operandsReached .wrd s t ∧
      (t.status = 0x0000 → operandsReached .wrd s t = operandsRead .wrd) := by
  have hends := exec_leads_or_breaks h
  by_cases haddr : s.ops.aAddr.toNat > 31
  · rw [show (commandOf .wrd s).act = .use .aAddr (.fin .invalid) by
      simp [commandOf, wrdCommand, withDirect, haddr]] at hends ⊢
    obtain ⟨e, ⟨htrace, rfl⟩, hstatus⟩ | ⟨k, hb, -⟩ := hends
    · simp [htrace, hstatus, Act.used, operandsReached, Ending.invalid, Result.word]
    · exact hb.elim
  · rw [show (commandOf .wrd s).act =
        .use .aAddr (.use .aVal (.tw (s.ops.aAddr.setWidth 5) s.ops.aVal (.fin .ok))) by
      simp [commandOf, wrdCommand, withDirect, haddr]] at hends ⊢
    obtain ⟨e, ⟨t', htrace, -⟩, -⟩ | ⟨k, htrace | ⟨t', -, hb⟩, -⟩ := hends
    · simp [htrace, Act.used, operandsReached, operandsRead]
    · simp [htrace, Act.used, operandsReached, operandsRead]
    · exact hb.elim

/-- R111: WRX reads `A_VAL` exactly if its selection was carried out, and then has four events. -/
theorem wrx_reached {s t : State} (h : exec .wrx s = .next t) :
    (commandOf .wrx s).act.used t.trace = operandsReached .wrx s t ∧
      (t.status = 0x0000 → operandsReached .wrx s t = operandsRead .wrx) := by
  obtain ⟨e, hl, -⟩ | ⟨k, hb, hstatus⟩ := exec_leads_or_breaks h
  · simp only [commandOf, wrxCommand, xsel, Act.leads] at hl
    obtain ⟨t₁, htrace, t₂, rfl, t₃, rfl, t₄, rfl, rfl, -⟩ := hl
    simp [htrace, commandOf, wrxCommand, xsel, Act.used, operandsReached, operandsRead]
  · have hne : t.status ≠ 0x0000 := fun h => by simpa using (Result.word_ok_iff _).mp (hstatus.symm.trans h)
    simp only [commandOf, wrxCommand, xsel, Act.breaks, and_false, exists_false, or_false] at hb
    obtain htrace | ⟨t₁, htrace, rfl | ⟨t₂, rfl, rfl | ⟨t₃, rfl, rfl⟩⟩⟩ := hb <;>
      exact ⟨by simp [htrace, commandOf, wrxCommand, xsel, Act.used, operandsReached], fun h => absurd h hne⟩

/-! CONFIGURE as its sub-operations issued one after another (R151 to R153) -/

/-- A body that ends OK or InvalidParameter, and what comes after it: the body's run returned and the rest runs on from
where it did, or its run was the end. -/
theorem run_andThen_of_all {U : Operand → Prop} {S : Nat → Prop} {p : Act}
    (hp : p.all U S fun e => e = .ok ∨ e = .invalid) (b : Option (BitVec 1)) (q : Act) (s : State) :
    (∃ u, run b p s = u.finish .ok ∧ run b (p.andThen q) s = run b q u) ∨
      (run b (p.andThen q) s = run b p s ∧ (run b p s).status ≠ 0x0000) := by
  have hfail (k : Kind) : (Result.transportFailure k).word ≠ 0x0000 := fun h => nomatch (Result.word_ok_iff _).mp h
  induction p generalizing s with
  | fin e =>
    obtain rfl | rfl := hp
    · exact .inl ⟨s, rfl, rfl⟩
    · exact .inr ⟨rfl, by simp [Ending.invalid, Result.word]⟩
  | use o p ih => exact ih hp.2 _
  | sub k p ih => exact ih hp.2 _
  | tr a f ih =>
    simp only [Act.andThen, run]
    rcases transportRead a s with ⟨k | v, t⟩
    · exact .inr ⟨rfl, hfail k⟩
    · exact ih v (hp v) t
  | tw a v p ih =>
    simp only [Act.andThen, run]
    rcases transportWrite a v s with ⟨k | _, t⟩
    · exact .inr ⟨rfl, hfail k⟩
    · exact ih hp t

theorem subop_failBool {i : Instr} (hi : i ∈ subopOrder) (s : State) : (commandOf i s).failBool = none :=
  failBool_eq_none (fun h => absurd (h ▸ hi) (by decide)) s

theorem subop_congr {i : Instr} (hi : i ∈ subopOrder) {s t : State} (h : SameEngine s t) :
    commandOf i t = commandOf i s :=
  commandOf_congr h.rm h.ops fun he => absurd (he ▸ hi) (by decide)

theorem exec_sameEngine {i : Instr} {s t : State} (h : exec i s = .next t) : SameEngine s t :=
  exec_keeps (sameEngine_closed s) h ⟨rfl, rfl, rfl, rfl, rfl, rfl⟩

/-- What a command does within another one is what it does on its own, but for the trace before it and, where it is
issued, SEQ and STATUS. -/
theorem run_command_within {i : Instr} {s t : State} (h : exec i s = .next t) (xs : List BusEvent) (q : Seq)
    (w : Word) :
    run (commandOf i s).failBool (commandOf i s).act { s with trace := xs, seq := q, status := w } =
      { t with trace := xs ++ t.trace } := by
  rw [exec_eq_runCommand] at h
  cases h
  rw [runCommand, ← run_within _ _ xs q w, State.within, State.start_trace, List.append_nil]
  rfl

theorem State.eq_of_finish_ok {u v : State} (h : u.finish .ok = v) :
    u = { v with seq := u.seq, status := u.status } := by
  subst h
  rfl

/-- R151 to R153: a chain of sub-operations runs as they do when issued one after another until one does not end OK. -/
theorem run_chain {is : List Instr} (his : ∀ i ∈ is, i ∈ subopOrder) {s : State}
    (hs : is = [] → s.status = 0x0000 ∧ s.seq = .idle) (k : Nat) (xs : List BusEvent) (q : Seq) (w : Word) :
    run none (chain k (is.map fun i => (commandOf i s).act)) { s with trace := xs, seq := q, status := w } =
      { (failFast is s).1 with trace := xs ++ (failFast is s).2 } := by
  induction is generalizing s k xs q w with
  | nil =>
    obtain ⟨hstatus, hseq⟩ := hs rfl
    simp [chain, failFast, State.finish, Ending.ok, Result.word, ← hstatus, ← hseq]
  | cons i is ih =>
    rw [List.forall_mem_cons] at his
    obtain ⟨hi, his⟩ := his
    obtain ⟨t, ht⟩ : ∃ t, exec i s = .next t := ⟨_, exec_eq_runCommand i s⟩
    have hbody := run_command_within ht xs (q.enter k) w
    rw [subop_failBool hi] at hbody
    simp only [List.map_cons, chain, run_sub, failFast, ht]
    obtain ⟨u, hu, hrun⟩ | ⟨hrun, hstatus⟩ := run_andThen_of_all (subop_all hi s) none
      (chain (k + 1) (is.map fun i => (commandOf i s).act)) { s with trace := xs, seq := q.enter k, status := w }
    · have hend : u.finish .ok = { t with trace := xs ++ t.trace } := hu.symm.trans hbody
      have hstatus : t.status = 0x0000 := (congrArg State.status hend).symm
      have hueq : u = { t with trace := xs ++ t.trace, seq := u.seq, status := u.status } :=
        State.eq_of_finish_ok hend
      have hmap : (is.map fun i => (commandOf i s).act) = is.map fun i => (commandOf i t).act :=
        List.map_congr_left fun j hj => by rw [subop_congr (his j hj) (exec_sameEngine ht)]
      rw [if_pos hstatus]
      refine hrun.trans ?_
      rw [hmap, hueq, ih his (fun _ => ⟨hstatus, exec_seq ht⟩), List.append_assoc]
    · rw [hbody] at hrun hstatus
      rw [if_neg hstatus]
      exact hrun

/-- R151 to R155: CONFIGURE ends as its sub-operations issued one after another until one does not end OK, with their
bus traces joined. -/
theorem exec_configure (s : State) :
    exec .configure s = .next { (failFast subopOrder s).1 with trace := (failFast subopOrder s).2 } := by
  have h := run_chain (is := subopOrder) (fun _ hi => hi) (s := s) nofun 0 []
    (.running (encode .configure) 0 0) s.status
  exact congrArg Host.Outcome.next h

/-- R58: sub-operations issued one after another mark the unwritten operands of those that are issued. -/
theorem failFast_hostFault {is : List Instr} (his : ∀ i ∈ is, i ∈ subopOrder) (s : State) :
    (failFast is s).1.hostFault = faultAfter s ((issuedBy is s).flatMap operandsRead) := by
  induction is generalizing s with
  | nil => simp [failFast, issuedBy]
  | cons i is ih =>
    rw [List.forall_mem_cons] at his
    obtain ⟨hi, his⟩ := his
    obtain ⟨t, ht⟩ : ∃ t, exec i s = .next t := ⟨_, exec_eq_runCommand i s⟩
    have hne : i ∉ [.wrd, .wrx, .configure] :=
      (by decide : ∀ j ∈ subopOrder, j ∉ [Instr.wrd, .wrx, .configure]) i hi
    have hfault : t.hostFault = faultAfter s (operandsRead i) := by rw [exec_hostFault ht, commandOf_used hne]
    simp only [failFast, issuedBy, ht]
    split
    · rw [ih his, faultAfter_append (exec_sameEngine ht).unwritten hfault, List.flatMap_cons]
    · simpa using hfault

theorem issuedBy_subset (is : List Instr) (s : State) : ∀ i ∈ issuedBy is s, i ∈ is := by
  induction is generalizing s with
  | nil => simp [issuedBy]
  | cons i is ih =>
    obtain ⟨t, ht⟩ : ∃ t, exec i s = .next t := ⟨_, exec_eq_runCommand i s⟩
    simp only [issuedBy, ht]
    split
    · rw [List.forall_mem_cons]
      exact ⟨by simp, fun j hj => List.mem_cons_of_mem i (ih t j hj)⟩
    · simp

theorem head_mem_issuedBy (i : Instr) (is : List Instr) (s : State) : i ∈ issuedBy (i :: is) s := by
  rw [issuedBy, exec_eq_runCommand]
  dsimp only
  split <;> simp

/-- R152: all the sub-operations are issued if the last state's result is OK. -/
theorem issuedBy_of_status_ok (is : List Instr) {s : State} (h : (failFast is s).1.status = 0x0000) :
    issuedBy is s = is := by
  induction is generalizing s with
  | nil => rfl
  | cons i is ih =>
    obtain ⟨t, ht⟩ : ∃ t, exec i s = .next t := ⟨_, exec_eq_runCommand i s⟩
    simp only [failFast, issuedBy, ht] at h ⊢
    split at h
    case isTrue hok => rw [if_pos hok, ih h]
    case isFalse hne => exact absurd h hne

/-- R58, R88: the operands a command marks are exactly those it reaches, and all of its row of R88 if it ends OK. -/
theorem exec_reached {i : Instr} {s t : State} (h : exec i s = .next t) :
    t.hostFault = faultAfter s (operandsReached i s t) ∧
      (t.status = 0x0000 → operandsReached i s t = operandsRead i) := by
  by_cases hi : i ∈ [.wrd, .wrx, .configure]
  · simp only [List.mem_cons, List.not_mem_nil, or_false] at hi
    obtain rfl | rfl | rfl := hi
    · obtain ⟨hused, hok⟩ := wrd_reached h
      exact ⟨hused ▸ exec_hostFault h, hok⟩
    · obtain ⟨hused, hok⟩ := wrx_reached h
      exact ⟨hused ▸ exec_hostFault h, hok⟩
    · cases (exec_configure s).symm.trans h
      refine ⟨failFast_hostFault (fun _ hi => hi) s, fun hok => ?_⟩
      rw [operandsReached, issuedBy_of_status_ok subopOrder hok, operandsRead_configure]
  · have hreach : operandsReached i s t = operandsRead i := by
      cases i
      case wrd | wrx | configure => exact absurd (by decide) hi
      all_goals rfl
    exact ⟨by rw [hreach, exec_hostFault h, commandOf_used hi], fun _ => hreach⟩

theorem operandsReached_subset (i : Instr) (s t : State) : ∀ o ∈ operandsReached i s t, o ∈ operandsRead i := by
  cases i
  case wrd =>
    simp only [operandsReached]
    split <;> simp [operandsRead]
  case wrx =>
    simp only [operandsReached]
    split <;> simp [operandsRead]
  case configure =>
    intro o ho
    obtain ⟨i, hi, ho⟩ := List.mem_flatMap.mp ho
    rw [← operandsRead_configure]
    exact List.mem_flatMap.mpr ⟨i, issuedBy_subset subopOrder s i hi, ho⟩
  all_goals exact fun _ ho => ho

theorem head_mem_operandsReached {i : Instr} {o : Operand} (h : (operandsRead i).head? = some o) (s t : State) :
    o ∈ operandsReached i s t := by
  cases i
  case wrd =>
    cases h
    simp only [operandsReached]
    split <;> simp
  case wrx =>
    cases h
    simp only [operandsReached]
    split <;> simp
  case configure =>
    cases h
    exact List.mem_flatMap.mpr ⟨.setlink, head_mem_issuedBy _ _ s, by simp [operandsRead]⟩
  all_goals exact List.mem_of_mem_head? h

end Sys2Proof.Machine
end

section
/-! The host's registers (10_state.md R22): the index of each, what a write leaves in an operand register, and what an
access does to an idle machine. -/

namespace Sys2Proof.Machine

open Sys2Proof.Safety

@[simp] theorem hostRegister_registerIndex (r : HostReg) : hostRegister (registerIndex r) = some r := by
  cases r with
  | operand o => cases o <;> rfl
  | _ => rfl

theorem registerIndex_of_hostRegister {index : BitVec 8} {r : HostReg} (h : hostRegister index = some r) :
    index = registerIndex r := by
  unfold hostRegister at h
  split at h <;> cases h <;> exact BitVec.eq_of_toNat_eq ‹_›

theorem hostRegister_eq_none {index : BitVec 8} (h : ∀ r, index ≠ registerIndex r) : hostRegister index = none := by
  cases hr : hostRegister index with
  | none => rfl
  | some r => exact absurd (registerIndex_of_hostRegister hr) (h r)

/-- R14, R22: a write leaves the value in its register, truncated to the register's width, and no other changes. -/
theorem Operands.get_set (b : Operands) (o p : Operand) (v : BitVec 32) :
    (b.set o v).get p = if p = o then (v.setWidth (operandWidth o)).setWidth 32 else b.get p := by
  cases o <;> cases p <;> rfl

theorem operandWidth_le (o : Operand) : operandWidth o ≤ 32 := by
  cases o <;> decide

theorem Operands.get_set_toNat (b : Operands) (o : Operand) (v : BitVec 32) :
    ((b.set o v).get o).toNat = v.toNat % 2 ^ operandWidth o := by
  rw [Operands.get_set, if_pos rfl, BitVec.toNat_setWidth_of_le (operandWidth_le o), BitVec.toNat_setWidth]

theorem step_write_operand {s : State} {ms : List HostMove} {o : Operand} {v : BitVec 32} (hs : s.seq = .idle)
    (h : s.host = .write (registerIndex (.operand o)) v :: ms) :
    step s = .next (({ s with host := ms } : State).setOperand o v) := by
  rw [step_host hs h, hostMove, hostWrite, hostRegister_registerIndex]

theorem step_read {s : State} {ms : List HostMove} {r : HostReg} {v : BitVec 32} (hs : s.seq = .idle)
    (h : s.host = .read (registerIndex r) :: ms) (hv : s.hostRead r = some v) :
    step s = .next { s with host := ms, got := s.got ++ [(r, v)] } := by
  have hv' : ({ s with host := ms } : State).hostRead r = some v := by
    rw [← hv]
    cases r <;> rfl
  rw [step_host hs h, hostMove, hostReadAt, hostRegister_registerIndex]
  simp only [hv']

end Sys2Proof.Machine
end

section
/-! The statements of 10_state.md settled. -/

namespace Sys2Proof.Proofs

open Sys2Proof.Machine Sys2Proof.Safety

/-- Settles O58: SEQ agrees with the bus trace exactly where its command is at an event with the mark of its sequence,
and an event takes it to the next such place, or ends the command. -/
theorem stepKeepsInv : Obligations.StepKeepsInv :=
  ⟨fun _ _ hs h => inv_step hs h, fun i _ hs => inv_issue i hs⟩

/-- Settles O59: where SEQ agrees with the bus trace the command is at an event, and the engine performs it. -/
theorem engineNeverFaults : Obligations.EngineNeverFaults := by
  rintro s ⟨-, -, hagree⟩
  refine ⟨step_ne_fault hagree, fun hb => ?_⟩
  obtain ⟨t, ht, -⟩ := step_of_seqAgrees hagree hb
  exact ⟨t, ht⟩

/-- Settles O60: by what one event does to the trace, the draws and SEQ, and by induction on the events that a command
in progress still has before the state its run ends in. -/
theorem oneEventAtATimeIsExec : Obligations.OneEventAtATimeIsExec := by
  refine ⟨fun s t hb h => ?_, fun i s => ?_⟩
  · obtain ⟨op, k, n, hseq, he⟩ := engineStep_of_busy hb h
    obtain ⟨i, q, rfl, hahead, hev, hstep⟩ := engineStep_cases he
    obtain ⟨x, htrace, henv, htick⟩ := hstep.records
    refine ⟨x, htrace, henv, htick, ?_⟩
    obtain ⟨hidle, -⟩ | ⟨x, r, r', -, -, -, hat, -⟩ := hstep.cases_at ⟨hseq, hahead, hev⟩
    · exact .inl hidle
    · exact .inr ⟨_, k, _, n, hseq, hat.seq⟩
  · obtain ⟨t, ht, hends⟩ := issue_endsIn i s
    have htrace : t.trace = (issue i s).trace ++ t.trace := by rw [issue_trace, List.nil_append]
    refine ⟨t, ht, exec_trace_length ht, fun n hn => ?_⟩
    obtain ⟨u, hu, hut, hbusy, hend⟩ := hends.core_run htrace hn
    exact ⟨u, hu, by rw [hut, issue_trace, List.nil_append], hbusy, hend⟩

/-- Settles O5. -/
theorem hostWriteTruncates : Obligations.HostWriteTruncates := by
  rintro s index v ms o hs h rfl
  refine ⟨_, step_write_operand hs h, Operands.get_set_toNat s.ops o v, fun p hp => ?_, fun p => ?_, rfl⟩
  · exact (Operands.get_set s.ops o p v).trans (if_neg hp)
  · simp

/-- Settles O7: the index of R22 and the register it names determine each other. -/
theorem hostAccessRefused : Obligations.HostAccessRefused := by
  refine ⟨hostRegister_registerIndex, by decide +kernel, fun s index v ms hs =>
    ⟨fun hr => ?_, fun r hi hr h => ?_, fun h => ?_⟩⟩
  · have hnone := hostRegister_eq_none hr
    refine ⟨fun h => ?_, fun h => ?_⟩
    · rw [step_host hs h, hostMove, hostWrite, hnone]
    · rw [step_host hs h, hostMove, hostReadAt, hnone]
  · subst hi
    rw [step_host hs h, hostMove, hostWrite, hostRegister_registerIndex]
    obtain rfl | rfl | rfl | rfl := hr <;> rfl
  · rw [step_host hs h]
    rfl

/-- Settles O9: a busy step is part of a run, and no part of a run changes what is the host's. -/
theorem busyHostHasNoMove : Obligations.BusyHostHasNoMove := by
  intro s t hb h
  obtain ⟨op, k, n, -, he⟩ := engineStep_of_busy hb h
  obtain ⟨hrm, hdev, hops, hhost, hgot, hunwritten⟩ := engineStep_keeps (sameEngine_closed s) he (.refl s)
  exact ⟨hhost, hgot, hops, hunwritten, hrm, hdev⟩

/-- Settles O40: every store, the environment's too, keeps the strap bit, and so every part of a run does. -/
theorem strapBitIsReadOnly : Obligations.StrapBitIsReadOnly := fun _ _ => step_sameStrap

/-- Settles O54: by the endings each command's sequence can have. -/
theorem commandFrame : Obligations.CommandFrame := by
  intro i s t h
  obtain ⟨xs, phy, q, hf, e, rfl, ⟨hrval, hrbool, hrstate⟩, hdev⟩ := exec_ends h
  refine ⟨rfl, rfl, rfl, rfl, rfl, rfl, fun hi => ?_, fun hi => ?_, fun hi => ?_, rfl, rfl, hdev⟩
  · have he := hrval (hi.imp_right fun hs he => hs ((Result.word_ok_iff _).mpr he))
    exact congrArg (·.getD s.rval) he
  · exact congrArg (·.getD s.rbool) (hrbool hi)
  · exact congrArg (·.getD s.rstate) (hrstate hi)

/-- Settles O56: by the operands each command's sequence has read by the bus trace it left; CONFIGURE's by its run as
sub-operations issued one after another. -/
theorem hostFaultMarksUnwrittenOperands : Obligations.HostFaultMarksUnwrittenOperands := by
  intro i s
  obtain ⟨t, ht⟩ : ∃ t, exec i s = .next t := ⟨_, exec_eq_runCommand i s⟩
  obtain ⟨hfault, hok⟩ := exec_reached ht
  refine ⟨t, ht, hfault, fun hs => hok hs ▸ hfault, fun hw => ?_, fun o ho hu => ?_⟩
  · exact hfault.trans (faultAfter_of_written fun o ho => hw o (operandsReached_subset i s t o ho))
  · exact hfault.trans (faultAfter_of_mem (head_mem_operandsReached ho s t) hu)

/-- Settles O6: a read widens its register with zeros, so the number it holds is the same. -/
theorem hostReadReturnsRegister : Obligations.HostReadReturnsRegister := by
  rintro s index ms r hs h rfl hr
  have hread {v : BitVec 32} (hv : s.hostRead r = some v) := step_read hs h hv
  cases r with
  | cmd => exact absurd rfl hr
  | status => exact ⟨_, hread rfl, fun _ => BitVec.toNat_setWidth_of_le (by decide), nofun, nofun, nofun, nofun⟩
  | rval => exact ⟨_, hread rfl, nofun, fun _ => BitVec.toNat_setWidth_of_le (by decide), nofun, nofun, nofun⟩
  | rbool => exact ⟨_, hread rfl, nofun, nofun, fun _ => BitVec.toNat_setWidth_of_le (by decide), nofun, nofun⟩
  | rstate => exact ⟨_, hread rfl, by simp +contextual [ResetState.code]⟩
  | operand o => exact ⟨_, hread rfl, by simp⟩

/-- Settles O8. -/
theorem resetLeaves : Obligations.ResetLeaves := by
  have hall (o : Operand) : o ∈ Operand.all := by cases o <;> decide
  refine ⟨⟨rfl, rfl, rfl, rfl, rfl, rfl, hall⟩, fun s ms hs h => ⟨_, step_host hs h, ?_⟩⟩
  exact ⟨rfl, rfl, rfl, rfl, rfl, hall, rfl, rfl, rfl, rfl, rfl, rfl, rfl⟩

/-- Settles O57. -/
theorem invHoldsAtReset : Obligations.InvHoldsAtReset := ⟨Phy.initial_wf, ⟨.ok, rfl⟩, trivial⟩

end Sys2Proof.Proofs
end

section
/-! The PHY and the environment behind the transport port (20_memory.md part E): what a write, a step of
the environment and one event do to the PHY, and the registers no event of a run stores to. -/

namespace Sys2Proof.Machine

open Sys2Proof.Safety

/-! A write of the MMD data register, by mode (R78) -/

section
variable {rm : RegMap} {p : Phy}

theorem Phy.write_mmdData_of_address (h : p.direct rm.mmdCtl = rm.mmdAddrWord) (v : Word) :
    p.write rm rm.mmdData v = { p with xa := v } := by
  rw [Phy.write, if_pos rfl, Phy.mode, if_pos h]

theorem Phy.write_mmdData_of_data (ha : p.direct rm.mmdCtl ≠ rm.mmdAddrWord)
    (hd : p.direct rm.mmdCtl = rm.mmdDataWord) (v : Word) :
    p.write rm rm.mmdData v = p.store rm (.ext p.xa) v := by
  rw [Phy.write, if_pos rfl, Phy.mode, if_neg ha, if_pos hd]

theorem Phy.write_mmdData_of_other (ha : p.direct rm.mmdCtl ≠ rm.mmdAddrWord)
    (hd : p.direct rm.mmdCtl ≠ rm.mmdDataWord) (v : Word) :
    p.write rm rm.mmdData v = { p with lost := true } := by
  rw [Phy.write, if_pos rfl, Phy.mode, if_neg ha, if_neg hd]

end

/-! One register accessed directly (R78, R79) -/

theorem Phy.write_of_ne {rm : RegMap} {a : Direct5} (h : a ≠ rm.mmdData) (p : Phy) (v : Word) :
    p.write rm a v = p.setDirect a v := if_neg h

theorem Phy.read_of_ne {rm : RegMap} {a : Direct5} (h : a ≠ rm.mmdData) (p : Phy) :
    p.read rm a = some (p.direct a) := if_neg h

theorem State.readEffect_of_ne {s : State} {a : Direct5} (h : a ≠ s.rm.mmdData) : s.readEffect a = s := by
  simp [State.readEffect, Phy.read_of_ne h]

/-- R79: where ENV_REF gives the value, a direct register reads as what it holds. -/
theorem State.readValue_of_ne {s : State} {d : Draw} {a : Direct5} (h : a ≠ s.rm.mmdData) (hv : d.value = none)
    (hl : s.phy.lost = false) (n : Nat) : s.readValue d n a = s.phy.direct a := by
  simp [State.readValue, hv, hl, Phy.read_of_ne h]

/-- A read of a direct register, failed or not, leaves the PHY as the environment's own steps did. -/
theorem transportRead_phy_of_ne {s : State} {a : Direct5} (h : a ≠ s.rm.mmdData) :
    (transportRead a s).2.phy = s.takeDraw.phy := by
  have heffect : s.takeDraw.readEffect a = s.takeDraw := State.readEffect_of_ne h
  unfold transportRead
  rw [heffect, ite_self]
  cases s.draw.fail <;> rfl

/-- R80 (c): a write takes effect if it completes, or fails and the draw says that it landed. -/
theorem transportWrite_phy (a : Direct5) (v : Word) (s : State) :
    (transportWrite a v s).2.phy =
      if s.draw.fail = none ∨ s.draw.lands = true then s.takeDraw.phy.write s.rm a v else s.takeDraw.phy := by
  rcases transportWrite_cases a v s with ⟨k, u, e, hf, -, -, hp, -⟩ | ⟨u, e, hf, -, -, hp, -⟩ <;> simp [e, hf, hp]

/-! A listed draw (R76) -/

theorem State.draw_of_env {s : State} {d : Draw} {rest : List Draw} (h : s.env = d :: rest) : s.draw = d := by
  rw [State.draw, h]

theorem State.takeDraw_phy_of_env {s : State} {d : Draw} {rest : List Draw} (h : s.env = d :: rest) :
    s.takeDraw.phy = phyAfterMoves s d := by
  rw [State.takeDraw_phy, State.draw_of_env h, phyAfterMoves]

section
variable {s : State} {d : Draw} {rest : List Draw} {a : Direct5} (henv : s.env = d :: rest) (ha : a ≠ s.rm.mmdData)
include henv ha

/-- A sequence of one read of a direct register: it reads the PHY that the drawn steps leave, and leaves it. -/
theorem run_tr_value_of_ne (b : Option (BitVec 1)) :
    (run b (.tr a fun v => .fin (.value v)) s).phy = phyAfterMoves s d ∧
      (d.fail = none → d.value = none → (phyAfterMoves s d).lost = false →
        (run b (.tr a fun v => .fin (.value v)) s).rval = (phyAfterMoves s d).direct a) := by
  have hd : s.draw = d := State.draw_of_env henv
  have hmoves : s.takeDraw.phy = phyAfterMoves s d := State.takeDraw_phy_of_env henv
  have hphy : (transportRead a s).2.phy = phyAfterMoves s d := (transportRead_phy_of_ne ha).trans hmoves
  rcases transportRead_cases a s with ⟨k, u, e, hf, -⟩ | ⟨v, u, e, -, hv, -⟩ <;> rw [e] at hphy <;> simp only [run, e]
  · refine ⟨hphy, fun hfail => ?_⟩
    rw [hd, hfail] at hf
    cases hf
  · refine ⟨hphy, fun _ hvalue hlost => hv.trans ?_⟩
    have hread : s.takeDraw.readValue s.draw s.tick a = s.takeDraw.phy.direct a :=
      State.readValue_of_ne (s := s.takeDraw) ha (by rw [hd, hvalue]) (by rw [hmoves, hlost]) _
    rw [hread, hmoves]

/-- A sequence of one write of a direct register: it stores to the PHY that the drawn steps leave, where it takes
effect. -/
theorem run_tw_fin_of_ne (b : Option (BitVec 1)) (v : Word) (e : Ending) :
    (run b (.tw a v (.fin e)) s).phy =
      if d.fail = none ∨ d.lands = true then (phyAfterMoves s d).setDirect a v else phyAfterMoves s d := by
  have hphy := transportWrite_phy a v s
  rw [State.takeDraw_phy_of_env henv, State.draw_of_env henv, Phy.write_of_ne ha] at hphy
  rw [← hphy, run]
  rcases transportWrite a v s with ⟨_ | _, u⟩ <;> rfl

end

/-! The direct commands, their address in range (R106, R107, R115) -/

theorem withDirect_of_toNat_eq {addr : BitVec 16} {a : Direct5} (h : addr.toNat = a.toNat) (f : Direct5 → Act) :
    withDirect addr f = f a := by
  have ha : addr.setWidth 5 = a := by simp [BitVec.toNat_eq, h, Nat.mod_eq_of_lt a.isLt]
  rw [withDirect, if_neg (by omega), ha]

theorem exec_rdd_eq_run {s : State} {a : Direct5} (h : s.ops.aAddr.toNat = a.toNat) :
    exec .rdd s =
      .next (run none (.tr a fun v => .fin (.value v)) ((s.start (encode .rdd)).useOperand .aAddr)) := by
  rw [exec_eq_runCommand, runCommand, commandOf, rddCommand, withDirect_of_toNat_eq h, run_use]

theorem exec_wrd_eq_run {s : State} {a : Direct5} (h : s.ops.aAddr.toNat = a.toNat) :
    exec .wrd s =
      .next (run none (.tw a s.ops.aVal (.fin .ok))
        (((s.start (encode .wrd)).useOperand .aAddr).useOperand .aVal)) := by
  rw [exec_eq_runCommand, runCommand, commandOf, wrdCommand, withDirect_of_toNat_eq h, run_use, run_use]

/-! Steps of the environment's own (R80 (a), (b)) -/

theorem Phy.resetting_iff {rm : RegMap} {p : Phy} : p.resetting rm = true ↔ p.reg rm.ctrl &&& rm.resetBit ≠ 0 := by
  simp [Phy.resetting]

theorem Phy.move_of_not_resetting {rm : RegMap} {p : Phy} (h : p.reg rm.ctrl &&& rm.resetBit = 0) (m : EnvMove) :
    p.move rm m = p := if_neg fun hr => Phy.resetting_iff.mp hr h

section
variable {rm : RegMap} {p : Phy} (h : p.reg rm.ctrl &&& rm.resetBit ≠ 0)
include h

theorem Phy.move_clearReset :
    p.move rm .clearReset = p.store rm rm.ctrl (p.reg rm.ctrl &&& ~~~rm.resetBit) :=
  if_pos (Phy.resetting_iff.mpr h)

theorem Phy.move_change (l : RegLoc) (v : Word) : p.move rm (.change l v) = p.store rm l v :=
  if_pos (Phy.resetting_iff.mpr h)

theorem Phy.move_changeLatch (v : Word) : p.move rm (.changeLatch v) = { p with xa := v } :=
  if_pos (Phy.resetting_iff.mpr h)

end

theorem Phy.lost_move (rm : RegMap) (p : Phy) (m : EnvMove) : (p.move rm m).lost = p.lost := by
  unfold Phy.move
  split
  · cases m with
    | clearReset => exact p.lost_store rm _ _
    | change l v => exact p.lost_store rm _ _
    | changeLatch v => rfl
  · rfl

/-- What a register holds after a store to it, the strap register or not (R36). -/
theorem Phy.reg_store (rm : RegMap) (p : Phy) (l : RegLoc) (v : Word) :
    (p.store rm l v).reg l =
      if l = .ext rm.strap then (v &&& ~~~rm.fldStrapBit) ||| (p.reg l &&& rm.fldStrapBit) else v :=
  p.reg_setReg_same l _

/-- Clearing bits of a register by a store leaves its other bits alone. -/
theorem Phy.reg_store_clear_and_not (rm : RegMap) (p : Phy) (l : RegLoc) (m : Word) :
    (p.store rm l (p.reg l &&& ~~~m)).reg l &&& ~~~m = p.reg l &&& ~~~m := by
  rw [Phy.reg_store]
  split
  · ext i hi
    simp only [BitVec.getElem_and, BitVec.getElem_or, BitVec.getElem_not]
    cases rm.fldStrapBit[i] <;> simp
  · rw [BitVec.and_assoc, BitVec.and_self]

theorem and_not_and_of_disjoint {m n : Word} (h : m &&& n = 0) (v : Word) : v &&& ~~~m &&& n = v &&& n := by
  refine BitVec.eq_of_getLsbD_eq fun i hi => ?_
  have hbit := congrArg (BitVec.getLsbD · i) h
  simp only [BitVec.getLsbD_and, BitVec.getLsbD_not] at hbit ⊢
  grind

/-- Clearing bits of a register by a store clears them, where none is the strap bit. -/
theorem Phy.reg_store_clear_and (rm : RegMap) (p : Phy) {l : RegLoc} {m : Word}
    (h : l = .ext rm.strap → m &&& rm.fldStrapBit = 0) :
    (p.store rm l (p.reg l &&& ~~~m)).reg l &&& m = 0 := by
  rw [p.reg_store_keeps l _ fun hl => and_not_and_of_disjoint (h hl) _]
  simp [BitVec.and_assoc]

/-- R80 (a): a step that clears the reset bit changes no other bit, no other register and not the latch. -/
theorem Phy.move_clearReset_frame (rm : RegMap) (p : Phy) :
    (p.move rm .clearReset).reg rm.ctrl &&& ~~~rm.resetBit = p.reg rm.ctrl &&& ~~~rm.resetBit ∧
      (∀ l, l ≠ rm.ctrl → (p.move rm .clearReset).reg l = p.reg l) ∧ (p.move rm .clearReset).xa = p.xa := by
  by_cases h : p.reg rm.ctrl &&& rm.resetBit = 0
  · rw [Phy.move_of_not_resetting h]
    exact ⟨rfl, fun _ _ => rfl, rfl⟩
  · rw [Phy.move_clearReset h]
    exact ⟨p.reg_store_clear_and_not rm _ _, fun _ hl => p.reg_store_other rm _ hl, p.xa_store rm _ _⟩

theorem Phy.move_clearReset_clears {rm : RegMap} (p : Phy)
    (hs : rm.ctrl = .ext rm.strap → rm.resetBit &&& rm.fldStrapBit = 0) :
    (p.move rm .clearReset).reg rm.ctrl &&& rm.resetBit = 0 := by
  by_cases h : p.reg rm.ctrl &&& rm.resetBit = 0
  · rw [Phy.move_of_not_resetting h, h]
  · rw [Phy.move_clearReset h, p.reg_store_clear_and rm hs]

/-! The registers that no event of a run stores to -/

theorem takeDraw_phy_of_stillFor {n : Nat} {s : State} (h : stillFor n s) (hn : 0 < n) :
    s.takeDraw.phy = s.phy := by
  obtain ⟨hlen, hmoves⟩ := h
  obtain ⟨n, rfl⟩ := Nat.exists_eq_add_one.mpr hn
  cases he : s.env with
  | nil => simp [he] at hlen
  | cons d rest =>
    have hd : d.moves = [] := hmoves d (by simp [he])
    rw [State.takeDraw_phy_of_env he, phyAfterMoves, hd, List.foldl_nil]

theorem stillFor_tail {n : Nat} {s u : State} (h : stillFor n s) (hu : u.env = s.env.tail) : stillFor (n - 1) u := by
  obtain ⟨hlen, hmoves⟩ := h
  refine ⟨by simpa [hu] using Nat.sub_le_sub_right hlen 1, fun d hd => hmoves d ?_⟩
  rw [hu] at hd
  cases n with
  | zero => simp at hd
  | succ n =>
    cases he : s.env with
    | nil => simp [he] at hd
    | cons e rest => exact List.mem_cons_of_mem _ (by simpa [he] using hd)

/-- From PHY `p` to `q` a register that these events do not store to is unchanged (R78), and the latch is where none
of them writes the MMD data register. -/
def Phy.Keeps (rm : RegMap) (p : Phy) (xs : List BusEvent) (q : Phy) : Prop :=
  (∀ l, l ∉ storesTo rm (p.direct rm.mmdCtl) p.xa xs → q.reg l = p.reg l) ∧
    ((∀ e ∈ xs, writtenTo e ≠ some rm.mmdData) → q.xa = p.xa)

/-- The PHY's registers and latch do not depend on the `lost` mark. -/
theorem Phy.reg_lost (p : Phy) (b : Bool) (l : RegLoc) : ({ p with lost := b } : Phy).reg l = p.reg l := by
  cases l <;> rfl

theorem Phy.Keeps.refl (rm : RegMap) (p : Phy) (xs : List BusEvent) : p.Keeps rm xs p :=
  ⟨fun _ _ => rfl, fun _ => rfl⟩

theorem Phy.Keeps.lost (rm : RegMap) (p : Phy) (xs : List BusEvent) (b : Bool) :
    p.Keeps rm xs { p with lost := b } :=
  ⟨fun l _ => p.reg_lost b l, fun _ => rfl⟩

/-- Events that keep every register they do not store to, after one that writes no register. -/
theorem Phy.Keeps.of_read {rm : RegMap} {p q : Phy} {b : Bool} {x : BusEvent} {xs : List BusEvent}
    (hx : writtenTo x = none) (h : ({ p with lost := b } : Phy).Keeps rm xs q) : p.Keeps rm (x :: xs) q := by
  obtain ⟨hreg, hxa⟩ := h
  refine ⟨fun l hl => (hreg l ?_).trans (p.reg_lost b l), fun hw => hxa fun e he => hw e (.tail _ he)⟩
  cases x with
  | read | readFailed => exact hl
  | write | writeFailed => cases hx

/-- `storesTo` follows the MMD control register and the latch as `Phy.write` does: a register that a write and the
events after it do not store to is unchanged by the write, and not stored to by those events either (R78). -/
theorem Phy.write_of_not_mem_storesTo {rm : RegMap} {p : Phy} {dev : Nat} {a : Direct5} {v : Word}
    {xs : List BusEvent} {l : RegLoc}
    (hl : l ∉ storesTo rm (p.direct rm.mmdCtl) p.xa (.write dev a v :: xs)) :
    (p.write rm a v).reg l = p.reg l ∧
      l ∉ storesTo rm ((p.write rm a v).direct rm.mmdCtl) (p.write rm a v).xa xs := by
  by_cases ha : a = rm.mmdData
  · subst ha
    by_cases haddr : p.direct rm.mmdCtl = rm.mmdAddrWord
    · simp only [storesTo, if_true, if_pos haddr] at hl
      rw [Phy.write_mmdData_of_address haddr]
      exact ⟨by cases l <;> rfl, hl⟩
    · by_cases hdata : p.direct rm.mmdCtl = rm.mmdDataWord
      · simp only [storesTo, if_true, if_neg haddr, if_pos hdata, List.mem_cons, not_or] at hl
        obtain ⟨hne, hrest⟩ := hl
        rw [Phy.write_mmdData_of_data haddr hdata]
        exact ⟨p.reg_store_other rm v hne, hrest⟩
      · simp only [storesTo, if_true, if_neg haddr, if_neg hdata] at hl
        rw [Phy.write_mmdData_of_other haddr hdata]
        exact ⟨p.reg_lost true l, hl⟩
  · have hctl : (p.setDirect a v).direct rm.mmdCtl = if a = rm.mmdCtl then v else p.direct rm.mmdCtl := by
      split
      next h => rw [h, p.direct_setDirect_same]
      next h => exact p.direct_setDirect_other v (Ne.symm h)
    simp only [storesTo, ha, if_false, List.mem_cons, not_or] at hl
    obtain ⟨hne, hrest⟩ := hl
    rw [Phy.write_of_ne ha, hctl]
    exact ⟨p.reg_setReg_other (l := .direct a) v hne, hrest⟩

/-- Events that keep every register they do not store to, after a write that took effect. -/
theorem Phy.Keeps.of_write {rm : RegMap} {p q : Phy} {dev : Nat} {a : Direct5} {v : Word} {xs : List BusEvent}
    (h : (p.write rm a v).Keeps rm xs q) : p.Keeps rm (.write dev a v :: xs) q := by
  obtain ⟨hreg, hxa⟩ := h
  refine ⟨fun l hl => ?_, fun hw => ?_⟩
  · obtain ⟨hsame, hrest⟩ := Phy.write_of_not_mem_storesTo hl
    exact (hreg l hrest).trans hsame
  · have ha : a ≠ rm.mmdData := fun ha => hw _ (.head _) (congrArg some ha)
    rw [hxa fun e he => hw e (.tail _ he), Phy.write_of_ne ha, p.xa_setDirect]

/-- A failed write, the last event of its trace, took effect or did not (R80 (c)). -/
theorem Phy.Keeps.writeFailed (rm : RegMap) (p : Phy) (dev : Nat) (a : Direct5) (v : Word) (k : Kind)
    (lands : Bool) :
    p.Keeps rm [.writeFailed dev a v k] (if lands = true then p.write rm a v else p) := by
  cases lands with
  | false => exact .refl rm p _
  | true =>
    have hwrite : p.Keeps rm [.write dev a v] (p.write rm a v) := .of_write (.refl rm _ [])
    obtain ⟨hreg, hxa⟩ := hwrite
    exact ⟨hreg, fun hw => hxa (by simpa [writtenTo] using hw)⟩

/-- R76, R78: a run with no step of the environment's own keeps what its events do not store to. -/
theorem run_keeps_unstored {p : Act} {n : Nat} (hp : p.atMost n) (b : Option (BitVec 1)) {s : State}
    (hs : stillFor n s) :
    ∃ xs, (run b p s).trace = s.trace ++ xs ∧ s.phy.Keeps s.rm xs (run b p s).phy := by
  induction p generalizing n s with
  | fin e => exact ⟨[], (List.append_nil _).symm, .refl _ _ _⟩
  | use o p ih => exact ih hp (s := s.useOperand o) hs
  | sub k p ih => exact ih hp (s := s.enterSub k) hs
  | tr a f ih =>
    obtain ⟨hn, hf⟩ := hp
    have hphy : s.takeDraw.phy = s.phy := takeDraw_phy_of_stillFor hs hn
    rcases transportRead_cases a s with
      ⟨k, u, e, -, ht, -, ⟨c, hu⟩, -⟩ | ⟨v, u, e, -, -, ht, -, ⟨c, hu⟩, henv, -, hsame, -⟩ <;>
      rw [hphy] at hu <;> simp only [run, e]
    · refine ⟨[.readFailed s.devAddr a k], ht, ?_⟩
      rw [State.finish_phy, hu]
      exact .lost _ _ _ _
    · obtain ⟨xs, htrace, hkeeps⟩ := ih v (hf v) (stillFor_tail hs henv)
      rw [hsame.rm, hu] at hkeeps
      exact ⟨.read s.devAddr a v :: xs, by simp [htrace, ht], .of_read rfl hkeeps⟩
  | tw a v p ih =>
    obtain ⟨hn, hp⟩ := hp
    have hphy : s.takeDraw.phy = s.phy := takeDraw_phy_of_stillFor hs hn
    rcases transportWrite_cases a v s with
      ⟨k, u, e, -, ht, -, hu, -⟩ | ⟨u, e, -, ht, -, hu, henv, -, hsame, -⟩ <;>
      rw [hphy] at hu <;> simp only [run, e]
    · refine ⟨[.writeFailed s.devAddr a v k], ht, ?_⟩
      rw [State.finish_phy, hu]
      exact .writeFailed _ _ _ _ _ _ _
    · obtain ⟨xs, htrace, hkeeps⟩ := ih hp (stillFor_tail hs henv)
      rw [hsame.rm, hu] at hkeeps
      exact ⟨.write s.devAddr a v :: xs, by simp [htrace, ht], .of_write hkeeps⟩

theorem exec_keeps_unstored {i : Instr} {s t : State} (hs : stillFor 57 s) (h : exec i s = .next t) :
    s.phy.Keeps s.rm t.trace t.phy := by
  rw [exec_eq_runCommand] at h
  cases h
  obtain ⟨xs, htrace, hkeeps⟩ := run_keeps_unstored ((commandOf_atMost i s).mono (eventBound_le i))
    (commandOf i s).failBool (s := s.start (encode i)) hs
  rw [runCommand, htrace]
  exact hkeeps

end Sys2Proof.Machine
end

section
/-! The statements of 20_memory.md settled. -/

namespace Sys2Proof.Proofs

open Sys2Proof.Machine Sys2Proof.Safety

/-- Settles O38: by induction on the run, since `storesTo` follows the MMD control register and the latch as the PHY
does; the premise on `lost` is not needed, since an access that ENV_REF refuses changes no register. -/
theorem unwrittenRegistersKept : Obligations.UnwrittenRegistersKept :=
  fun _ _ _ hs h _ => exec_keeps_unstored hs h

/-- Settles O39: each step of the environment by what a store keeps, and RDD and WRD by the PHY that their one event
leaves. -/
theorem environmentSteps : Obligations.EnvironmentSteps := by
  refine ⟨fun rm p m => ⟨fun h => Phy.move_of_not_resetting h m, ?_, ?_, ?_, p.strap_move rm m, p.lost_move rm m⟩, ?_⟩
  · rintro rfl
    obtain ⟨hbits, hother, hxa⟩ := Phy.move_clearReset_frame rm p
    exact ⟨hbits, p.move_clearReset_clears, hother, hxa⟩
  · rintro l v rfl h
    rw [Phy.move_change h]
    exact ⟨p.reg_store rm l v, fun _ hl => p.reg_store_other rm v hl, p.xa_store rm l v⟩
  · rintro v rfl h
    exact Phy.move_changeLatch h v
  · rintro s d rest a p henv haddr ha rfl
    exact ⟨⟨_, exec_rdd_eq_run haddr, run_tr_value_of_ne (s := (s.start _).useOperand _) henv ha none⟩,
      ⟨_, exec_wrd_eq_run haddr,
        run_tw_fin_of_ne (s := ((s.start _).useOperand _).useOperand _) henv ha none s.ops.aVal .ok⟩⟩

end Sys2Proof.Proofs
end

section
/-! Decoding a byte (30_encoding.md R86, R87, R93) and the step that issues a command (R85). -/

namespace Sys2Proof.Machine

theorem decodeOpcode_eq_ok_iff {w : Opcode} {i : Instr} : decodeOpcode w = .ok i ↔ w = encode i := by
  refine ⟨encode_of_decodeOpcode, ?_⟩
  rintro rfl
  exact decodeOpcode_encode i

@[simp] theorem decode_nil : decode [] = .error .noByte := rfl

/-- R85, R93: the first byte alone decides the command, and the others are the rest. -/
theorem decode_cons_eq_ok_iff {b : BitVec 8} {bs rest : List (BitVec 8)} {i : Instr} :
    decode (b :: bs) = .ok (i, rest) ↔ b = encode i ∧ bs = rest := by
  rw [← decodeOpcode_eq_ok_iff, decode]
  cases decodeOpcode b <;> simp

theorem writeCmd_of_encode (i : Instr) (s : State) : writeCmd (encode i) s = exec i s := by
  rw [writeCmd, decodeOpcode_encode]

theorem step_write_cmd {s : State} {ms : List HostMove} {v : BitVec 32} (hs : s.seq = .idle)
    (h : s.host = .write 0x00 v :: ms) : step s = writeCmd (v.setWidth 8) { s with host := ms } :=
  step_host hs h

end Sys2Proof.Machine
end

section
/-! Commands and runs from the same state with other values in the operand registers (30_encoding.md R88). -/

namespace Sys2Proof.Machine

open Sys2Proof.Safety

/-- The same state with other values in the operand registers. -/
def State.withOps (s : State) (b : Operands) : State := { s with ops := b }

theorem State.readEffect_withOps (b : Operands) (a : Direct5) (s : State) :
    (s.withOps b).readEffect a = (s.readEffect a).withOps b := by
  unfold State.readEffect
  rw [show (s.withOps b).phy = s.phy from rfl, show (s.withOps b).rm = s.rm from rfl]
  split <;> rfl

theorem transportRead_withOps (b : Operands) (a : Direct5) (s : State) :
    transportRead a (s.withOps b) = ((transportRead a s).1, (transportRead a s).2.withOps b) := by
  unfold transportRead
  rw [show (s.withOps b).draw = s.draw from rfl, show (s.withOps b).takeDraw = s.takeDraw.withOps b from rfl,
    State.readEffect_withOps]
  cases s.draw.fail with
  | some k => cases s.draw.lands <;> rfl
  | none => rfl

theorem transportWrite_withOps (b : Operands) (a : Direct5) (v : Word) (s : State) :
    transportWrite a v (s.withOps b) = ((transportWrite a v s).1, (transportWrite a v s).2.withOps b) := by
  unfold transportWrite
  rw [show (s.withOps b).draw = s.draw from rfl]
  cases s.draw.fail with
  | some k => cases s.draw.lands <;> rfl
  | none => rfl

/-- A wired sequence holds the operand values it uses, so its run asks no operand register for one. -/
theorem run_withOps (fb : Option (BitVec 1)) (p : Act) (b : Operands) (s : State) :
    run fb p (s.withOps b) = (run fb p s).withOps b := by
  induction p generalizing s with
  | fin e => rfl
  | use o p ih => exact ih (s.useOperand o)
  | sub k p ih => exact ih (s.enterSub k)
  | tr a f ih =>
    rw [run, run, transportRead_withOps]
    rcases transportRead a s with ⟨_ | v, u⟩
    · rfl
    · exact ih v u
  | tw a v p ih =>
    rw [run, run, transportWrite_withOps]
    rcases transportWrite a v s with ⟨_ | _, u⟩
    · rfl
    · exact ih u

theorem setWidth_32_inj {n : Nat} (hn : n ≤ 32) {x y : BitVec n} : x.setWidth 32 = y.setWidth 32 ↔ x = y := by
  rw [← BitVec.toNat_inj, BitVec.toNat_setWidth_of_le hn, BitVec.toNat_setWidth_of_le hn, BitVec.toNat_inj]

theorem commandOf_withOps_of_ne_configure {i : Instr} (hi : i ≠ .configure) {b : Operands} {s : State}
    (h : ∀ o ∈ operandsRead i, b.get o = s.ops.get o) : commandOf i (s.withOps b) = commandOf i s := by
  cases i <;>
    simp only [operandsRead, List.forall_mem_cons, Operands.get, Nat.reduceLeDiff, setWidth_32_inj] at h
  case configure => exact absurd rfl hi
  case setdspeq | fldfix | reset | isrstdone => rfl
  case rdd | wrd | rmwd | rdx | wrx | rmwx =>
    simp [commandOf, rddCommand, wrdCommand, rmwdCommand, rdxCommand, wrxCommand, rmwxCommand, State.withOps, h]
  case ident | linksup => simp [commandOf, identCommand, identMatches, linksupCommand, State.withOps, h]
  case setlink | setclksh | setclkdly | setimped | setfifo =>
    simp [commandOf, setlinkAct, setclkshAct, setclkdlyAct, setimpedAct, setfifoAct, State.withOps, h]
  case setgpio | setled | setmdix | setidle | setloop =>
    simp [commandOf, setgpioAct, setledAct, ledWord, setmdixAct, setidleAct, setloopAct, State.withOps, h]

theorem commandOf_configure (s : State) :
    commandOf .configure s = ⟨chain 0 (subopOrder.map fun j => (commandOf j s).act), none⟩ := rfl

/-- R88: a command's sequence is settled by the operand registers of its row; CONFIGURE's by those of its
sub-operations. -/
theorem commandOf_withOps {i : Instr} {b : Operands} {s : State} (h : ∀ o ∈ operandsRead i, b.get o = s.ops.get o) :
    commandOf i (s.withOps b) = commandOf i s := by
  by_cases hi : i = .configure
  · subst hi
    rw [commandOf_configure, commandOf_configure]
    congr 2
    refine List.map_congr_left fun j hj => congrArg Command.act ?_
    refine commandOf_withOps_of_ne_configure (by rintro rfl; exact absurd hj (by decide)) fun o ho => h o ?_
    exact operandsRead_configure ▸ List.mem_flatMap.mpr ⟨j, hj, ho⟩
  · exact commandOf_withOps_of_ne_configure hi h

theorem exec_withOps {i : Instr} {b : Operands} {s t : State} (h : ∀ o ∈ operandsRead i, b.get o = s.ops.get o)
    (ht : exec i s = .next t) : exec i (s.withOps b) = .next (t.withOps b) := by
  rw [exec_eq_runCommand] at ht ⊢
  cases ht
  rw [commandOf_withOps h]
  exact congrArg Host.Outcome.next (run_withOps _ _ b (s.start (encode i)))

end Sys2Proof.Machine
end

section
/-! The statements of 30_encoding.md settled. -/

namespace Sys2Proof.Proofs

open Sys2Proof.Machine Sys2Proof.Safety

/-- Settles O1: the byte decides the command and the command the byte. -/
theorem decodeEncodeAgree : Obligations.DecodeEncodeAgree := by
  rintro (_ | ⟨b, bs⟩) i rest
  · simp [encodeBytes]
  · rw [decode_cons_eq_ok_iff, encodeBytes, List.singleton_append, List.cons.injEq]

/-- Settles O55: a command's sequence is the same for every value of a register outside its row, and a run asks the
operand registers for nothing more. -/
theorem unreadOperandsDoNotMatter : Obligations.UnreadOperandsDoNotMatter := by
  intro i o v s ho
  obtain ⟨t, ht⟩ : ∃ t, exec i s = .next t := ⟨_, exec_eq_runCommand i s⟩
  have hrow : ∀ p ∈ operandsRead i, (s.ops.set o v).get p = s.ops.get p := fun p hp =>
    (Operands.get_set s.ops o p v).trans (if_neg (ne_of_mem_of_not_mem hp ho))
  refine ⟨t, ht, ?_⟩
  rw [(exec_sameEngine ht).ops]
  exact exec_withOps hrow ht

/-- Settles O2: the rows are the commands in the table's order, each with its byte; the refused bytes are counted. -/
theorem opcodeMapOfTheSpec : Obligations.OpcodeMapOfTheSpec := by
  refine ⟨fun row hrow => ?_, by decide +kernel⟩
  obtain ⟨i, -, rfl⟩ := List.mem_map.mp (show row ∈ Instr.all.map fun i => (encode i, i) from hrow)
  exact decodeOpcode_encode i

/-- Settles O3. -/
theorem stepRunsIssuedCommand : Obligations.StepRunsIssuedCommand := by
  intro s v ms i rest hs h hdec
  obtain ⟨hv, -⟩ := decode_cons_eq_ok_iff.mp hdec
  rw [step_write_cmd hs h, hv, writeCmd_of_encode]

end Sys2Proof.Proofs
end

section
/-! The commands of the Register Access Engine in every environment (40_register_access.md R105 to R115): the direct
commands by their address, a command that is one read, and what a trace cut short shows. -/

namespace Sys2Proof.Machine

open Sys2Proof.Safety

/-- The state in which command `i`, issued in `s`, has read these operand registers and has had no event yet. -/
def State.issued (s : State) (i : Instr) (os : List Operand) : State :=
  { s.start (encode i) with hostFault := faultAfter s os }

theorem exec_useAll {i : Instr} {s : State} {os : List Operand} {p : Act}
    (hc : commandOf i s = ⟨useAll os p, none⟩) : exec i s = .next (run none p (s.issued i os)) := by
  rw [exec_eq_runCommand, runCommand, hc, run_useAll]
  rfl

/-! The address check of the direct commands (R115) -/

theorem toNat_eq_toNat_setWidth_five {addr : BitVec 16} (h : ¬addr.toNat > 31) :
    addr.toNat = (addr.setWidth 5).toNat := by
  rw [BitVec.toNat_setWidth, Nat.mod_eq_of_lt (by omega)]

/-- A command that checks its address first: out of range it ends before any event, else as `P` says. -/
theorem exec_withDirect_outcomes {i : Instr} {s : State} {os : List Operand} {f : Direct5 → Act} {P : State → Prop}
    (hc : commandOf i s = ⟨useAll os (withDirect s.ops.aAddr f), none⟩)
    (h : s.ops.aAddr.toNat = (s.ops.aAddr.setWidth 5).toNat → ∃ t, exec i s = .next t ∧ P t) :
    ∃ t, exec i s = .next t ∧ if s.ops.aAddr.toNat > 31 then t = afterInvalid s t else P t := by
  by_cases haddr : s.ops.aAddr.toNat > 31
  · simp only [haddr, if_true]
    exact ⟨_, (exec_useAll hc).trans (by rw [withDirect, if_pos haddr, run_fin]), rfl⟩
  · simp only [haddr, if_false]
    exact h (toNat_eq_toNat_setWidth_five haddr)

section
variable {s : State} {a : Direct5} (h : s.ops.aAddr.toNat = a.toNat)
include h

theorem commandOf_rdd :
    commandOf .rdd s = ⟨useAll [.aAddr] (rdLoc s.rm (.direct a) fun v => .fin (.value v)), none⟩ := by
  rw [commandOf, rddCommand, withDirect_of_toNat_eq h]
  rfl

theorem commandOf_wrd :
    commandOf .wrd s = ⟨useAll [.aAddr, .aVal] (wrLoc s.rm (.direct a) s.ops.aVal (.fin .ok)), none⟩ := by
  rw [commandOf, wrdCommand, withDirect_of_toNat_eq h]
  rfl

theorem commandOf_rmwd :
    commandOf .rmwd s =
      ⟨useAll [.aAddr, .aMask, .aVal] (rmwLoc s.rm (.direct a) s.ops.aMask s.ops.aVal (.fin .ok)), none⟩ := by
  rw [commandOf, rmwdCommand, withDirect_of_toNat_eq h]

end

/-! A trace cut short -/

/-- A trace cut short has a failed event, the last. -/
theorem exists_not_completed_of_cutShort {plan t : List BusEvent} {k : Kind} (h : cutShort plan t k) :
    ∃ e ∈ t, completed e = false := by
  obtain ⟨n, e, -, rfl⟩ := h
  exact ⟨failEvent e k, by simp, by cases e <;> rfl⟩

theorem completed_of_mem_readTrace (dev : Nat) (rm : RegMap) (v : Word) (l : RegLoc) :
    ∀ e ∈ readTrace dev rm v l, completed e = true := by
  cases l <;> simp [readTrace, selectTrace, completed]

theorem readTrace_inj {dev : Nat} {rm : RegMap} {l : RegLoc} {v w : Word} :
    readTrace dev rm v l = readTrace dev rm w l ↔ v = w := by
  cases l <;> simp [readTrace]

theorem cutShort_singleton {e : BusEvent} {t : List BusEvent} {k : Kind} (h : cutShort [e] t k) :
    t = [failEvent e k] := by
  obtain ⟨n, x, hx, rfl⟩ := h
  obtain ⟨rfl, rfl⟩ : n = 0 ∧ e = x := by simpa [List.getElem?_singleton] using hx
  rfl

/-- What a command that is one read of one location into RVAL (R116) can end as. -/
theorem exec_rd_outcomes {i : Instr} {s : State} {l : RegLoc} {os : List Operand}
    (hc : commandOf i s = ⟨useAll os (rdLoc s.rm l fun v => .fin (.value v)), none⟩) :
    ∃ t, exec i s = .next t ∧ t = { portOnly s t with rval := t.rval } ∧
      ((∃ v, t.trace = readTrace s.devAddr s.rm v l ∧ t.status = 0x0000 ∧ t.rval = v) ∨
        (∃ v k, cutShort (readTrace s.devAddr s.rm v l) t.trace k ∧ t.status = transportStatus k ∧
          t.rval = s.rval)) := by
  obtain ⟨xs, phy, q, hf, ⟨e, hl, ht⟩ | ⟨k, hb, ht⟩⟩ := exec_outcome i s
  · simp only [hc, leads_useAll, leads_rdLoc, Act.leads] at hl
    obtain ⟨v, _, rfl, rfl, rfl⟩ := hl
    refine ⟨_, ht, ?_, .inl ⟨v, ?_⟩⟩
    · simp [State.start, State.after, State.finish, portOnly, Ending.value]
    · exact ⟨by simp [State.after], rfl, rfl⟩
  · simp only [hc, breaks_useAll] at hb
    obtain ⟨v, hcut | ⟨_, _, hfin⟩⟩ := breaks_rdLoc hb
    · refine ⟨_, ht, ?_, .inr ⟨v, k, ?_⟩⟩
      · simp [State.start, State.after, State.finish, portOnly, Ending.transport, hc]
      · exact ⟨by simpa [State.after] using hcut, rfl, rfl⟩
    · exact hfin.elim

/-- What WRX can end as: it reads `A_VAL` only after the selection, so it is no `useAll` of a `WrLoc` (R111). -/
theorem exec_wrx_outcomes (s : State) :
    ∃ t, exec .wrx s = .next t ∧ t = portOnly s t ∧
      endsAs (fun _ : Unit => writeTrace s.devAddr s.rm s.ops.aVal (.ext s.ops.aAddr)) t := by
  have hleads : (commandOf .wrx s).act.leads s.devAddr =
      (wrLoc s.rm (.ext s.ops.aAddr) s.ops.aVal (.fin .ok)).leads s.devAddr := rfl
  have hbreaks : (commandOf .wrx s).act.breaks s.devAddr =
      (wrLoc s.rm (.ext s.ops.aAddr) s.ops.aVal (.fin .ok)).breaks s.devAddr := rfl
  refine exec_endsAs .wrx s _ rfl (fun t e hl => ?_) (fun t k hb => ?_)
  · rw [hleads, leads_wrLoc] at hl
    obtain ⟨_, rfl, rfl, rfl⟩ := hl
    exact ⟨(), List.append_nil _, rfl⟩
  · rw [hbreaks] at hb
    obtain hcut | ⟨_, _, hfin⟩ := breaks_wrLoc hb
    · exact ⟨(), hcut⟩
    · exact hfin.elim

end Sys2Proof.Machine
end

section
/-! The commands of the Register Access Engine under ENV_REF (40_register_access.md R106 to R117; 20_memory.md R77 to
R79): one read of a direct register by access mode, the commands that are one read, and what an extended access and a
transaction leave of the PHY. -/

namespace Sys2Proof.Machine

open Sys2Proof.Safety

/-! A read of the MMD data register, by mode (R79) -/

section
variable {rm : RegMap} {p : Phy}

theorem Phy.read_mmdData_of_address (h : p.direct rm.mmdCtl = rm.mmdAddrWord) :
    p.read rm rm.mmdData = some p.xa := by
  rw [Phy.read, if_pos rfl, Phy.mode, if_pos h]

theorem Phy.read_mmdData_of_data (ha : p.direct rm.mmdCtl ≠ rm.mmdAddrWord)
    (hd : p.direct rm.mmdCtl = rm.mmdDataWord) : p.read rm rm.mmdData = some (p.ext p.xa) := by
  rw [Phy.read, if_pos rfl, Phy.mode, if_neg ha, if_pos hd]

theorem Phy.read_mmdData_of_other (ha : p.direct rm.mmdCtl ≠ rm.mmdAddrWord)
    (hd : p.direct rm.mmdCtl ≠ rm.mmdDataWord) : p.read rm rm.mmdData = none := by
  rw [Phy.read, if_pos rfl, Phy.mode, if_neg ha, if_neg hd]

end

/-- A quiet read that ENV_REF refuses: the value is free, and the PHY's contents are lost. -/
theorem run_tr_quiet_of_refused (b : Option (BitVec 1)) (f : Word → Act) {a : Direct5} {s : State} {rest : List Draw}
    (he : s.env = quiet :: rest) (hv : s.phy.read s.rm a = none) :
    run b (.tr a f) s = run b (f (Config.freeWord s.tick))
      (s.afterEvents [.read s.devAddr a (Config.freeWord s.tick)] { s.phy with lost := true } rest) := by
  have hd : s.draw = quiet := State.draw_of_env he
  have ht : s.takeDraw = { s with env := rest, tick := s.tick + 1 } := by simp [State.takeDraw, hd, he, quiet]
  have hread : transportRead a s = (.ok (Config.freeWord s.tick),
      s.afterEvents [.read s.devAddr a (Config.freeWord s.tick)] { s.phy with lost := true } rest) := by
    simp [transportRead, hd, ht, quiet, State.readValue, hv, State.readEffect, State.record, State.countEvent,
      State.afterEvents]
  rw [run, hread]

/-- A command whose run under a quiet environment is these events and this ending. -/
theorem exec_quiet {i : Instr} {s : State} {os : List Operand} {p : Act} {xs : List BusEvent} {phy : Phy}
    {rest : List Draw} {e : Ending} (hexec : exec i s = .next (run none p (s.issued i os)))
    (hrun : run none p (s.issued i os) = ((s.issued i os).afterEvents xs phy rest).finish e) :
    exec i s =
      .next { afterOk s os xs phy rest with
              status := e.result.word
              rval := e.rval.getD s.rval
              rbool := e.rbool.getD s.rbool
              rstate := e.rstate.getD s.rstate } := by
  rw [hexec, hrun]
  exact congrArg Host.Outcome.next (finish_afterEvents_start s (encode i) os xs phy rest e)

/-! The direct commands, of any direct register (R106 to R108) -/

section
variable {s : State} {rest : List Draw} {a : Direct5} (h : s.ops.aAddr.toNat = a.toNat)
include h

theorem exec_rdd_quiet {v : Word} (hq : quietFor 1 s rest) (hv : s.phy.read s.rm a = some v) :
    exec .rdd s = .next { afterOk s [.aAddr] [.read s.devAddr a v] s.phy rest with rval := v } :=
  exec_quiet (exec_useAll (commandOf_rdd h)) (run_tr_quiet none a _ (s.issued .rdd [.aAddr]) v rest hq.1 hq.2 hv)

theorem exec_rdd_quiet_of_refused (hq : quietFor 1 s rest) (hv : s.phy.read s.rm a = none) :
    ∃ w, exec .rdd s =
      .next { afterOk s [.aAddr] [.read s.devAddr a w] { s.phy with lost := true } rest with rval := w } :=
  ⟨_, exec_quiet (exec_useAll (commandOf_rdd h))
    (run_tr_quiet_of_refused none _ (s := s.issued .rdd [.aAddr]) hq.1 hv)⟩

theorem exec_wrd_quiet (hq : quietFor 1 s rest) :
    exec .wrd s =
      .next (afterOk s [.aAddr, .aVal] [.write s.devAddr a s.ops.aVal] (s.phy.write s.rm a s.ops.aVal) rest) :=
  exec_quiet (exec_useAll (commandOf_wrd h))
    (run_tw_quiet none a s.ops.aVal _ (s.issued .wrd [.aAddr, .aVal]) rest hq.1)

/-- RMWD under a quiet environment, from its read on. -/
theorem exec_rmwd_quiet_of_read {cur : Word} {p : Phy}
    (hread : ∀ f, run none (.tr a f) (s.issued .rmwd [.aAddr, .aMask, .aVal]) =
      run none (f cur) ((s.issued .rmwd [.aAddr, .aMask, .aVal]).afterEvents [.read s.devAddr a cur] p
        (quiet :: rest))) :
    exec .rmwd s =
      .next (afterOk s [.aAddr, .aMask, .aVal]
        [.read s.devAddr a cur, .write s.devAddr a (merge cur s.ops.aMask s.ops.aVal)]
        (p.write s.rm a (merge cur s.ops.aMask s.ops.aVal)) rest) := by
  refine exec_quiet (e := .ok) (exec_useAll (commandOf_rmwd h)) ((hread _).trans ?_)
  rw [run_tw_quiet _ _ _ _ _ rest rfl, State.afterEvents_afterEvents]
  rfl

theorem exec_rmwd_quiet {cur : Word} (hq : quietFor 2 s rest) (hv : s.phy.read s.rm a = some cur) :
    exec .rmwd s =
      .next (afterOk s [.aAddr, .aMask, .aVal]
        [.read s.devAddr a cur, .write s.devAddr a (merge cur s.ops.aMask s.ops.aVal)]
        (s.phy.write s.rm a (merge cur s.ops.aMask s.ops.aVal)) rest) :=
  exec_rmwd_quiet_of_read h fun f => run_tr_quiet none a f (s.issued .rmwd _) cur (quiet :: rest) hq.1 hq.2 hv

theorem exec_rmwd_quiet_of_refused (hq : quietFor 2 s rest) (hv : s.phy.read s.rm a = none) :
    ∃ w, exec .rmwd s =
      .next (afterOk s [.aAddr, .aMask, .aVal]
        [.read s.devAddr a w, .write s.devAddr a (merge w s.ops.aMask s.ops.aVal)]
        (({ s.phy with lost := true } : Phy).write s.rm a (merge w s.ops.aMask s.ops.aVal)) rest) :=
  ⟨_, exec_rmwd_quiet_of_read h fun f =>
    run_tr_quiet_of_refused none f (s := s.issued .rmwd _) (rest := quiet :: rest) hq.1 hv⟩

end

/-! The extended commands (R110 to R112, R117) -/

/-- A command that is one read of one location into RVAL, under a quiet environment (R116). -/
theorem exec_rd_quiet {i : Instr} {s : State} {l : RegLoc} {os : List Operand} {rest : List Draw}
    (hc : commandOf i s = ⟨useAll os (rdLoc s.rm l fun v => .fin (.value v)), none⟩) (h : s.rm.wf = true)
    (hl : l ≠ .direct s.rm.mmdData) (hq : quietFor (1 + selections l) s rest) :
    exec i s =
      .next { afterOk s os (readTrace s.devAddr s.rm (s.phy.reg l) l) (selected s.rm l s.phy) rest with
              rval := s.phy.reg l } :=
  exec_quiet (exec_useAll hc) (run_rdLoc_quiet none l _ (s.issued i os) rest h hl hq.2 hq.1)

theorem exec_rdx_quiet {s : State} {rest : List Draw} (h : s.rm.wf = true) (hq : quietFor 4 s rest) :
    exec .rdx s =
      .next { afterOk s [.aAddr] (readTrace s.devAddr s.rm (s.phy.ext s.ops.aAddr) (.ext s.ops.aAddr))
                (selected s.rm (.ext s.ops.aAddr) s.phy) rest with
              rval := s.phy.ext s.ops.aAddr } :=
  exec_rd_quiet (i := .rdx) (l := .ext s.ops.aAddr) (os := [.aAddr]) rfl h nofun hq

theorem exec_rmwx_quiet {s : State} {rest : List Draw} (h : s.rm.wf = true) (hq : quietFor 5 s rest) :
    exec .rmwx s =
      .next (afterRmw s [.aAddr, .aMask, .aVal] (.ext s.ops.aAddr) s.ops.aMask s.ops.aVal rest) :=
  exec_rmw_quiet .rmwx s (.ext s.ops.aAddr) _ _ [.aAddr, .aMask, .aVal] .ok rest rfl h nofun hq

/-- Where the selection cannot fail it makes no difference whether an operand register is read before or after it. -/
theorem run_xsel_use_quiet (b : Option (BitVec 1)) (x : Ext16) (o : Operand) (p : Act) {s : State} {rest : List Draw}
    (h : s.rm.wf = true) (he : s.env = List.replicate 3 quiet ++ rest) :
    run b (xsel s.rm x (.use o p)) s = run b (xsel s.rm x p) (s.useOperand o) :=
  (run_xsel_quiet b x _ s rest h he).trans (run_xsel_quiet b x p (s.useOperand o) rest h he).symm

theorem exec_wrx_quiet {s : State} {rest : List Draw} (h : s.rm.wf = true) (hq : quietFor 4 s rest) :
    exec .wrx s =
      .next (afterOk s [.aAddr, .aVal] (writeTrace s.devAddr s.rm s.ops.aVal (.ext s.ops.aAddr))
        (stored s.rm (.ext s.ops.aAddr) s.ops.aVal s.phy) rest) := by
  have hissued : (s.issued .wrx [.aAddr]).useOperand .aVal = s.issued .wrx [.aAddr, .aVal] := by
    simp [State.issued, State.useOperand, faultAfter, Bool.or_assoc]
  have hearly : exec .wrx s =
      .next (run none (wrLoc s.rm (.ext s.ops.aAddr) s.ops.aVal (.fin .ok)) (s.issued .wrx [.aAddr, .aVal])) := by
    rw [← hissued]
    exact (exec_useAll rfl).trans (congrArg Host.Outcome.next
      (run_xsel_use_quiet none _ _ _ (s := s.issued .wrx [.aAddr]) (rest := quiet :: rest) h hq.1))
  exact exec_quiet hearly (run_wrLoc_quiet none _ _ _ (s.issued .wrx [.aAddr, .aVal]) rest h nofun hq.1)

/-! What an access leaves of the PHY (R114, R117) -/

theorem Phy.reg_selected_other {rm : RegMap} {l l' : RegLoc} (p : Phy)
    (h : l' ≠ .direct rm.mmdCtl ∨ selections l = 0) : (selected rm l p).reg l' = p.reg l' := by
  cases l with
  | direct a => rfl
  | ext x =>
    have hne : l' ≠ .direct rm.mmdCtl := h.resolve_right (Nat.succ_ne_zero 2)
    exact p.reg_setReg_other (l := .direct rm.mmdCtl) rm.mmdDataWord hne

/-- A selection leaves the register it selects alone. -/
theorem Phy.reg_selected_same (rm : RegMap) (l : RegLoc) (p : Phy) : (selected rm l p).reg l = p.reg l := by
  cases l with
  | direct a => rfl
  | ext x => exact p.reg_selected_other (.inl nofun)

theorem selected_pair (rm : RegMap) (l : RegLoc) (p : Phy) :
    (∀ x, l = .ext x → (selected rm l p).direct rm.mmdCtl = rm.mmdDataWord ∧ (selected rm l p).xa = x) ∧
      (selections l = 0 → (selected rm l p).xa = p.xa) := by
  cases l with
  | direct a => exact ⟨nofun, fun _ => rfl⟩
  | ext x =>
    refine ⟨fun y hy => ?_, nofun⟩
    cases hy
    exact ⟨p.direct_setDirect_same _ _, rfl⟩

/-- After a write of `v` to a location by `WrLoc` or `RmwLoc` (R114). -/
theorem storesOnly_stored (rm : RegMap) (l : RegLoc) (v : Word) (p : Phy) :
    storesOnly rm l v p (stored rm l v p) := by
  obtain ⟨hext, hdirect⟩ := selected_pair rm l p
  refine ⟨?_, fun l' hl' h => ?_, fun x hx => ?_, fun h => ?_, stored_lost rm l v p⟩
  · rw [stored, Phy.reg_store, Phy.reg_selected_same]
  · rw [stored, Phy.reg_store_other rm _ v hl', Phy.reg_selected_other p h]
  · subst hx
    exact hext x rfl
  · rw [stored, Phy.xa_store, hdirect h]

/-- After `RdLoc`, which stores to no register (R114). -/
theorem storesOnly_selected (rm : RegMap) (l : RegLoc) (p : Phy) :
    storesOnly rm l (p.reg l) p (selected rm l p) := by
  have hsame := (p.reg_store rm l (p.reg l)).symm.trans (p.reg_store_keeps l (p.reg l) fun _ => rfl)
  obtain ⟨hext, hdirect⟩ := selected_pair rm l p
  exact ⟨(p.reg_selected_same rm l).trans hsame.symm, fun _ _ h => p.reg_selected_other h, hext, hdirect,
    selected_lost rm l p⟩

/-- R117: an extended access leaves the MMD pair selecting its register, and stores to no other. -/
theorem exec_extended_storesOnly {i : Instr} {s t : State} {rest : List Draw} (hi : i = .rdx ∨ i = .wrx ∨ i = .rmwx)
    (h : s.rm.wf = true) (hq : quietFor (if i = .rmwx then 5 else 4) s rest) (ht : exec i s = .next t) :
    ∃ w, storesOnly s.rm (.ext s.ops.aAddr) w s.phy t.phy ∧ t.env = rest := by
  obtain rfl | rfl | rfl := hi
  · cases ht.symm.trans (exec_rdx_quiet h hq)
    exact ⟨_, storesOnly_selected _ _ _, rfl⟩
  · cases ht.symm.trans (exec_wrx_quiet h hq)
    exact ⟨_, storesOnly_stored _ _ _ _, rfl⟩
  · cases ht.symm.trans (exec_rmwx_quiet h hq)
    exact ⟨_, storesOnly_stored _ _ _ _, rfl⟩

end Sys2Proof.Machine
end

section
/-! The statements of 40_register_access.md settled. -/

namespace Sys2Proof.Proofs

open Sys2Proof.Machine Sys2Proof.Safety

/-- Settles O10: beyond the address check RDD is one read of one location, and a plan of one event is cut short only by
its failure. -/
theorem rddOutcomes : Obligations.RddOutcomes := by
  refine fun s => exec_withDirect_outcomes (os := [.aAddr]) rfl fun haddr => ?_
  obtain ⟨t, ht, hframe, hok | ⟨v, k, hcut, hstatus, hrval⟩⟩ := exec_rd_outcomes (commandOf_rdd haddr)
  · exact ⟨t, ht, hframe, .inl hok⟩
  · exact ⟨t, ht, hframe, .inr ⟨k, cutShort_singleton hcut, hstatus, hrval⟩⟩

/-- Settles O11: beyond the address check WRD is one overwrite of one location. -/
theorem wrdOutcomes : Obligations.WrdOutcomes := fun s =>
  exec_withDirect_outcomes (os := [.aAddr]) rfl fun haddr => exec_wr_outcomes .wrd s _ _ _ (commandOf_wrd haddr)

/-- Settles O12: beyond the address check RMWD is one masked update of one location. -/
theorem rmwdOutcomes : Obligations.RmwdOutcomes := fun s =>
  exec_withDirect_outcomes rfl fun haddr => exec_rmw_outcomes .rmwd s _ _ _ _ (commandOf_rmwd haddr)

/-- Settles O13: RDX is one read of one location; a trace with a failed event is no completed one, so RVAL is the value
read exactly if all four events completed. -/
theorem rdxOutcomes : Obligations.RdxOutcomes := by
  intro s
  obtain ⟨t, ht, hframe, ⟨v, htrace, hstatus, hrval⟩ | ⟨v, k, hcut, hstatus, hrval⟩⟩ :=
    exec_rd_outcomes (i := .rdx) (s := s) (l := .ext s.ops.aAddr) (os := [.aAddr]) rfl
  · refine ⟨t, ht, hframe, .inl ⟨v, htrace, hstatus⟩, fun w hw => ?_, fun hne => absurd hstatus hne⟩
    exact hrval.trans (readTrace_inj.mp (htrace.symm.trans hw))
  · refine ⟨t, ht, hframe, .inr ⟨v, k, hcut, hstatus⟩, fun w hw => ?_, fun _ => hrval⟩
    obtain ⟨e, he, hfailed⟩ := exists_not_completed_of_cutShort hcut
    have hdone : completed e = true := completed_of_mem_readTrace _ s.rm w (.ext s.ops.aAddr) e (hw ▸ he)
    rw [hfailed] at hdone
    cases hdone

/-- Settles O14: WRX leads where one overwrite of an extended location leads. -/
theorem wrxOutcomes : Obligations.WrxOutcomes := exec_wrx_outcomes

/-- Settles O15: RMWX is one masked update of an extended location. -/
theorem rmwxOutcomes : Obligations.RmwxOutcomes := fun s =>
  exec_rmw_outcomes .rmwx s (.ext s.ops.aAddr) _ _ [.aAddr, .aMask, .aVal] rfl

/-- Settles O16: by what ENV_REF answers to the read, mode by mode. -/
theorem rddUnderEnvRef : Obligations.RddUnderEnvRef := by
  intro s rest a haddr hq
  refine ⟨fun ha => ?_, ?_, ?_, ?_⟩
  · exact exec_rdd_quiet haddr hq (Phy.read_of_ne ha _)
  · rintro rfl hmode
    exact exec_rdd_quiet haddr hq (Phy.read_mmdData_of_address hmode)
  · rintro rfl hmode hdata
    exact exec_rdd_quiet haddr hq (Phy.read_mmdData_of_data hmode hdata)
  · rintro rfl hmode hdata
    exact exec_rdd_quiet_of_refused haddr hq (Phy.read_mmdData_of_other hmode hdata)

/-- Settles O17: by what ENV_REF does with the write, mode by mode. -/
theorem wrdUnderEnvRef : Obligations.WrdUnderEnvRef := by
  intro s rest a haddr hq
  rw [exec_wrd_quiet haddr hq]
  refine ⟨fun ha => ?_, ?_, ?_, ?_⟩
  · rw [Phy.write_of_ne ha]
  · rintro rfl hmode
    rw [Phy.write_mmdData_of_address hmode]
  · rintro rfl hmode hdata
    rw [Phy.write_mmdData_of_data hmode hdata]
  · rintro rfl hmode hdata
    rw [Phy.write_mmdData_of_other hmode hdata]

/-- Settles O18: by what ENV_REF answers to the read and does with the write, mode by mode; a refused read leaves the
mode as it is, so the write is refused too. -/
theorem rmwdUnderEnvRef : Obligations.RmwdUnderEnvRef := by
  intro s rest a cur haddr hq
  refine ⟨?_, ?_, ?_, ?_⟩
  · rintro ha rfl
    rw [exec_rmwd_quiet haddr hq (Phy.read_of_ne ha _), Phy.write_of_ne ha]
    rfl
  · rintro rfl hmode hdata rfl
    rw [exec_rmwd_quiet haddr hq (Phy.read_mmdData_of_data hmode hdata), Phy.write_mmdData_of_data hmode hdata]
    rfl
  · rintro rfl hmode rfl
    rw [exec_rmwd_quiet haddr hq (Phy.read_mmdData_of_address hmode), Phy.write_mmdData_of_address hmode]
    rfl
  · rintro rfl hmode hdata
    obtain ⟨w, hw⟩ := exec_rmwd_quiet_of_refused haddr hq (Phy.read_mmdData_of_other hmode hdata)
    rw [Phy.write_mmdData_of_other (p := { s.phy with lost := true }) hmode hdata] at hw
    exact ⟨w, hw⟩

/-- Settles O19: the three commands are `RdLoc`, `WrLoc` and `RmwLoc` of one extended register. -/
theorem extendedAccessUnderEnvRef : Obligations.ExtendedAccessUnderEnvRef := by
  rintro s rest x h rfl
  exact ⟨exec_rdx_quiet h, exec_wrx_quiet h, exec_rmwx_quiet h⟩

/-- Settles O20: after the access the MMD pair selects the register, so RDD of the MMD data register is a read in data
mode. -/
theorem directReadReachesSelectedRegister : Obligations.DirectReadReachesSelectedRegister := by
  intro i s t u rest hi h hq ht
  have hquiet : quietFor (if i = .rmwx then 5 else 4) s (quiet :: rest) := by
    obtain rfl | rfl | rfl := hi <;> exact hq
  obtain ⟨w, ⟨-, -, hpair, -, hlost⟩, henv⟩ := exec_extended_storesOnly hi h hquiet ht
  obtain ⟨hctl, hxa⟩ := hpair _ rfl
  refine ⟨hctl, hxa, fun hu => ?_⟩
  have hrm : t.rm = s.rm := (exec_sameEngine ht).rm
  have hread : t.phy.read t.rm s.rm.mmdData = some (t.phy.ext s.ops.aAddr) := by
    rw [hrm, Phy.read_mmdData_of_data (hctl.trans_ne (RegMap.wf_words_ne h).symm) hctl, hxa]
  have haddr : (s.rm.mmdData.setWidth 16).toNat = s.rm.mmdData.toNat :=
    BitVec.toNat_setWidth_of_le (by decide)
  cases hu.symm.trans (exec_rdd_quiet haddr (a := s.rm.mmdData)
    (s := { t with ops := { t.ops with aAddr := s.rm.mmdData.setWidth 16 } }) ⟨henv, hlost.trans hq.2⟩ hread)
  rfl

/-- Settles O37: each transaction leaves the PHY with its location selected, and stored to where it writes. -/
theorem transactionFrame : Obligations.TransactionFrame := by
  intro s rest l m v h hl
  refine ⟨fun hq => ?_, fun hq => ?_, fun hq => ?_⟩
  · rw [run_wrLoc_quiet none l v _ s rest h hl hq.1]
    exact storesOnly_stored s.rm l v s.phy
  · rw [run_rmwLoc_quiet none l m v _ s rest h hl hq.2 hq.1]
    exact storesOnly_stored s.rm l _ s.phy
  · rw [run_rdLoc_quiet none l _ s rest h hl hq.2 hq.1]
    exact ⟨storesOnly_selected s.rm l s.phy, rfl⟩

end Sys2Proof.Proofs
end

section
/-! The capability commands (41_capability.md R120 to R122), and runs from the same state with another RBOOL or another
link mode (R123, 43_configure.md R156). -/

namespace Sys2Proof.Machine

open Sys2Proof.Safety

/-! IDENT and LINKSUP -/

theorem identMatches_iff {rm : RegMap} {b : Operands} :
    identMatches rm b = true ↔ b.pOui = rm.idOui ∧ b.pModel = rm.idModel ∧ b.pRev = rm.idRev :=
  decide_eq_true_iff

theorem linkModeSupported_iff {m : BitVec 32} : linkModeSupported m = true ↔ m.toNat = 0 ∨ m.toNat = 1 := by
  rw [linkModeSupported, decide_eq_true_iff, ← BitVec.toNat_inj, ← BitVec.toNat_inj]
  rfl

/-- A command without events that ends with an answer leaves the answer in RBOOL (R120, R171). -/
theorem exec_answer {i : Instr} {s : State} {os : List Operand} {b : Bool}
    (hc : commandOf i s = ⟨useAll os (.fin (.bool b)), none⟩) :
    ∃ t, exec i s = .next t ∧
      t = { s with status := 0x0000, seq := .idle, trace := [], rbool := t.rbool, hostFault := t.hostFault } ∧
      (t.rbool = 1 ↔ b = true) := by
  refine ⟨_, exec_useAll hc, rfl, ?_⟩
  change BitVec.ofBool b = 1 ↔ b = true
  cases b <;> decide

/-! Another RBOOL -/

/-- The same state with another value in RBOOL. -/
def State.withRbool (s : State) (b : BitVec 1) : State := { s with rbool := b }

theorem State.readEffect_withRbool (b : BitVec 1) (a : Direct5) (s : State) :
    (s.withRbool b).readEffect a = (s.readEffect a).withRbool b := by
  unfold State.readEffect
  rw [show (s.withRbool b).phy = s.phy from rfl, show (s.withRbool b).rm = s.rm from rfl]
  split <;> rfl

theorem transportRead_withRbool (b : BitVec 1) (a : Direct5) (s : State) :
    transportRead a (s.withRbool b) = ((transportRead a s).1, (transportRead a s).2.withRbool b) := by
  unfold transportRead
  rw [show (s.withRbool b).draw = s.draw from rfl, show (s.withRbool b).takeDraw = s.takeDraw.withRbool b from rfl,
    State.readEffect_withRbool]
  cases s.draw.fail with
  | some k => cases s.draw.lands <;> rfl
  | none => rfl

theorem transportWrite_withRbool (b : BitVec 1) (a : Direct5) (v : Word) (s : State) :
    transportWrite a v (s.withRbool b) = ((transportWrite a v s).1, (transportWrite a v s).2.withRbool b) := by
  unfold transportWrite
  rw [show (s.withRbool b).draw = s.draw from rfl]
  cases s.draw.fail with
  | some k => cases s.draw.lands <;> rfl
  | none => rfl

theorem State.finish_withRbool {e : Ending} (he : e.rbool = none) (b : BitVec 1) (s : State) :
    (s.withRbool b).finish e = (s.finish e).withRbool b := by
  simp [State.finish, State.withRbool, he]

/-- No part of a run reads RBOOL, and only an ending that answers writes it. -/
theorem run_withRbool {U : Operand → Prop} {S : Nat → Prop} {p : Act} (hp : p.all U S fun e => e.rbool = none)
    (b : BitVec 1) (s : State) : run none p (s.withRbool b) = (run none p s).withRbool b := by
  induction p generalizing s with
  | fin e => exact State.finish_withRbool hp b s
  | use o p ih => exact ih hp.2 (s.useOperand o)
  | sub k p ih => exact ih hp.2 (s.enterSub k)
  | tr a f ih =>
    rw [run, run, transportRead_withRbool]
    rcases transportRead a s with ⟨_ | v, u⟩
    · rfl
    · exact ih v (hp v) u
  | tw a v p ih =>
    rw [run, run, transportWrite_withRbool]
    rcases transportWrite a v s with ⟨_ | _, u⟩
    · rfl
    · exact ih hp u

/-- R123: a command that gives no answer neither asks for the answer of an earlier one nor changes it. -/
theorem exec_withRbool {i : Instr} (hi : i ∉ [.ident, .linksup, .isrstdone]) (b : BitVec 1) {s t : State}
    (ht : exec i s = .next t) : exec i (s.withRbool b) = .next (t.withRbool b) := by
  have hcommand : commandOf i (s.withRbool b) = commandOf i s := commandOf_congr rfl rfl fun _ => rfl
  have hfail : (commandOf i s).failBool = none := failBool_eq_none (by rintro rfl; simp at hi) s
  have hends := (commandOf_all i s).imp (fun _ h => h) (fun _ h => h) fun _ he => he.rbool hi
  rw [exec_eq_runCommand] at ht ⊢
  cases ht
  rw [runCommand, runCommand, hcommand, hfail]
  exact congrArg Host.Outcome.next (run_withRbool hends b (s.start (encode i)))

/-! Another link mode -/

theorem isRmii_iff {m : BitVec 32} : isRmii m = true ↔ m.toNat = 1 := by
  rw [isRmii, decide_eq_true_iff, ← BitVec.toNat_inj]
  rfl

theorem exec_withOps_of_commandOf {i : Instr} {b : Operands} {s t : State}
    (h : commandOf i (s.withOps b) = commandOf i s) (ht : exec i s = .next t) :
    exec i (s.withOps b) = .next (t.withOps b) := by
  rw [exec_eq_runCommand] at ht ⊢
  cases ht
  rw [h]
  exact congrArg Host.Outcome.next (run_withOps _ _ b (s.start (encode i)))

/-- R96, R126: SETLINK asks of the link mode only whether it is RMII. -/
theorem setlinkAct_linkMode {m : BitVec 32} {b : Operands} (h : isRmii m = isRmii b.pLinkMode) (rm : RegMap) :
    setlinkAct rm { b with pLinkMode := m } = setlinkAct rm b := by
  simp only [setlinkAct, h]

/-- R151: of CONFIGURE's sub-operations only SETLINK reads the link mode. -/
theorem configureAct_linkMode {m : BitVec 32} {b : Operands} (h : isRmii m = isRmii b.pLinkMode) (rm : RegMap) :
    configureAct rm { b with pLinkMode := m } = configureAct rm b := by
  rw [configureAct, configureAct, subopActs, setlinkAct_linkMode h]
  rfl

end Sys2Proof.Machine
end

section
/-! The statements of 41_capability.md settled. -/

namespace Sys2Proof.Proofs

open Sys2Proof.Machine Sys2Proof.Safety

/-- Settles O46: CONFIGURE's sequence depends on the link mode through SETLINK's choice alone, and no ending of it
writes RBOOL, which no run reads. -/
theorem configureIgnoresGates : Obligations.ConfigureIgnoresGates := by
  intro s m b hm
  obtain ⟨t, ht⟩ : ∃ t, exec .configure s = .next t := ⟨_, exec_eq_runCommand .configure s⟩
  have hrmii : isRmii m = isRmii s.ops.pLinkMode := by rw [Bool.eq_iff_iff, isRmii_iff, isRmii_iff, hm]
  have hcommand : commandOf .configure (s.withOps { s.ops with pLinkMode := m }) = commandOf .configure s :=
    congrArg (Command.mk · none) (configureAct_linkMode hrmii s.rm)
  refine ⟨t, ht, ?_⟩
  rw [(exec_sameEngine ht).ops]
  exact exec_withRbool (by decide) b (exec_withOps_of_commandOf hcommand ht)

/-- Settles O21: both commands read their operands and end with the answer of the table. -/
theorem capabilityAnswers : Obligations.CapabilityAnswers := by
  intro s
  rw [← identMatches_iff, ← linkModeSupported_iff]
  exact ⟨exec_answer (os := [.pOui, .pModel, .pRev]) rfl, exec_answer (os := [.pLinkMode]) rfl⟩

end Sys2Proof.Proofs
end

section
/-! The unit conversions of the Configuration Engine (42_config_subops.md R128, R130, R132), and the codes it places in
fields of known width (00_scope.md R13, 10_state.md R45, R47). -/

namespace Sys2Proof.Machine

theorem delaySteps_eq (d : Nat) : delaySteps d = min ((max d 1 + 249) / 250 - 1) 15 := by
  rw [delaySteps, ceilDiv, Nat.add_sub_assoc (by decide)]

theorem delaySteps_le (d : Nat) : delaySteps d ≤ 15 := Nat.min_le_right _ _

/-- R128: on the valid delays the cap of 15 steps changes nothing. -/
theorem delaySteps_eq_of_le {d : Nat} (h : d ≤ 4000) : delaySteps d = (max d 1 + 249) / 250 - 1 := by
  rw [delaySteps_eq]
  omega

theorem delaySteps_mono {d e : Nat} (h : e ≤ d) : delaySteps e ≤ delaySteps d := by
  rw [delaySteps_eq, delaySteps_eq]
  omega

theorem impedCode_eq (z : Nat) : impedCode z = ((70000 - z) * 31 + 17500) / 35000 := rfl

theorem impedCode_anti {z y : Nat} (h : z ≤ y) : impedCode y ≤ impedCode z := by
  rw [impedCode_eq, impedCode_eq]
  omega

theorem fifoCode_eq_some_iff {rm : RegMap} {f : BitVec 32} {c : BitVec 2} :
    fifoCode rm f = some c ↔
      (f.toNat, c) ∈ [(3, rm.fifoCode3), (4, rm.fifoCode4), (6, rm.fifoCode6), (8, rm.fifoCode8)] := by
  unfold fifoCode
  split
  case h_5 => simp_all
  all_goals rename_i hf; simp [hf, eq_comm (a := c)]

theorem fifoCode_eq_none_iff {rm : RegMap} {f : BitVec 32} :
    fifoCode rm f = none ↔ f.toNat ∉ [3, 4, 6, 8] := by
  unfold fifoCode
  split <;> simp_all

@[simp] theorem place_zero (m : Word) : place m 0 = 0 := by
  simp [place]

/-- R13: a field of width 1 holds the number 1 as its one bit. -/
theorem place_one_of_isFieldOf {m : Word} (h : isFieldOf 1 m = true) : place m 1 = m := by
  simp only [isFieldOf, isField, Bool.and_eq_true, beq_iff_eq] at h
  obtain ⟨⟨-, hm⟩, hw⟩ := h
  have hbit : BitVec.ofNat 16 (1 <<< fieldShift m) = m := by
    rw [Nat.shiftLeft_eq]
    simpa [hw] using hm.symm
  rw [place, hbit, BitVec.and_self]

theorem place_bit_of_isFieldOf {m : Word} (h : isFieldOf 1 m = true) (b : BitVec 1) :
    place m b.toNat = if b = 1 then m else 0 := by
  obtain rfl | rfl : b = 0 ∨ b = 1 := by revert b; decide
  · exact place_zero m
  · exact place_one_of_isFieldOf h

/-- R43, R44: the RMII-enable bit and the two clock-shift enables are fields of width 1. -/
theorem RegMap.bitFields_of_wf {rm : RegMap} (h : rm.wf = true) :
    isFieldOf 1 rm.rmiiEn = true ∧ isFieldOf 1 rm.txShift = true ∧ isFieldOf 1 rm.rxShift = true := by
  simp_all [RegMap.wf, RegMap.wfMode, RegMap.wfShift]

theorem RegMap.rxDelay_of_wf {rm : RegMap} (h : rm.wf = true) : rm.rxDelay = 0x000F := by
  simp_all [RegMap.wf, RegMap.wfDelay]

/-- R45: the RX delay nibble is the lowest, so a step count stands there as it is. -/
theorem place_rxDelay {n : Nat} (h : n ≤ 15) : place 0x000F n = BitVec.ofNat 16 n := by
  revert n
  decide

/-- R47: the FIFO field is the top two bits. -/
theorem place_fifoField (c : BitVec 2) : place RegMap.fifoField c.toNat = BitVec.ofNat 16 (c.toNat <<< 14) := by
  revert c
  decide

theorem merge_place (cur m : Word) (n : Nat) : merge cur m (place m n) = (cur &&& ~~~m) ||| place m n := by
  rw [merge, place_and_mask]

theorem merge_fifoField (cur : Word) (c : BitVec 2) :
    merge cur RegMap.fifoField (place RegMap.fifoField c.toNat) =
      (cur &&& 0x3FFF) ||| BitVec.ofNat 16 (c.toNat <<< 14) := by
  rw [merge_place, place_fifoField]
  rfl

/-- A masked update with the mask itself sets its bits. -/
theorem merge_self (cur m : Word) : merge cur m m = cur ||| m := by
  ext i hi
  simp only [merge, BitVec.getElem_or, BitVec.getElem_and, BitVec.getElem_not]
  cases cur[i] <;> cases m[i] <;> rfl

end Sys2Proof.Machine
end

section
/-! The sub-operations' commands (42_config_subops.md R125 to R140) once their operands are read and validated, and what
commands made of a check or of two transactions can end as. -/

namespace Sys2Proof.Machine

open Sys2Proof.Safety

/-! The commands with a choice or a check -/

/-- R126: the link mode decides by its number. -/
theorem commandOf_setlink (s : State) :
    commandOf .setlink s =
      ⟨useAll [.pLinkMode] (rmwLoc s.rm (.ext s.rm.modeCtl) s.rm.rmiiEn
        (place s.rm.rmiiEn (if s.ops.pLinkMode.toNat = 1 then 1 else 0)) (.fin .ok)), none⟩ := by
  simp only [← isRmii_iff]
  rfl

theorem commandOf_setclkdly {s : State} (h : ¬(s.ops.pTxDelay.toNat > 4000 ∨ s.ops.pRxDelay.toNat > 4000)) :
    commandOf .setclkdly s =
      ⟨useAll [.pTxDelay, .pRxDelay] (rmwLoc s.rm s.rm.clkDelay (s.rm.txDelay ||| s.rm.rxDelay)
        (place s.rm.txDelay (delaySteps s.ops.pTxDelay.toNat) |||
          place s.rm.rxDelay (delaySteps s.ops.pRxDelay.toNat)) (.fin .ok)), none⟩ := by
  rw [commandOf, setclkdlyAct, if_neg h]

theorem commandOf_setimped {s : State} (h : ¬(s.ops.pImped.toNat < 35000 ∨ s.ops.pImped.toNat > 70000)) :
    commandOf .setimped s =
      ⟨useAll [.pImped] (rmwLoc s.rm s.rm.imped s.rm.impedField
        (place s.rm.impedField (impedCode s.ops.pImped.toNat)) (.fin .ok)), none⟩ := by
  rw [commandOf, setimpedAct, if_neg h]
  rfl

theorem commandOf_setfifo {s : State} {c : BitVec 2} (h : fifoCode s.rm s.ops.pFifo = some c) :
    commandOf .setfifo s =
      ⟨useAll [.pFifo] (rmwLoc s.rm s.rm.fifo RegMap.fifoField
        (place RegMap.fifoField c.toNat) (.fin .ok)), none⟩ := by
  rw [commandOf, setfifoAct, h]
  rfl

theorem commandOf_setfifo_of_none {s : State} (h : fifoCode s.rm s.ops.pFifo = none) :
    commandOf .setfifo s = ⟨useAll [.pFifo] (.fin .invalid), none⟩ := by
  rw [commandOf, setfifoAct, h]
  rfl

/-- R135: not enabling is one transaction. -/
theorem commandOf_setmdix_off {s : State} (h : s.ops.pMdixEn ≠ 1) :
    commandOf .setmdix s =
      ⟨useAll [.pMdixEn] (rmwLoc s.rm (.direct s.rm.mdix) s.rm.mdixField
        (place s.rm.mdixField s.rm.mdixOff.toNat) (.fin .ok)), none⟩ := by
  rw [commandOf, setmdixAct, if_neg h, if_neg h]
  rfl

/-- R135: enabling is two transactions. -/
theorem commandOf_setmdix_on {s : State} (h : s.ops.pMdixEn = 1) :
    commandOf .setmdix s =
      ⟨useAll [.pMdixEn] (rmwLoc s.rm (.direct s.rm.mdix) s.rm.mdixField
        (place s.rm.mdixField s.rm.mdixAuto.toNat)
        (rmwLoc s.rm (.direct s.rm.mdix2) s.rm.robustBit s.rm.robustBit (.fin .ok))), none⟩ := by
  rw [commandOf, setmdixAct, if_pos h, if_pos h]
  rfl

/-! Operands refused (R140, R172) -/

theorem exec_invalid {i : Instr} {s : State} {os : List Operand}
    (hc : commandOf i s = ⟨useAll os (.fin .invalid), none⟩) :
    ∃ t, exec i s = .next t ∧ t = afterInvalid s t :=
  ⟨_, exec_useAll hc, rfl⟩

/-- A command that validates its operands first: refused it ends before any event, else as `P` says. -/
theorem exec_checked_outcomes {i : Instr} {s : State} {os : List Operand} {c : Prop} [Decidable c] {p : Act}
    {P : State → Prop} (hc : commandOf i s = ⟨useAll os (if c then .fin .invalid else p), none⟩)
    (h : ¬c → ∃ t, exec i s = .next t ∧ P t) :
    ∃ t, exec i s = .next t ∧ if c then t = afterInvalid s t else P t := by
  by_cases hbad : c
  · simp only [if_pos hbad] at hc ⊢
    exact exec_invalid hc
  · simp only [if_neg hbad]
    exact h hbad

/-! Sequences of several transactions -/

/-- The sequence only ever returns, and its bus trace is this plan, for the values its reads returned, or the plan cut
short. -/
def Act.Plans {α : Type} (dev : Nat) (p : Act) (plan : α → List BusEvent) : Prop :=
  (∀ t e, p.leads dev t e → ∃ r, t = plan r ∧ e = .ok) ∧ ∀ t k, p.breaks dev t k → ∃ r, cutShort (plan r) t k

section
variable {α β : Type} {dev : Nat} {rm : RegMap} {l : RegLoc} {m v : Word} {p : Act} {plan : α → List BusEvent}

theorem plans_fin [Nonempty α] : (Act.fin .ok).Plans dev fun _ : α => [] :=
  ⟨fun _ _ h => ⟨Classical.ofNonempty, h⟩, fun _ _ h => h.elim⟩

/-- The values that a plan depends on may be named in another way. -/
theorem Act.Plans.reindex {plan' : β → List BusEvent} (h : p.Plans dev plan) (f : α → β)
    (hf : ∀ r, plan r = plan' (f r)) : p.Plans dev plan' := by
  refine ⟨fun t e hl => ?_, fun t k hb => ?_⟩
  · obtain ⟨r, rfl, he⟩ := h.1 t e hl
    exact ⟨f r, hf r, he⟩
  · obtain ⟨r, hr⟩ := h.2 t k hb
    exact ⟨f r, hf r ▸ hr⟩

theorem plans_rmwLoc [Nonempty α] (h : p.Plans dev plan) :
    (rmwLoc rm l m v p).Plans dev fun r : Word × α => rmwTrace dev rm r.1 (merge r.1 m v) l ++ plan r.2 := by
  refine ⟨fun t e hl => ?_, fun t k hb => ?_⟩
  · obtain ⟨cur, t, rfl, hrest⟩ := (leads_rmwLoc ..).mp hl
    obtain ⟨r, rfl, he⟩ := h.1 t e hrest
    exact ⟨(cur, r), rfl, he⟩
  · obtain ⟨cur, hcut | ⟨t, rfl, hrest⟩⟩ := breaks_rmwLoc hb
    · exact ⟨(cur, Classical.ofNonempty), cutShort_weaken hcut⟩
    · obtain ⟨r, hr⟩ := h.2 t k hrest
      exact ⟨(cur, r), cutShort_append hr⟩

theorem plans_rmwLoc_fin :
    (rmwLoc rm l m v (.fin .ok)).Plans dev fun cur => rmwTrace dev rm cur (merge cur m v) l :=
  (plans_rmwLoc (plans_fin (α := Unit))).reindex Prod.fst fun _ => List.append_nil _

theorem plans_rdLoc [Nonempty α] {f : Word → Act} {plan : Word → α → List BusEvent}
    (h : ∀ v, (f v).Plans dev (plan v)) :
    (rdLoc rm l f).Plans dev fun r : Word × α => readTrace dev rm r.1 l ++ plan r.1 r.2 := by
  refine ⟨fun t e hl => ?_, fun t k hb => ?_⟩
  · obtain ⟨v, t, rfl, hrest⟩ := (leads_rdLoc ..).mp hl
    obtain ⟨r, rfl, he⟩ := (h v).1 t e hrest
    exact ⟨(v, r), rfl, he⟩
  · obtain ⟨v, hcut | ⟨t, rfl, hrest⟩⟩ := breaks_rdLoc hb
    · exact ⟨(v, Classical.ofNonempty), cutShort_weaken hcut⟩
    · obtain ⟨r, hr⟩ := (h v).2 t k hrest
      exact ⟨(v, r), cutShort_append hr⟩

/-- A command whose sequence has a plan ends as the plan says (R171, R173). -/
theorem exec_plans {i : Instr} {s : State} {os : List Operand} (hc : commandOf i s = ⟨useAll os p, none⟩)
    (h : p.Plans s.devAddr plan) : ∃ t, exec i s = .next t ∧ t = portOnly s t ∧ endsAs plan t := by
  refine exec_endsAs i s plan (by rw [hc]) ?_ ?_
  · simpa only [hc, leads_useAll] using h.1
  · simpa only [hc, breaks_useAll] using h.2

end

/-- R135: the two transactions of SETMDIX, the second only when enabling. -/
theorem exec_setmdix_outcomes (s : State) :
    ∃ t, exec .setmdix s = .next t ∧ t = portOnly s t ∧
      endsAs (fun cur : Word × Word =>
        if s.ops.pMdixEn = 1 then
          rmwTrace s.devAddr s.rm cur.1
              (merge cur.1 s.rm.mdixField (place s.rm.mdixField s.rm.mdixAuto.toNat)) (.direct s.rm.mdix) ++
            rmwTrace s.devAddr s.rm cur.2 (merge cur.2 s.rm.robustBit s.rm.robustBit) (.direct s.rm.mdix2)
        else
          rmwTrace s.devAddr s.rm cur.1
            (merge cur.1 s.rm.mdixField (place s.rm.mdixField s.rm.mdixOff.toNat)) (.direct s.rm.mdix)) t := by
  by_cases hen : s.ops.pMdixEn = 1
  · simp only [if_pos hen]
    exact exec_plans (commandOf_setmdix_on hen) (plans_rmwLoc plans_rmwLoc_fin)
  · simp only [if_neg hen]
    exact exec_plans (commandOf_setmdix_off hen) (plans_rmwLoc_fin.reindex (fun cur => (cur, 0)) fun _ => rfl)

/-- R138: after the strap register was read, the threshold is forced exactly if the strap bit was 1. -/
theorem plans_fldfixAct (dev : Nat) (rm : RegMap) :
    (fldfixAct rm).Plans dev fun r : Word × Word =>
      readTrace dev rm r.1 (.ext rm.strap) ++
        if r.1 &&& rm.fldStrapBit = 0 then []
        else rmwTrace dev rm r.2 (merge r.2 rm.fldThrField (place rm.fldThrField rm.fldThrVal.toNat)) rm.fldThr := by
  have hthr (v : Word) :
      (if v &&& rm.fldStrapBit ≠ 0 then
        rmwLoc rm rm.fldThr rm.fldThrField (place rm.fldThrField rm.fldThrVal.toNat) (.fin .ok)
      else .fin .ok).Plans dev fun cur : Word =>
        if v &&& rm.fldStrapBit = 0 then []
        else rmwTrace dev rm cur (merge cur rm.fldThrField (place rm.fldThrField rm.fldThrVal.toNat)) rm.fldThr := by
    by_cases hbit : v &&& rm.fldStrapBit = 0
    · simp only [hbit, ne_eq, not_true_eq_false, if_false, if_true]
      exact plans_fin
    · simp only [hbit, ne_eq, not_false_eq_true, if_false, if_true]
      exact plans_rmwLoc_fin
  exact plans_rdLoc hthr

end Sys2Proof.Machine
end

section
/-! The sub-operations with a condition under ENV_REF (42_config_subops.md R135, R138; 20_memory.md R77 to R79). -/

namespace Sys2Proof.Machine

open Sys2Proof.Safety

/-- R56 (a): no location of the map is the MMD data register. -/
theorem RegMap.ne_mmdData_of_wf {rm : RegMap} (h : rm.wf = true) {l : RegLoc}
    (hl : l ∈ rm.locations := by simp [RegMap.locations]) : l ≠ .direct rm.mmdData :=
  (RegMap.wf_apart h hl).2

/-- A second transaction, of the PHY that the events before it left. -/
theorem run_rmwLoc_afterEvents {s : State} {phy : Phy} {l : RegLoc} (h : s.rm.wf = true)
    (hl : l ≠ .direct s.rm.mmdData) (hp : phy.lost = false) (b : Option (BitVec 1)) (m v : Word) (p : Act)
    (t : List BusEvent) (rest : List Draw) :
    run b (rmwLoc s.rm l m v p) (s.afterEvents t phy (List.replicate (2 + selections l) quiet ++ rest)) =
      run b p (s.afterEvents (t ++ rmwTrace s.devAddr s.rm (phy.reg l) (merge (phy.reg l) m v) l)
        (stored s.rm l (merge (phy.reg l) m v) phy) rest) := by
  rw [← State.afterEvents_afterEvents s t _ phy _ (List.replicate (2 + selections l) quiet ++ rest)]
  exact run_rmwLoc_quiet b l m v p (s.afterEvents t phy _) rest h hl hp rfl

section
variable {s : State} {rest : List Draw} (h : s.rm.wf = true)
include h

/-- R135: the second transaction sees what the first left, so that both may be of one register. -/
theorem exec_setmdix_on_quiet (hen : s.ops.pMdixEn = 1) (hq : quietFor 4 s rest) {p : Phy} {new : Word}
    (hnew : new = merge (s.phy.direct s.rm.mdix) s.rm.mdixField (place s.rm.mdixField s.rm.mdixAuto.toNat))
    (hp : p = s.phy.setDirect s.rm.mdix new) :
    exec .setmdix s =
      .next (afterOk s [.pMdixEn]
        [.read s.devAddr s.rm.mdix (s.phy.direct s.rm.mdix), .write s.devAddr s.rm.mdix new,
         .read s.devAddr s.rm.mdix2 (p.direct s.rm.mdix2),
         .write s.devAddr s.rm.mdix2 (p.direct s.rm.mdix2 ||| s.rm.robustBit)]
        (p.setDirect s.rm.mdix2 (p.direct s.rm.mdix2 ||| s.rm.robustBit)) rest) := by
  rw [← merge_self]
  have hfirst := run_rmwLoc_quiet none (.direct s.rm.mdix) s.rm.mdixField
    (place s.rm.mdixField s.rm.mdixAuto.toNat)
    (rmwLoc s.rm (.direct s.rm.mdix2) s.rm.robustBit s.rm.robustBit (.fin .ok))
    (s.issued .setmdix [.pMdixEn]) (quiet :: quiet :: rest) h (RegMap.ne_mmdData_of_wf h) hq.2 hq.1
  have hsecond := run_rmwLoc_afterEvents (s := s.issued .setmdix [.pMdixEn]) (phy := p)
    (l := .direct s.rm.mdix2) h (RegMap.ne_mmdData_of_wf h) (hp ▸ hq.2) none s.rm.robustBit s.rm.robustBit (.fin .ok)
    (rmwTrace s.devAddr s.rm (s.phy.direct s.rm.mdix) new (.direct s.rm.mdix)) rest
  subst hp hnew
  exact exec_quiet (e := .ok) (exec_useAll (commandOf_setmdix_on hen)) (hfirst.trans hsecond)

/-- R138: FLDFIX from its read of the strap register on. -/
theorem run_fldfix_quiet {more : List Draw} (hq : quietFor 4 s more) :
    run none (fldfixAct s.rm) (s.issued .fldfix []) =
      run none
        (if s.phy.ext s.rm.strap &&& s.rm.fldStrapBit ≠ 0 then
          rmwLoc s.rm s.rm.fldThr s.rm.fldThrField (place s.rm.fldThrField s.rm.fldThrVal.toNat) (.fin .ok)
        else .fin .ok)
        ((s.issued .fldfix []).afterEvents
          (readTrace s.devAddr s.rm (s.phy.ext s.rm.strap) (.ext s.rm.strap))
          (selected s.rm (.ext s.rm.strap) s.phy) more) :=
  run_rdLoc_quiet none (.ext s.rm.strap) _ (s.issued .fldfix []) more h nofun hq.2 hq.1

theorem exec_fldfix_clear_quiet (hbit : s.phy.ext s.rm.strap &&& s.rm.fldStrapBit = 0) (hq : quietFor 4 s rest) :
    exec .fldfix s =
      .next (afterOk s [] (readTrace s.devAddr s.rm (s.phy.ext s.rm.strap) (.ext s.rm.strap))
        (selected s.rm (.ext s.rm.strap) s.phy) rest) := by
  have hrun := run_fldfix_quiet h hq
  rw [if_neg (not_not_intro hbit)] at hrun
  exact exec_quiet (os := []) (exec_useAll rfl) hrun

theorem exec_fldfix_set_quiet (hbit : s.phy.ext s.rm.strap &&& s.rm.fldStrapBit ≠ 0)
    (hq : quietFor (6 + selections s.rm.fldThr) s rest) {cur new : Word} (hcur : cur = s.phy.reg s.rm.fldThr)
    (hnew : new = merge cur s.rm.fldThrField (place s.rm.fldThrField s.rm.fldThrVal.toNat)) :
    exec .fldfix s =
      .next (afterOk s []
        (readTrace s.devAddr s.rm (s.phy.ext s.rm.strap) (.ext s.rm.strap) ++
          rmwTrace s.devAddr s.rm cur new s.rm.fldThr)
        (stored s.rm s.rm.fldThr new (selected s.rm (.ext s.rm.strap) s.phy)) rest) := by
  obtain ⟨hctl, hdata⟩ := RegMap.wf_apart (l := s.rm.fldThr) h (by simp [RegMap.locations])
  have hstrap : quietFor 4 s (List.replicate (2 + selections s.rm.fldThr) quiet ++ rest) := by
    refine ⟨?_, hq.2⟩
    rw [← List.append_assoc, List.replicate_append_replicate, ← Nat.add_assoc]
    exact hq.1
  have hrun := run_fldfix_quiet h hstrap
  rw [if_pos hbit] at hrun
  have hreg : (selected s.rm (.ext s.rm.strap) s.phy).reg s.rm.fldThr = cur :=
    (Phy.reg_selected_other _ (.inl hctl)).trans hcur.symm
  subst hnew
  rw [← hreg]
  exact exec_quiet (os := []) (exec_useAll rfl) (hrun.trans
    (run_rmwLoc_afterEvents (s := s.issued .fldfix []) (phy := selected s.rm (.ext s.rm.strap) s.phy) h hdata
      hq.2 none _ _ (.fin .ok) _ rest))

end

end Sys2Proof.Machine
end

section
/-! The statements of 42_config_subops.md settled. -/

namespace Sys2Proof.Proofs

open Sys2Proof.Machine Sys2Proof.Safety

/-- Settles O22: SETLINK is one masked update of one location. -/
theorem setlinkOutcomes : Obligations.SetlinkOutcomes := fun s =>
  exec_rmw_outcomes .setlink s _ _ _ _ (commandOf_setlink s)

/-- Settles O23: SETCLKSH is one masked update of one location. -/
theorem setclkshOutcomes : Obligations.SetclkshOutcomes := fun s =>
  exec_rmw_outcomes .setclksh s (.ext s.rm.clkShift) _ _ [.pTxShift, .pRxShift] rfl

/-- Settles O24: beyond the check of both delays SETCLKDLY is one masked update of one location. -/
theorem setclkdlyOutcomes : Obligations.SetclkdlyOutcomes := by
  intro s
  simp only [← delaySteps_eq]
  exact exec_checked_outcomes (os := [.pTxDelay, .pRxDelay]) rfl fun hvalid =>
    exec_rmw_outcomes .setclkdly s _ _ _ _ (commandOf_setclkdly hvalid)

/-- Settles O25: beyond its check SETIMPED is one masked update of one location. -/
theorem setimpedOutcomes : Obligations.SetimpedOutcomes := by
  intro s
  simp only [← impedCode_eq]
  exact exec_checked_outcomes (os := [.pImped]) rfl fun hvalid =>
    exec_rmw_outcomes .setimped s _ _ _ _ (commandOf_setimped hvalid)

/-- Settles O26: a depth with a code is one masked update of one location, any other is refused. -/
theorem setfifoOutcomes : Obligations.SetfifoOutcomes := by
  intro s
  cases hcode : fifoCode s.rm s.ops.pFifo with
  | none =>
    obtain ⟨t, ht, hinvalid⟩ := exec_invalid (commandOf_setfifo_of_none hcode)
    refine ⟨t, ht, fun _ => hinvalid, ?_⟩
    rintro f c hfc rfl
    cases hcode.symm.trans (fifoCode_eq_some_iff.mpr hfc)
  | some c =>
    obtain ⟨t, ht, hends⟩ := exec_rmw_outcomes .setfifo s _ _ _ _ (commandOf_setfifo hcode)
    refine ⟨t, ht, fun hbad => ?_, ?_⟩
    · cases hcode.symm.trans (fifoCode_eq_none_iff.mpr hbad)
    · rintro f c' hfc rfl
      cases hcode.symm.trans (fifoCode_eq_some_iff.mpr hfc)
      simpa only [merge_fifoField] using hends

/-- Settles O27: SETGPIO is one masked update of one location. -/
theorem setgpioOutcomes : Obligations.SetgpioOutcomes := fun s =>
  exec_rmw_outcomes .setgpio s s.rm.gpio _ _ [.pGpio0, .pGpio1] rfl

/-- Settles O28: SETLED is one overwrite of one location. -/
theorem setledOutcomes : Obligations.SetledOutcomes := fun s =>
  exec_wr_outcomes .setled s s.rm.led (ledWord s.rm s.ops) [.pLed0, .pLed1, .pLed2, .pLed3] rfl

/-- Settles O29: the plan of one masked update, or of two; the second's mask is its value. -/
theorem setmdixOutcomes : Obligations.SetmdixOutcomes := by
  intro s
  obtain ⟨t, ht, hframe, hends⟩ := exec_setmdix_outcomes s
  simp only [merge_self] at hends
  exact ⟨t, ht, hframe, hends⟩

/-- Settles O30: SETIDLE is one masked update of one location. -/
theorem setidleOutcomes : Obligations.SetidleOutcomes := fun s =>
  exec_rmw_outcomes .setidle s (.ext s.rm.idle) _ _ [.pIdleThr] rfl

/-- Settles O31: SETDSPEQ is one masked update of one location, with no operand. -/
theorem setdspeqOutcomes : Obligations.SetdspeqOutcomes := fun s =>
  exec_rmw_outcomes .setdspeq s (.ext s.rm.dspEq) _ _ [] rfl

/-- Settles O32: the plan of a read, and of a masked update where the strap bit was read as 1. -/
theorem fldfixOutcomes : Obligations.FldfixOutcomes := fun s =>
  exec_plans (i := .fldfix) (os := []) rfl (plans_fldfixAct s.devAddr s.rm)

/-- Settles O33: SETLOOP is one overwrite of one location. -/
theorem setloopOutcomes : Obligations.SetloopOutcomes := fun s =>
  exec_wr_outcomes .setloop s (.ext s.rm.loop) _ [.pLoopEn] rfl

/-- Settles O34: one transaction each, of an extended register; a bit placed in a field of width 1 is the field. -/
theorem extendedSubopsUnderEnvRef : Obligations.ExtendedSubopsUnderEnvRef := by
  intro s rest h
  obtain ⟨hrmii, htx, hrx⟩ := RegMap.bitFields_of_wf h
  refine ⟨fun hq => ?_, fun hq => ?_, fun hq => ?_, fun hq => ?_, ?_⟩
  · have hvalue : place s.rm.rmiiEn (if s.ops.pLinkMode.toNat = 1 then 1 else 0) =
        if s.ops.pLinkMode.toNat = 1 then s.rm.rmiiEn else 0 := by
      rw [apply_ite (place s.rm.rmiiEn), place_one_of_isFieldOf hrmii, place_zero]
    rw [← hvalue]
    exact exec_rmw_quiet .setlink s _ _ _ _ .ok rest (commandOf_setlink s) h nofun hq
  · rw [← place_bit_of_isFieldOf htx, ← place_bit_of_isFieldOf hrx]
    exact exec_rmw_quiet .setclksh s (.ext s.rm.clkShift) _ _ [.pTxShift, .pRxShift] .ok rest rfl h nofun hq
  · exact exec_rmw_quiet .setidle s (.ext s.rm.idle) _ _ [.pIdleThr] .ok rest rfl h nofun hq
  · exact exec_rmw_quiet .setdspeq s (.ext s.rm.dspEq) _ _ [] .ok rest rfl h nofun hq
  · rintro hq v rfl
    exact exec_wr_quiet .setloop s (.ext s.rm.loop) _ [.pLoopEn] rest rfl h nofun hq

/-- Settles O35: one transaction each, of a location that is not the MMD data register (R56 (a)). -/
theorem openSubopsUnderEnvRef : Obligations.OpenSubopsUnderEnvRef := by
  intro s rest h
  refine ⟨fun htx hrx hq => ?_, fun hlow hhigh hq => ?_, fun c hc hq => ?_, fun hq => ?_, fun hq => ?_⟩
  · rw [← place_rxDelay (delaySteps_le _), ← RegMap.rxDelay_of_wf h]
    exact exec_rmw_quiet .setclkdly s _ _ _ _ .ok rest (commandOf_setclkdly (by omega)) h
      (RegMap.ne_mmdData_of_wf h) hq
  · exact exec_rmw_quiet .setimped s _ _ _ _ .ok rest (commandOf_setimped (by omega)) h
      (RegMap.ne_mmdData_of_wf h) hq
  · rw [← Nat.shiftLeft_eq, ← place_fifoField]
    exact exec_rmw_quiet .setfifo s _ _ _ _ .ok rest (commandOf_setfifo hc) h
      (RegMap.ne_mmdData_of_wf h) hq
  · exact exec_rmw_quiet .setgpio s s.rm.gpio _ _ [.pGpio0, .pGpio1] .ok rest rfl h
      (RegMap.ne_mmdData_of_wf h) hq
  · exact exec_wr_quiet .setled s s.rm.led _ [.pLed0, .pLed1, .pLed2, .pLed3] rest rfl h
      (RegMap.ne_mmdData_of_wf h) hq

/-- Settles O36: by the two transactions of each command, the second from the PHY that the first left. -/
theorem conditionalSubopsUnderEnvRef : Obligations.ConditionalSubopsUnderEnvRef := by
  intro s rest h
  simp only [← merge_place]
  refine ⟨fun hoff hq => ?_, fun hon hq new p hnew hp => exec_setmdix_on_quiet h hon hq hnew hp,
    exec_fldfix_clear_quiet h, fun hbit hq cur new hcur hnew => exec_fldfix_set_quiet h hbit hq hcur hnew⟩
  exact exec_rmw_quiet .setmdix s _ _ _ _ .ok rest (commandOf_setmdix_off (by rw [hoff]; decide)) h
    (RegMap.ne_mmdData_of_wf h) hq

/-- Settles O41: by the two formulas of R128 and R130. -/
theorem unitConversionsOnRange : Obligations.UnitConversionsOnRange := by
  refine ⟨fun d e hd => ?_, fun z y hlow hhigh => ?_⟩
  · have hsteps := delaySteps_eq_of_le hd
    exact ⟨delaySteps_le d, hsteps, by omega, by omega, delaySteps_mono, rfl, by decide⟩
  · have hcode := impedCode_eq z
    exact ⟨by omega, by omega, by omega, impedCode_anti, by decide, by decide⟩

end Sys2Proof.Proofs
end

section
/-! CONFIGURE's sequence carried out to its end (43_configure.md R151 to R153, R157): how the sub-operations' endings
and numbers of events make up its own, and what a command ends as where no event fails (20_memory.md R76). -/

namespace Sys2Proof.Machine

open Sys2Proof.Safety
open Pointwise

/-! How a sequence carried out to its end ends, and after how many events -/

/-- A body and what comes after it, carried out to the end: the body returned and the rest was carried out, or the
body's end is the end (R151, R152). -/
theorem leads_andThen {dev : Nat} {p q : Act} {t : List BusEvent} {e : Ending} (h : (p.andThen q).leads dev t e) :
    (∃ t₁ t₂ e₁, t = t₁ ++ t₂ ∧ p.leads dev t₁ e₁ ∧ e₁.result = .ok ∧ q.leads dev t₂ e) ∨
      (p.leads dev t e ∧ e.result ≠ .ok) := by
  induction p generalizing t with
  | fin e₁ =>
    by_cases he : e₁.result = .ok
    · rw [Act.andThen, if_pos he] at h
      exact .inl ⟨[], t, e₁, rfl, ⟨rfl, rfl⟩, he, h⟩
    · rw [Act.andThen, if_neg he] at h
      exact .inr ⟨h, h.2 ▸ he⟩
  | use o p ih => exact ih h
  | sub k p ih => exact ih h
  | tr a f ih =>
    obtain ⟨v, t, rfl, h⟩ := h
    obtain ⟨t₁, t₂, e₁, rfl, hp, hq⟩ | ⟨hp, he⟩ := ih v h
    · exact .inl ⟨_ :: t₁, t₂, e₁, rfl, ⟨v, t₁, rfl, hp⟩, hq⟩
    · exact .inr ⟨⟨v, t, rfl, hp⟩, he⟩
  | tw a v p ih =>
    obtain ⟨t, rfl, h⟩ := h
    obtain ⟨t₁, t₂, e₁, rfl, hp, hq⟩ | ⟨hp, he⟩ := ih h
    · exact .inl ⟨_ :: t₁, t₂, e₁, rfl, ⟨t₁, rfl, hp⟩, hq⟩
    · exact .inr ⟨⟨t, rfl, hp⟩, he⟩

theorem length_readTrace (dev : Nat) (rm : RegMap) (v : Word) (l : RegLoc) :
    (readTrace dev rm v l).length = 1 + selections l := by
  cases l <;> rfl

theorem length_writeTrace (dev : Nat) (rm : RegMap) (v : Word) (l : RegLoc) :
    (writeTrace dev rm v l).length = 1 + selections l := by
  cases l <;> rfl

theorem length_rmwTrace (dev : Nat) (rm : RegMap) (cur new : Word) (l : RegLoc) :
    (rmwTrace dev rm cur new l).length = 2 + selections l := by
  cases l <;> rfl

/-- Carried out to its end the sequence ends as `e`, after one of these numbers of events. -/
def Act.Lasts (dev : Nat) (p : Act) (e : Ending) (N : Set Nat) : Prop :=
  ∀ t e', p.leads dev t e' → e' = e ∧ t.length ∈ N

section
variable {dev : Nat} {e : Ending} {N M : Set Nat} {p : Act}

theorem lasts_fin (dev : Nat) (e : Ending) : (Act.fin e).Lasts dev e {0} := by
  rintro t e' ⟨rfl, rfl⟩
  exact ⟨rfl, rfl⟩

theorem Act.Lasts.useAll (h : p.Lasts dev e N) (os : List Operand) : (useAll os p).Lasts dev e N := by
  rwa [Act.Lasts, leads_useAll]

/-- A sequence with a plan has the events of its plan. -/
theorem Act.Plans.lasts {α : Type} {plan : α → List BusEvent} (h : p.Plans dev plan)
    (hN : ∀ r, (plan r).length ∈ N) : p.Lasts dev .ok N := by
  intro t e hl
  obtain ⟨r, rfl, rfl⟩ := h.1 t e hl
  exact ⟨rfl, hN r⟩

theorem lasts_rmwLoc (dev : Nat) (rm : RegMap) (l : RegLoc) (m v : Word) :
    (rmwLoc rm l m v (.fin .ok)).Lasts dev .ok {2 + selections l} :=
  plans_rmwLoc_fin.lasts fun _ => length_rmwTrace ..

theorem lasts_wrLoc (dev : Nat) (rm : RegMap) (l : RegLoc) (v : Word) :
    (wrLoc rm l v (.fin .ok)).Lasts dev .ok {1 + selections l} := by
  intro t e h
  obtain ⟨_, rfl, rfl, rfl⟩ := (leads_wrLoc ..).mp h
  exact ⟨rfl, by rw [List.append_nil]; exact length_writeTrace ..⟩

/-- R152: a chain goes on past a body that returns. -/
theorem Act.Lasts.chain_cons {ps : List Act} {k : Nat} (hp : p.Lasts dev .ok N)
    (hps : (chain (k + 1) ps).Lasts dev e M) : (chain k (p :: ps)).Lasts dev e (N + M) := by
  intro t e' h
  obtain ⟨t₁, t₂, e₁, rfl, h₁, -, h₂⟩ | ⟨h₁, hne⟩ := leads_andThen h
  · obtain ⟨rfl, hM⟩ := hps t₂ e' h₂
    exact ⟨rfl, by rw [List.length_append]; exact Set.add_mem_add (hp t₁ e₁ h₁).2 hM⟩
  · exact absurd (congrArg Ending.result (hp t e' h₁).1) hne

/-- R152, R153: a chain ends with the first body that does not return. -/
theorem Act.Lasts.chain_stop (hp : p.Lasts dev e N) (he : e.result ≠ .ok) (ps : List Act) (k : Nat) :
    (chain k (p :: ps)).Lasts dev e N := by
  intro t e' h
  obtain ⟨t₁, t₂, e₁, rfl, h₁, hok, -⟩ | ⟨h₁, -⟩ := leads_andThen h
  · exact absurd ((hp t₁ e₁ h₁).1 ▸ hok) he
  · exact hp t e' h₁

end

/-! The sub-operations (R157) -/

/-- A command that is one masked update of one location. -/
theorem lasts_of_rmw {i : Instr} {s : State} {os : List Operand} {l : RegLoc} {m v : Word}
    (hc : commandOf i s = ⟨useAll os (rmwLoc s.rm l m v (.fin .ok)), none⟩) :
    (commandOf i s).act.Lasts s.devAddr .ok {2 + selections l} := by
  rw [hc]
  exact (lasts_rmwLoc s.devAddr s.rm l m v).useAll os

theorem lasts_setmdix (s : State) :
    (commandOf .setmdix s).act.Lasts s.devAddr .ok {if s.ops.pMdixEn = 1 then 4 else 2} := by
  by_cases hen : s.ops.pMdixEn = 1
  · rw [commandOf_setmdix_on hen, if_pos hen]
    exact ((plans_rmwLoc plans_rmwLoc_fin).lasts fun _ => rfl).useAll [.pMdixEn]
  · rw [if_neg hen]
    exact lasts_of_rmw (commandOf_setmdix_off hen)

theorem lasts_fldfix (s : State) :
    (commandOf .fldfix s).act.Lasts s.devAddr .ok {4, 4 + 2 + selections s.rm.fldThr} := by
  refine (plans_fldfixAct s.devAddr s.rm).lasts fun r => ?_
  rw [List.length_append, length_readTrace]
  split
  · exact .inl rfl
  · exact .inr (by rw [length_rmwTrace, ← Nat.add_assoc]; rfl)

/-- R151, R157: with valid operands CONFIGURE's sequence returns, after the events of its sub-operations together. -/
theorem lasts_configure {s : State} {c : BitVec 2} (htx : s.ops.pTxDelay.toNat ≤ 4000)
    (hrx : s.ops.pRxDelay.toNat ≤ 4000) (hlow : 35000 ≤ s.ops.pImped.toNat) (hhigh : s.ops.pImped.toNat ≤ 70000)
    (hfifo : fifoCode s.rm s.ops.pFifo = some c) :
    (commandOf .configure s).act.Lasts s.devAddr .ok
      ({5} + ({5} + ({2 + selections s.rm.clkDelay} + ({2 + selections s.rm.imped} + ({2 + selections s.rm.fifo} +
        ({2 + selections s.rm.gpio} + ({1 + selections s.rm.led} + ({if s.ops.pMdixEn = 1 then 4 else 2} +
          ({5} + ({5} + ({4, 4 + 2 + selections s.rm.fldThr} + {0}))))))))))) :=
  (lasts_of_rmw (commandOf_setlink s)).chain_cons <|
  (lasts_of_rmw (i := .setclksh) (l := .ext s.rm.clkShift) (os := [.pTxShift, .pRxShift]) rfl).chain_cons <|
  (lasts_of_rmw (commandOf_setclkdly (by omega))).chain_cons <|
  (lasts_of_rmw (commandOf_setimped (by omega))).chain_cons <|
  (lasts_of_rmw (commandOf_setfifo hfifo)).chain_cons <|
  (lasts_of_rmw (i := .setgpio) (l := s.rm.gpio) (os := [.pGpio0, .pGpio1]) rfl).chain_cons <|
  ((lasts_wrLoc _ s.rm s.rm.led (ledWord s.rm s.ops)).useAll [.pLed0, .pLed1, .pLed2, .pLed3]).chain_cons <|
  (lasts_setmdix s).chain_cons <|
  (lasts_of_rmw (i := .setidle) (l := .ext s.rm.idle) (os := [.pIdleThr]) rfl).chain_cons <|
  (lasts_of_rmw (i := .setdspeq) (l := .ext s.rm.dspEq) (os := []) rfl).chain_cons <|
  (lasts_fldfix s).chain_cons (lasts_fin _ _)

/-- R129, R140: SETCLKDLY refuses an invalid delay before any event. -/
theorem commandOf_setclkdly_of_invalid {s : State} (h : s.ops.pTxDelay.toNat > 4000 ∨ s.ops.pRxDelay.toNat > 4000) :
    commandOf .setclkdly s = ⟨useAll [.pTxDelay, .pRxDelay] (.fin .invalid), none⟩ := by
  rw [commandOf, setclkdlyAct, if_pos h]

/-- R152: with an invalid delay CONFIGURE's sequence ends after SETLINK and SETCLKSH, and never has more events. -/
theorem lasts_configure_of_invalid_delay {s : State}
    (h : s.ops.pTxDelay.toNat > 4000 ∨ s.ops.pRxDelay.toNat > 4000) :
    (commandOf .configure s).act.Lasts s.devAddr .invalid ({5} + ({5} + {0})) ∧
      (commandOf .configure s).act.atMost 10 := by
  have hlasts : (commandOf .setclkdly s).act.Lasts s.devAddr .invalid {0} := by
    rw [commandOf_setclkdly_of_invalid h]
    exact (lasts_fin s.devAddr .invalid).useAll _
  have hmost (q : Act) : ((commandOf .setclkdly s).act.andThen q).atMost 0 := by
    rw [commandOf_setclkdly_of_invalid h]
    trivial
  exact ⟨(lasts_of_rmw (commandOf_setlink s)).chain_cons <|
      (lasts_of_rmw (i := .setclksh) (l := .ext s.rm.clkShift) (os := [.pTxShift, .pRxShift]) rfl).chain_cons <|
      hlasts.chain_stop nofun _ _,
    (subop_atMost (i := .setlink) (by decide) s).andThen <|
      (subop_atMost (i := .setclksh) (by decide) s).andThen (hmost _)⟩

/-! What a command leaves -/

/-- A command whose events are at most so many leaves no longer a bus trace (R16). -/
theorem exec_trace_length_le {i : Instr} {s t : State} {n : Nat} (hp : (commandOf i s).act.atMost n)
    (h : exec i s = .next t) : t.trace.length ≤ n := by
  rw [exec_eq_runCommand] at h
  cases h
  simpa [runCommand] using run_trace_length hp (commandOf i s).failBool (s.start (encode i))

/-- R23: CONFIGURE writes no result register but STATUS. -/
theorem exec_configure_portOnly {s t : State} (h : exec .configure s = .next t) : t = portOnly s t := by
  obtain ⟨xs, phy, q, hf, e, rfl, ⟨hrval, hrbool, hrstate⟩, -⟩ := exec_ends h
  simp [State.start, State.after, State.finish, portOnly, hrval, hrbool, hrstate]

/-! Where no event fails -/

theorem draw_of_succeedsFor {n : Nat} {s : State} (h : succeedsFor n s) (hn : 0 < n) : s.draw.fail = none := by
  obtain ⟨hlen, hok⟩ := h
  obtain ⟨n, rfl⟩ := Nat.exists_eq_succ_of_ne_zero hn.ne'
  cases henv : s.env with
  | nil => simp [henv] at hlen
  | cons d ds =>
    rw [State.draw_of_env henv]
    exact hok d (by simp [henv])

theorem succeedsFor_tail {n : Nat} {s t : State} (h : succeedsFor n s) (hn : 0 < n) (ht : t.env = s.env.tail) :
    succeedsFor (n - 1) t := by
  obtain ⟨hlen, hok⟩ := h
  refine ⟨?_, fun d hd => hok d ?_⟩
  · rw [ht, List.length_tail]
    omega
  · rw [ht, ← List.drop_one, List.take_drop, Nat.add_sub_cancel' hn] at hd
    exact List.mem_of_mem_drop hd

/-- While no draw is a failure every event completes. -/
theorem run_completed {p : Act} {n : Nat} (hp : p.atMost n) (b : Option (BitVec 1)) {s : State} (hs : succeedsFor n s)
    (ht : ∀ x ∈ s.trace, completed x = true) : ∀ x ∈ (run b p s).trace, completed x = true := by
  induction p generalizing n s with
  | fin e => exact ht
  | use o p ih => exact ih hp (s := s.useOperand o) hs ht
  | sub k p ih => exact ih hp (s := s.enterSub k) hs ht
  | tr a f ih =>
    obtain ⟨hn, hf⟩ := hp
    rcases transportRead_cases a s with ⟨k, u, -, hfail, -⟩ | ⟨v, u, e, -, -, htrace, -, -, henv, -⟩
    · cases (draw_of_succeedsFor hs hn).symm.trans hfail
    · rw [run, e]
      exact ih v (hf v) (succeedsFor_tail hs hn henv) (by simpa [htrace, or_imp, forall_and, completed] using ht)
  | tw a v p ih =>
    obtain ⟨hn, hp⟩ := hp
    rcases transportWrite_cases a v s with ⟨k, u, -, hfail, -⟩ | ⟨u, e, -, htrace, -, -, henv, -⟩
    · cases (draw_of_succeedsFor hs hn).symm.trans hfail
    · rw [run, e]
      exact ih hp (succeedsFor_tail hs hn henv) (by simpa [htrace, or_imp, forall_and, completed] using ht)

theorem exists_not_completed_of_breaks {dev : Nat} {p : Act} {t : List BusEvent} {k : Kind}
    (h : p.breaks dev t k) : ∃ x ∈ t, completed x = false := by
  induction p generalizing t with
  | fin _ => exact h.elim
  | use o p ih => exact ih h
  | sub k p ih => exact ih h
  | tr a f ih =>
    obtain rfl | ⟨v, t', rfl, h⟩ := h
    · exact ⟨_, List.mem_singleton_self _, rfl⟩
    · obtain ⟨x, hx, hfailed⟩ := ih v h
      exact ⟨x, List.mem_cons_of_mem _ hx, hfailed⟩
  | tw a v p ih =>
    obtain rfl | ⟨t', rfl, h⟩ := h
    · exact ⟨_, List.mem_singleton_self _, rfl⟩
    · obtain ⟨x, hx, hfailed⟩ := ih h
      exact ⟨x, List.mem_cons_of_mem _ hx, hfailed⟩

/-- Where none of its events fails a command's sequence is carried out to its end (R105, R171). -/
theorem exec_leads_of_succeeds {i : Instr} {s t : State} {n : Nat} (hp : (commandOf i s).act.atMost n)
    (hs : succeedsFor n s) (h : exec i s = .next t) :
    ∃ e, (commandOf i s).act.leads s.devAddr t.trace e ∧ t.status = e.result.word := by
  refine (exec_leads_or_breaks h).resolve_right ?_
  rintro ⟨k, hb, -⟩
  obtain ⟨x, hx, hfailed⟩ := exists_not_completed_of_breaks hb
  rw [exec_eq_runCommand] at h
  cases h
  have hdone := run_completed hp (commandOf i s).failBool (s := s.start (encode i)) hs (List.forall_mem_nil _) x hx
  rw [hfailed] at hdone
  cases hdone

end Sys2Proof.Machine
end

section
/-! Masked updates of one register of the PHY, one after another (00_scope.md R13, 43_configure.md R155, 70 R199): the
bits each keeps, the fields of a well-formed map that share a register, and the strap bit (R36). -/

namespace Sys2Proof.Machine

open Sys2Proof.Safety

/-! Bits of a masked update -/

/-- A masked update keeps what is apart from its mask. -/
theorem merge_and_of_disjoint {m f : Word} (h : m &&& f = 0) (cur v : Word) : merge cur m v &&& f = cur &&& f := by
  ext i hi
  have hbit : (m[i] && f[i]) = false := by simpa using congrArg (fun w : Word => w[i]) h
  simp only [merge, BitVec.getElem_and, BitVec.getElem_or, BitVec.getElem_not]
  cases hf : f[i] <;> simp_all

/-- A masked update takes what is within its mask from the value. -/
theorem merge_and_of_within {m f : Word} (h : m &&& f = f) (cur v : Word) : merge cur m v &&& f = v &&& f := by
  rw [← h, ← BitVec.and_assoc, merge_and_mask, BitVec.and_assoc]

theorem or_and_left_self (m n : Word) : (m ||| n) &&& m = m := by
  ext i hi
  simp only [BitVec.getElem_and, BitVec.getElem_or]
  cases m[i] <;> simp

theorem or_and_right_self (m n : Word) : (m ||| n) &&& n = n := by
  rw [BitVec.or_comm, or_and_left_self]

theorem and_not_of_within {m n : Word} (h : n &&& m = m) : m &&& ~~~n = 0 := by
  rw [← h, BitVec.and_comm n, BitVec.and_assoc, BitVec.and_not_self]
  exact BitVec.and_zero

theorem ite_and_self (c : Prop) [Decidable c] (m : Word) : (if c then m else 0) &&& m = if c then m else 0 := by
  split <;> simp

theorem ite_and_of_disjoint {m f : Word} (h : m &&& f = 0) (c : Prop) [Decidable c] :
    (if c then m else 0) &&& f = 0 := by
  split
  · exact h
  · exact BitVec.zero_and

/-! Fields that share a register -/

/-- R56 (b): fields of different sub-operations at one location are disjoint. -/
theorem RegMap.fields_disjoint_of_wf {rm : RegMap} (h : rm.wf = true) {op op' : Opcode} {l : RegLoc} {m m' : Word}
    (hp : (op, l, m) ∈ rm.subopFields) (hq : (op', l, m') ∈ rm.subopFields) (hop : op ≠ op') : m &&& m' = 0 := by
  have halias : rm.wfAlias = true := by simp_all [RegMap.wf]
  have hpairs := of_decide_eq_true halias
  have hpq := hpairs.forall_of_forall_of_flip (fun _ _ => .inl rfl)
    (hpairs.imp fun hpq => hpq.imp Eq.symm (Or.imp Ne.symm (BitVec.and_comm _ _).trans)) hp hq
  simpa [hop] using hpq

/-- R13: two fields of width 1 that differ are disjoint. -/
theorem and_eq_zero_of_isFieldOf_one {m n : Word} (hm : isFieldOf 1 m = true) (hn : isFieldOf 1 n = true)
    (hne : m ≠ n) : m &&& n = 0 := by
  simp only [isFieldOf, Bool.and_eq_true, beq_iff_eq] at hm hn
  obtain ⟨hm, hmw⟩ := hm
  obtain ⟨hn, hnw⟩ := hn
  have hshift : fieldShift m ≠ fieldShift n := by
    intro he
    refine hne (BitVec.eq_of_getLsbD_eq fun i _ => ?_)
    rw [getLsbD_of_isField hm, getLsbD_of_isField hn, hmw, hnw, he]
  refine BitVec.eq_of_getLsbD_eq fun i _ => ?_
  rw [BitVec.getLsbD_and, getLsbD_of_isField hm, getLsbD_of_isField hn, hmw, hnw]
  grind

/-- R44: the two clock-shift enables are disjoint. -/
theorem RegMap.shift_disjoint_of_wf {rm : RegMap} (h : rm.wf = true) : rm.txShift &&& rm.rxShift = 0 := by
  obtain ⟨-, htx, hrx⟩ := RegMap.bitFields_of_wf h
  exact and_eq_zero_of_isFieldOf_one htx hrx (by simp_all [RegMap.wf, RegMap.wfShift])

/-- R56 (b): on one register the RMII-enable bit is apart from the clock-shift enables. -/
theorem RegMap.linkShift_disjoint_of_wf {rm : RegMap} (h : rm.wf = true) (hreg : rm.clkShift = rm.modeCtl) :
    rm.rmiiEn &&& (rm.txShift ||| rm.rxShift) = 0 :=
  RegMap.fields_disjoint_of_wf h (op := 0x20) (op' := 0x21) (l := .ext rm.modeCtl) (by simp [RegMap.subopFields])
    (by simp [RegMap.subopFields, hreg]) (by decide)

/-! The register after a masked update -/

/-- A quiet masked update of an extended register, its mask apart from the strap bit (R36), leaves the register with
the value written, and ENV_REF as it was. -/
theorem exec_rmw_ext_leaves {i : Instr} {s t : State} {os : List Operand} {x : Ext16} {m v : Word} {rest : List Draw}
    (hexec : exec i s = .next (afterRmw s os (.ext x) m v rest))
    (hm : x = s.rm.strap → m &&& s.rm.fldStrapBit = 0) (ht : exec i s = .next t) :
    t.phy.ext x = merge (s.phy.ext x) m v ∧ t.env = rest ∧ t.phy.lost = s.phy.lost := by
  cases ht.symm.trans hexec
  refine ⟨?_, rfl, stored_lost ..⟩
  refine (selected s.rm (.ext x) s.phy).reg_store_keeps (.ext x) (merge (s.phy.ext x) m v) fun hx => ?_
  rw [merge_and_of_disjoint (hm (RegLoc.ext.inj hx)), s.phy.reg_selected_same]
  rfl

/-- R36, R56 (b): the masks of SETLINK and SETCLKSH are apart from the strap bit. -/
theorem RegMap.strap_disjoint_of_wf {rm : RegMap} (h : rm.wf = true) :
    (rm.modeCtl = rm.strap → rm.rmiiEn &&& rm.fldStrapBit = 0) ∧
      (rm.clkShift = rm.strap → (rm.txShift ||| rm.rxShift) &&& rm.fldStrapBit = 0) := by
  refine ⟨fun hx => ?_, fun hx => ?_⟩
  · exact RegMap.fields_disjoint_of_wf h (op := 0x20) (op' := 0x2A) (l := .ext rm.modeCtl)
      (by simp [RegMap.subopFields]) (by simp [RegMap.subopFields, hx]) (by decide)
  · exact RegMap.fields_disjoint_of_wf h (op := 0x21) (op' := 0x2A) (l := .ext rm.clkShift)
      (by simp [RegMap.subopFields]) (by simp [RegMap.subopFields, hx]) (by decide)

/-- R155, R199: after SETLINK and SETCLKSH on one register it holds both masked updates, the second of what the first
wrote. -/
theorem ext_setlink_setclksh_quiet {s t u : State} {rest : List Draw} (h : s.rm.wf = true)
    (hreg : s.rm.clkShift = s.rm.modeCtl) (hq : quietFor 10 s rest) (ht : exec .setlink s = .next t)
    (hu : exec .setclksh t = .next u) :
    u.phy.ext s.rm.modeCtl =
      merge (merge (s.phy.ext s.rm.modeCtl) s.rm.rmiiEn (if s.ops.pLinkMode.toNat = 1 then s.rm.rmiiEn else 0))
        (s.rm.txShift ||| s.rm.rxShift)
        ((if s.ops.pTxShift = 1 then s.rm.txShift else 0) ||| (if s.ops.pRxShift = 1 then s.rm.rxShift else 0)) := by
  obtain ⟨hmode, hshift⟩ := RegMap.strap_disjoint_of_wf h
  obtain ⟨hlink, -⟩ := Proofs.extendedSubopsUnderEnvRef s (List.replicate 5 quiet ++ rest) h
  obtain ⟨hfirst, henv, hlost⟩ := exec_rmw_ext_leaves (hlink hq) hmode ht
  have hsame := exec_sameEngine ht
  obtain ⟨-, hclock, -⟩ := Proofs.extendedSubopsUnderEnvRef t rest (hsame.rm ▸ h)
  obtain ⟨hsecond, -⟩ := exec_rmw_ext_leaves (hclock ⟨henv, hlost.trans hq.2⟩) (hsame.rm ▸ hshift) hu
  rwa [hsame.rm, hsame.ops, hreg, hfirst] at hsecond

end Sys2Proof.Machine
end

section
/-! The statements of 43_configure.md settled. -/

namespace Sys2Proof.Proofs

open Sys2Proof.Machine Sys2Proof.Safety

/-- Settles O43: by `exec_configure`, the induction over the chain of sub-operations. -/
theorem configureIsFailFastSequence : Obligations.ConfigureIsFailFastSequence := exec_configure

/-- Settles O44: no event fails, so the sequence is carried out to its end, and that is a return after the events of its
sub-operations together. -/
theorem configureCompletes : Obligations.ConfigureCompletes := by
  intro s htx hrx hlow hhigh hfifo hs
  obtain ⟨t, ht⟩ : ∃ t, exec .configure s = .next t := ⟨_, exec_eq_runCommand .configure s⟩
  obtain ⟨c, hc⟩ := Option.ne_none_iff_exists'.mp fun hnone => fifoCode_eq_none_iff.mp hnone hfifo
  obtain ⟨e, hleads, hstatus⟩ := exec_leads_of_succeeds (commandOf_atMost .configure s) hs ht
  obtain ⟨rfl, hlength⟩ := lasts_configure htx hrx hlow hhigh hc _ _ hleads
  simp only [Set.mem_add, Set.mem_singleton_iff, Set.mem_insert_iff, exists_eq_left, exists_eq_right, add_zero,
    exists_exists_and_eq_and] at hlength
  obtain ⟨fld, hfld, hlength⟩ := hlength
  have hmdix : 2 ≤ if s.ops.pMdixEn = 1 then 4 else 2 := by split <;> decide
  exact ⟨t, fld, ht, exec_configure_portOnly ht, hstatus, by omega, hfld, by omega, exec_trace_length ht⟩

/-- Settles O45: carried out to its end the sequence is refused after SETLINK and SETCLKSH; broken off, it had at most
their events. -/
theorem configureStopsAtInvalidDelay : Obligations.ConfigureStopsAtInvalidDelay := by
  intro s hdelay
  obtain ⟨hlasts, hmost⟩ := lasts_configure_of_invalid_delay hdelay
  obtain ⟨t, ht⟩ : ∃ t, exec .configure s = .next t := ⟨_, exec_eq_runCommand .configure s⟩
  refine ⟨t, ht, exec_configure_portOnly ht, exec_trace_length_le hmost ht, ?_⟩
  obtain ⟨e, hleads, hstatus⟩ | ⟨k, -, hstatus⟩ := exec_leads_or_breaks ht
  · obtain ⟨rfl, hlength⟩ := hlasts _ _ hleads
    exact .inl ⟨hstatus, by simpa using hlength⟩
  · exact .inr ⟨k, hstatus⟩

/-- Settles O47: the register holds two masked updates, whose masks are disjoint (R44, R56 (b)): each field reads the
value of its own update, and what is apart from both is as before. -/
theorem sharedRegisterUpdatesSurvive : Obligations.SharedRegisterUpdatesSurvive := by
  intro s t u rest h hreg hq ht hu
  have hlink := RegMap.linkShift_disjoint_of_wf h hreg
  have hshift := RegMap.shift_disjoint_of_wf h
  rw [ext_setlink_setclksh_quiet h hreg hq ht hu]
  refine ⟨?_, ?_, ?_, ?_⟩
  · rw [merge_and_of_disjoint ((BitVec.and_comm _ _).trans hlink), merge_and_mask, ite_and_self]
  · rw [merge_and_of_within (or_and_left_self ..), BitVec.and_or_distrib_right, ite_and_self,
      ite_and_of_disjoint ((BitVec.and_comm _ _).trans hshift)]
    exact BitVec.or_zero
  · rw [merge_and_of_within (or_and_right_self ..), BitVec.and_or_distrib_right, ite_and_self,
      ite_and_of_disjoint hshift]
    exact BitVec.zero_or
  · rw [BitVec.or_assoc, merge_and_of_disjoint (and_not_of_within (or_and_right_self ..)),
      merge_and_of_disjoint (and_not_of_within (or_and_left_self ..))]

end Sys2Proof.Proofs
end

section
/-! The commands of the Reset State Machine (44_reset.md R159, R160): what RESET and ISRSTDONE can end as in every
environment, and ISRSTDONE under ENV_REF. -/

namespace Sys2Proof.Machine

open Sys2Proof.Safety

/-! How a command ends, in the terms of the statements -/

/-- Everything a command can end as, its result registers included: what its ending writes, over what no command but by
its ending may change (R171, R173). -/
theorem exec_finishes (i : Instr) (s : State) :
    ∃ t, exec i s = .next t ∧
      ((∃ e, (commandOf i s).act.leads s.devAddr t.trace e ∧ t = (portOnly s t).finish e) ∨
        ∃ k, (commandOf i s).act.breaks s.devAddr t.trace k ∧
          t = (portOnly s t).finish (.transport (commandOf i s).failBool k)) := by
  obtain ⟨xs, phy, q, hf, ⟨e, hleads, ht⟩ | ⟨k, hbreaks, ht⟩⟩ := exec_outcome i s
  · exact ⟨_, ht, .inl ⟨e, by simpa [State.start, State.after] using hleads, by
      simp [State.start, State.after, State.finish, portOnly]⟩⟩
  · exact ⟨_, ht, .inr ⟨k, by simpa [State.start, State.after] using hbreaks, by
      simp [State.start, State.after, State.finish, portOnly]⟩⟩

/-- The result registers after a command's end hold what its ending wrote. -/
theorem eq_portOnly_of_finish {s t : State} {e : Ending} (h : t = (portOnly s t).finish e) :
    t = { portOnly s t with
          rval := e.rval.getD s.rval
          rbool := e.rbool.getD s.rbool
          rstate := e.rstate.getD s.rstate } := by
  have hstatus : t.status = e.result.word := congrArg State.status h
  simpa only [State.finish, portOnly, hstatus] using h

theorem transportStatus_ne_zero (k : Kind) : transportStatus k ≠ 0x0000 := fun h =>
  nomatch (Result.word_ok_iff (.transportFailure k)).mp h

/-- A completed read is not one cut short. -/
theorem not_cutShort_readTrace {plan : List BusEvent} {k : Kind} (dev : Nat) (rm : RegMap) (v : Word) (l : RegLoc) :
    ¬cutShort plan (readTrace dev rm v l) k := by
  intro hcut
  obtain ⟨x, hx, hfailed⟩ := exists_not_completed_of_cutShort hcut
  rw [completed_of_mem_readTrace dev rm v l x hx] at hfailed
  cases hfailed

/-! RESET (R159) -/

/-- The ending of RESET carried out. -/
def Ending.resetRequested : Ending := ⟨.ok, none, none, some .requested⟩

theorem commandOf_reset (s : State) :
    commandOf .reset s =
      ⟨useAll [] (rmwLoc s.rm s.rm.ctrl s.rm.resetBit s.rm.resetBit (.fin .resetRequested)), none⟩ := rfl

theorem exec_reset_outcomes (s : State) :
    ∃ t, exec .reset s = .next t ∧
      ((∃ cur, t.trace = rmwTrace s.devAddr s.rm cur (cur ||| s.rm.resetBit) s.rm.ctrl ∧
          t = (portOnly s t).finish .resetRequested) ∨
        ∃ cur k, cutShort (rmwTrace s.devAddr s.rm cur (cur ||| s.rm.resetBit) s.rm.ctrl) t.trace k ∧
          t = (portOnly s t).finish (.transport none k)) := by
  obtain ⟨t, ht, ⟨e, hleads, hend⟩ | ⟨k, hbreaks, hend⟩⟩ := exec_finishes .reset s
  · obtain ⟨cur, _, htrace, rfl, rfl⟩ := (leads_rmwLoc ..).mp hleads
    rw [merge_self, List.append_nil] at htrace
    exact ⟨t, ht, .inl ⟨cur, htrace, hend⟩⟩
  · obtain ⟨cur, hcut | ⟨_, _, hfin⟩⟩ := breaks_rmwLoc hbreaks
    · rw [merge_self] at hcut
      exact ⟨t, ht, .inr ⟨cur, k, hcut, hend⟩⟩
    · exact hfin.elim

/-! ISRSTDONE (R160) -/

theorem exec_isrstdone_outcomes (s : State) :
    ∃ t, exec .isrstdone s = .next t ∧
      ((∃ v, t.trace = readTrace s.devAddr s.rm v s.rm.ctrl ∧
          t = (portOnly s t).finish (isrstdoneEnding s.rm s.rstate v)) ∨
        ∃ v k, cutShort (readTrace s.devAddr s.rm v s.rm.ctrl) t.trace k ∧
          t = (portOnly s t).finish (.transport (some 0) k)) := by
  obtain ⟨t, ht, ⟨e, hleads, hend⟩ | ⟨k, hbreaks, hend⟩⟩ := exec_finishes .isrstdone s
  · obtain ⟨v, _, htrace, rfl, rfl⟩ := (leads_rdLoc ..).mp hleads
    rw [List.append_nil] at htrace
    exact ⟨t, ht, .inl ⟨v, htrace, hend⟩⟩
  · obtain ⟨v, hcut | ⟨_, _, hfin⟩⟩ := breaks_rdLoc hbreaks
    · exact ⟨t, ht, .inr ⟨v, k, hcut, hend⟩⟩
    · exact hfin.elim

theorem isrstdoneEnding_rbool (rm : RegMap) (r : ResetState) (v : Word) (b : BitVec 1) :
    (isrstdoneEnding rm r v).rbool.getD b = if v &&& rm.resetBit = 0 then 1 else 0 := by
  rw [isrstdoneEnding]
  by_cases hbit : v &&& rm.resetBit = 0
  · rw [if_pos hbit, decide_eq_true hbit]
    rfl
  · rw [if_neg hbit, decide_eq_false hbit]
    rfl

theorem isrstdoneEnding_rstate (rm : RegMap) (r : ResetState) (v : Word) :
    (isrstdoneEnding rm r v).rstate.getD r = if v &&& rm.resetBit = 0 ∧ r = .requested then .complete else r := by
  rw [isrstdoneEnding]
  split <;> rfl

theorem State.issued_nil (s : State) (i : Instr) : s.issued i [] = s.start (encode i) := by
  rw [State.issued, faultAfter_nil]
  rfl

theorem exec_isrstdone_quiet {s : State} {rest : List Draw} (h : s.rm.wf = true)
    (hq : quietFor (1 + selections s.rm.ctrl) s rest) :
    exec .isrstdone s =
      .next { afterOk s [] (readTrace s.devAddr s.rm (s.phy.reg s.rm.ctrl) s.rm.ctrl)
                (selected s.rm s.rm.ctrl s.phy) rest with
              rbool := (isrstdoneEnding s.rm s.rstate (s.phy.reg s.rm.ctrl)).rbool.getD s.rbool
              rstate := (isrstdoneEnding s.rm s.rstate (s.phy.reg s.rm.ctrl)).rstate.getD s.rstate } := by
  have hrun := run_rdLoc_quiet (some 0) s.rm.ctrl (fun v => .fin (isrstdoneEnding s.rm s.rstate v))
    (s.issued .isrstdone []) rest h (RegMap.ne_mmdData_of_wf h) hq.2 hq.1
  rw [exec_eq_runCommand, runCommand, ← State.issued_nil]
  exact congrArg Host.Outcome.next (hrun.trans (finish_afterEvents_start s (encode .isrstdone) [] _ _ _ _))

end Sys2Proof.Machine
end

section
/-! The statements of 44_reset.md settled. -/

namespace Sys2Proof.Proofs

open Sys2Proof.Machine Sys2Proof.Safety

/-- Settles O48: RESET is one masked update of the control register, its mask its value; only its ending, not a failure,
writes RSTATE. -/
theorem resetOutcomes : Obligations.ResetOutcomes := by
  intro s
  obtain ⟨t, ht, ⟨cur, htrace, hend⟩ | ⟨cur, k, hcut, hend⟩⟩ := exec_reset_outcomes s
  · have hstatus : t.status = 0x0000 := congrArg State.status hend
    have hrstate : t.rstate = .requested := congrArg State.rstate hend
    refine ⟨t, ht, ?_, .inl ⟨cur, htrace, hstatus⟩, fun _ => hrstate, fun hne => absurd hstatus hne⟩
    rw [hrstate]
    exact eq_portOnly_of_finish hend
  · have hstatus : t.status = transportStatus k := congrArg State.status hend
    have hrstate : t.rstate = s.rstate := (congrArg State.rstate hend).trans rfl
    refine ⟨t, ht, ?_, .inr ⟨cur, k, hcut, hstatus⟩, fun hok => ?_, fun _ => hrstate⟩
    · rw [hrstate]
      exact eq_portOnly_of_finish hend
    · exact absurd (hstatus.symm.trans hok) (transportStatus_ne_zero k)

/-- Settles O49: ISRSTDONE is one read of the control register; the value read decides its ending, and a trace with a
failed event is no completed read. -/
theorem isrstdoneOutcomes : Obligations.IsrstdoneOutcomes := by
  intro s
  obtain ⟨t, ht, ⟨v, htrace, hend⟩ | ⟨v, k, hcut, hend⟩⟩ := exec_isrstdone_outcomes s
  · have hstatus : t.status = 0x0000 := congrArg State.status hend
    have hrbool : t.rbool = (isrstdoneEnding s.rm s.rstate v).rbool.getD s.rbool := congrArg State.rbool hend
    have hrstate : t.rstate = (isrstdoneEnding s.rm s.rstate v).rstate.getD s.rstate := congrArg State.rstate hend
    refine ⟨t, ht, ?_, .inl ⟨v, htrace, hstatus⟩, fun hne => absurd hstatus hne, fun w hw => ?_⟩
    · rw [hrbool, hrstate]
      exact eq_portOnly_of_finish hend
    · obtain rfl := readTrace_inj.mp (htrace.symm.trans hw)
      rw [hrbool, hrstate, isrstdoneEnding_rbool, isrstdoneEnding_rstate]
      exact ⟨Ne.ite_eq_left_iff (by decide), rfl⟩
  · have hstatus : t.status = transportStatus k := congrArg State.status hend
    have hrbool : t.rbool = 0 := congrArg State.rbool hend
    have hrstate : t.rstate = s.rstate := (congrArg State.rstate hend).trans rfl
    refine ⟨t, ht, ?_, .inr ⟨v, k, hcut, hstatus⟩, fun _ => ⟨hrbool, hrstate⟩, fun w hw => ?_⟩
    · rw [hrbool, hrstate]
      exact eq_portOnly_of_finish hend
    · exact absurd (hw ▸ hcut) (not_cutShort_readTrace _ _ _ _)

/-- Settles O50: by the frame of the commands that do not write RSTATE, and by the endings of the two that do; a command
that ended OK carried out its plan. -/
theorem rstateTransitions : Obligations.RstateTransitions := by
  intro i s
  by_cases hi : i ∈ [.reset, .isrstdone]
  · obtain rfl | rfl : i = .reset ∨ i = .isrstdone := by simpa using hi
    · obtain ⟨t, ht, -, -, hok, hfail⟩ := resetOutcomes s
      refine ⟨t, ht, ?_⟩
      by_cases hstatus : t.status = 0x0000
      · rw [if_neg (not_not_intro hstatus), if_pos rfl, hok hstatus]
      · rw [if_pos hstatus, hfail hstatus]
    · obtain ⟨t, ht, -, hends, hfail, hread⟩ := isrstdoneOutcomes s
      refine ⟨t, ht, ?_⟩
      by_cases hstatus : t.status = 0x0000
      · obtain ⟨v, htrace, -⟩ := hends.resolve_right fun ⟨_, k, _, hk⟩ =>
          transportStatus_ne_zero k (hk.symm.trans hstatus)
        obtain ⟨hrbool, hrstate⟩ := hread v htrace
        rw [if_neg (not_not_intro hstatus), if_neg nofun, hrstate]
        simp only [hrbool, true_and]
      · rw [if_pos hstatus, (hfail hstatus).2]
  · obtain ⟨t, ht⟩ : ∃ t, exec i s = .next t := ⟨_, exec_eq_runCommand i s⟩
    obtain ⟨-, -, -, -, -, -, -, -, hkept, -⟩ := commandFrame i s t ht
    have hne : i ≠ .reset ∧ i ≠ .isrstdone := by simpa using hi
    exact ⟨t, ht, by simp [hkept hi, hne]⟩

/-- Settles O51: one masked update, or one read, of the control register,
which is not the MMD data register (R56 (a)). -/
theorem resetMachineUnderEnvRef : Obligations.ResetMachineUnderEnvRef := by
  intro s rest h
  refine ⟨fun hq => ?_, fun hq => ?_⟩
  · exact exec_rmw_quiet .reset s _ _ _ _ _ rest (commandOf_reset s) h (RegMap.ne_mmdData_of_wf h) hq
  · rw [exec_isrstdone_quiet h hq, isrstdoneEnding_rbool, isrstdoneEnding_rstate]

end Sys2Proof.Proofs
end

section
/-! Results and failures (60_exceptions.md R166 to R173): how a command can end, and what the environment's draws decide
of its events (20_memory.md R60, R76). -/

namespace Sys2Proof.Machine

open Sys2Proof.Safety

/-! The words of STATUS (R166, R167) -/

theorem statusKind_transportStatus (k : Kind) : statusKind (transportStatus k) = k := by
  ext n hn
  interval_cases n <;> simp [statusKind, transportStatus]

theorem statusCode_transportStatus (k : Kind) : statusCode (transportStatus k) = 2 := by
  ext n hn
  interval_cases n <;> simp [statusCode, transportStatus]

theorem transportStatus_inj {k k' : Kind} : transportStatus k = transportStatus k' ↔ k = k' :=
  (Function.LeftInverse.injective statusKind_transportStatus).eq_iff

/-- R167: STATUS tells a failure from every other result, and the failures' kinds apart. -/
theorem Result.word_eq_transportStatus_iff {r : Result} {k : Kind} :
    r.word = transportStatus k ↔ r = .transportFailure k := by
  refine ⟨fun h => ?_, fun h => by rw [h]; rfl⟩
  have hcode : statusCode r.word = 2 := by rw [h, statusCode_transportStatus]
  cases r with
  | transportFailure k' => rw [transportStatus_inj.mp (show transportStatus k' = transportStatus k from h)]
  | ok | invalidParameter | illegalCommand => exact absurd hcode (by decide)

/-! How a sequence ends (R168, R171, R172) -/

/-- The commands that check an operand (R168). -/
def validated : List Instr := [.rdd, .wrd, .rmwd, .setclkdly, .setimped, .setfifo, .configure]

theorem commandOf_all_ok {i : Instr} (hi : i ∉ validated) (s : State) :
    (commandOf i s).act.all (fun _ => True) (fun _ => True) (fun e => e.result = .ok) := by
  cases i
  case rdx => simp [commandOf, rdxCommand, Ending.value]
  case wrx => simp [commandOf, wrxCommand, Ending.ok]
  case rmwx => simp [commandOf, rmwxCommand, Ending.ok]
  case ident => simp [commandOf, identCommand, Ending.bool]
  case linksup => simp [commandOf, linksupCommand, Ending.bool]
  case setlink => simp [commandOf, setlinkAct, Ending.ok]
  case setclksh => simp [commandOf, setclkshAct, Ending.ok]
  case setgpio => simp [commandOf, setgpioAct, Ending.ok]
  case setled => simp [commandOf, setledAct, Ending.ok]
  case setmdix => simp [commandOf, setmdixAct, Ending.ok]
  case setidle => simp [commandOf, setidleAct, Ending.ok]
  case setdspeq => simp [commandOf, setdspeqAct, Ending.ok]
  case fldfix => simp [commandOf, fldfixAct, Ending.ok]
  case setloop => simp [commandOf, setloopAct, Ending.ok]
  case reset => simp [commandOf, resetCommand]
  case isrstdone => simp [commandOf, isrstdoneCommand, isrstdoneEnding]
  all_goals exact absurd (by decide) hi

theorem commandOf_all_validated {i : Instr} (hi : i ∈ validated) (s : State) :
    (commandOf i s).act.all (fun _ => True) (fun _ => True)
      (fun e => e.result = .ok ∨ e.result = .invalidParameter) := by
  have hsub {j : Instr} (hj : j ∈ subopOrder) : (commandOf j s).act.all (fun _ => True) (fun _ => True)
      (fun e => e.result = .ok ∨ e.result = .invalidParameter) :=
    (subop_all hj s).imp (fun _ _ => trivial) (fun _ h => h.elim)
      (by rintro e (rfl | rfl) <;> [exact .inl rfl; exact .inr rfl])
  cases i
  case rdd => exact ⟨trivial, Act.all_withDirect _ (.inr rfl) fun a v => .inl rfl⟩
  case wrd => exact ⟨trivial, Act.all_withDirect _ (.inr rfl) fun a => ⟨trivial, .inl rfl⟩⟩
  case rmwd =>
    simp only [commandOf, rmwdCommand, Act.all_useAll]
    exact ⟨fun _ _ => trivial, Act.all_withDirect _ (.inr rfl) fun a _ => .inl rfl⟩
  case setclkdly | setimped | setfifo => exact hsub (by decide)
  case configure =>
    refine Act.all_chain (fun _ => trivial) (.inl rfl) (fun p hp => ?_) 0
    obtain ⟨j, hj, rfl⟩ := List.mem_map.mp (show p ∈ subopOrder.map fun j => (commandOf j s).act from hp)
    exact hsub hj
  all_goals exact absurd hi (by decide)

/-- R168: every command's sequence ends OK, or InvalidParameter where it checks an operand. -/
theorem result_of_leads {i : Instr} {s : State} {t : List BusEvent} {e : Ending}
    (h : (commandOf i s).act.leads s.devAddr t e) :
    e.result = .ok ∨ (e.result = .invalidParameter ∧ i ∈ validated) := by
  by_cases hi : i ∈ validated
  · exact ((commandOf_all_validated hi s).of_leads h).imp_right (⟨·, hi⟩)
  · exact .inl ((commandOf_all_ok hi s).of_leads h)

/-! The events of a sequence carried out, and of one broken off (R105, R169) -/

theorem completed_of_leads {dev : Nat} {p : Act} {t : List BusEvent} {e : Ending} (h : p.leads dev t e) :
    ∀ x ∈ t, completed x = true := by
  induction p generalizing t with
  | fin _ =>
    obtain ⟨rfl, -⟩ := h
    exact List.forall_mem_nil _
  | use o p ih => exact ih h
  | sub k p ih => exact ih h
  | tr a f ih =>
    obtain ⟨v, t, rfl, h⟩ := h
    exact List.forall_mem_cons.mpr ⟨rfl, ih v h⟩
  | tw a v p ih =>
    obtain ⟨t, rfl, h⟩ := h
    exact List.forall_mem_cons.mpr ⟨rfl, ih h⟩

/-- A bus trace whose last event failed with kind `k`, and no other. -/
def FailsLast (t : List BusEvent) (k : Kind) : Prop :=
  ∃ xs x, t = xs ++ [x] ∧ (∀ y ∈ xs, completed y = true) ∧ failedKind x = some k

theorem FailsLast.singleton {x : BusEvent} {k : Kind} (h : failedKind x = some k) : FailsLast [x] k :=
  ⟨[], x, rfl, List.forall_mem_nil _, h⟩

theorem FailsLast.cons {x : BusEvent} {t : List BusEvent} {k : Kind} (hx : completed x = true) (h : FailsLast t k) :
    FailsLast (x :: t) k := by
  obtain ⟨xs, y, rfl, hxs, hy⟩ := h
  exact ⟨x :: xs, y, rfl, List.forall_mem_cons.mpr ⟨hx, hxs⟩, hy⟩

theorem failsLast_of_breaks {dev : Nat} {p : Act} {t : List BusEvent} {k : Kind} (h : p.breaks dev t k) :
    FailsLast t k := by
  induction p generalizing t with
  | fin _ => exact h.elim
  | use o p ih => exact ih h
  | sub j p ih => exact ih h
  | tr a f ih =>
    obtain rfl | ⟨v, t, rfl, h⟩ := h
    · exact .singleton rfl
    · exact .cons rfl (ih v h)
  | tw a v p ih =>
    obtain rfl | ⟨t, rfl, h⟩ := h
    · exact .singleton rfl
    · exact .cons rfl (ih h)

theorem failedKind_eq_none_iff {x : BusEvent} : failedKind x = none ↔ completed x = true := by
  cases x <;> simp [failedKind, completed]

/-- R166 to R169: everything a command can end as, by its result and its events. -/
theorem exec_result {i : Instr} {s t : State} (h : exec i s = .next t) :
    (∃ r : Result, (r = .ok ∨ (r = .invalidParameter ∧ i ∈ validated)) ∧ t.status = r.word ∧
        ∀ x ∈ t.trace, completed x = true) ∨
      ∃ k, t.status = transportStatus k ∧ FailsLast t.trace k := by
  obtain ⟨e, hl, hst⟩ | ⟨k, hb, hst⟩ := exec_leads_or_breaks h
  · exact .inl ⟨e.result, result_of_leads hl, hst, completed_of_leads hl⟩
  · exact .inr ⟨k, hst, failsLast_of_breaks hb⟩

/-! What the draws decide (20_memory.md R60, R76) -/

/-- The environment's choices for an event that has this record: whether and how it fails, and what a completed read
returns. -/
def AsDrawn (d : Draw) (x : BusEvent) : Prop :=
  failedKind x = d.fail ∧ ∀ v w, readResult x = some v → d.value = some w → v = w

/-- The coming draws of a state decide these events, one each and in order. -/
def State.Decides (s : State) (xs : List BusEvent) : Prop := ∀ n x, xs[n]? = some x → AsDrawn (drawAt s n) x

theorem drawAt_zero (s : State) : drawAt s 0 = s.draw := by
  unfold drawAt State.draw
  cases s.env <;> rfl

theorem drawAt_succ {s u : State} (he : u.env = s.env.tail) (hk : u.tick = s.tick + 1) (n : Nat) :
    drawAt u n = drawAt s (n + 1) := by
  rw [drawAt, drawAt, he, hk, List.getElem?_tail, Nat.add_assoc, Nat.add_comm 1]

theorem State.Decides.nil (s : State) : s.Decides [] := nofun

theorem State.Decides.cons {s u : State} {x : BusEvent} {xs : List BusEvent} (hx : AsDrawn s.draw x)
    (he : u.env = s.env.tail) (hk : u.tick = s.tick + 1) (h : u.Decides xs) : s.Decides (x :: xs)
  | 0, y, hy => by
    cases hy
    rwa [drawAt_zero]
  | n + 1, y, hy => drawAt_succ he hk n ▸ h n y hy

theorem State.Decides.singleton {s : State} {x : BusEvent} (hx : AsDrawn s.draw x) : s.Decides [x] :=
  .cons (u := s.takeDraw) hx rfl rfl (.nil _)

theorem State.readValue_of_value {s : State} {d : Draw} {w : Word} (h : d.value = some w) (n : Nat) (a : Direct5) :
    s.readValue d n a = w := by
  rw [State.readValue, h]

/-- R60, R76: the events a run adds to the bus trace are as the draws decide. -/
theorem run_decides (b : Option (BitVec 1)) (p : Act) (s : State) :
    ∃ xs, (run b p s).trace = s.trace ++ xs ∧ s.Decides xs := by
  induction p generalizing s with
  | fin e => exact ⟨[], (List.append_nil _).symm, .nil s⟩
  | use o p ih => exact ih (s.useOperand o)
  | sub k p ih => exact ih (s.enterSub k)
  | tr a f ih =>
    rcases transportRead_cases a s with ⟨k, u, e, hfail, ht, _⟩ | ⟨v, u, e, hfail, hv, ht, _, _, he, hk, _⟩ <;>
      rw [run, e]
    · exact ⟨_, ht, .singleton ⟨hfail.symm, nofun⟩⟩
    · obtain ⟨xs, hrun, hxs⟩ := ih v u
      refine ⟨.read s.devAddr a v :: xs, by rw [hrun, ht, List.append_assoc, List.singleton_append],
        .cons ⟨hfail.symm, ?_⟩ he hk hxs⟩
      rintro _ w ⟨⟩ hw
      rw [hv, State.readValue_of_value hw]
  | tw a v p ih =>
    rcases transportWrite_cases a v s with ⟨k, u, e, hfail, ht, _⟩ | ⟨u, e, hfail, ht, _, _, he, hk, _⟩ <;>
      rw [run, e]
    · exact ⟨_, ht, .singleton ⟨hfail.symm, nofun⟩⟩
    · obtain ⟨xs, hrun, hxs⟩ := ih u
      exact ⟨.write s.devAddr a v :: xs, by rw [hrun, ht, List.append_assoc, List.singleton_append],
        .cons ⟨hfail.symm, nofun⟩ he hk hxs⟩

theorem exec_decides {i : Instr} {s t : State} (h : exec i s = .next t) : s.Decides t.trace := by
  rw [exec_eq_runCommand] at h
  cases h
  obtain ⟨xs, htrace, hxs⟩ := run_decides (commandOf i s).failBool (commandOf i s).act (s.start (encode i))
  rw [runCommand, htrace]
  exact hxs

end Sys2Proof.Machine
end

section
/-! The statements of 60_exceptions.md settled. -/

namespace Sys2Proof.Proofs

open Sys2Proof.Machine Sys2Proof.Safety

/-- Settles O4: a byte that decodes is the byte of a command. -/
theorem illegalCommandOnlyWritesStatus : Obligations.IllegalCommandOnlyWritesStatus := by
  intro s v ms hs h hv
  rw [step_write_cmd hs h, writeCmd]
  cases hdec : decodeOpcode (v.setWidth 8) with
  | ok i => exact absurd (encode_of_decodeOpcode hdec) (hv i)
  | error => simp only [State.illegalCommand, Result.word, hs]

/-- Settles O52: by the endings each command's sequence has, or a failure; IDENT and LINKSUP have no event that could
fail. -/
theorem everyCommandEnds : Obligations.EveryCommandEnds := by
  intro i s
  obtain ⟨t, ht⟩ : ∃ t, exec i s = .next t := ⟨_, exec_eq_runCommand i s⟩
  refine ⟨t, ht, exec_seq ht, exec_trace_length ht, ?_, ?_, fun hinv => ?_⟩
  · obtain ⟨r, rfl | ⟨rfl, -⟩, hst, -⟩ | ⟨k, hst, -⟩ := exec_result ht
    · exact .inl hst
    · exact .inr (.inl hst)
    · exact .inr (.inr ⟨k, hst⟩)
  · obtain ⟨⟨u, hu, hident, -⟩, ⟨w, hw, hlinksup, -⟩⟩ := capabilityAnswers s
    rintro (rfl | rfl)
    · cases ht.symm.trans hu
      rw [hident]
    · cases ht.symm.trans hw
      rw [hlinksup]
  · obtain ⟨r, rfl | ⟨-, hi⟩, hst, -⟩ | ⟨k, hst, -⟩ := exec_result ht
    · cases hst.symm.trans hinv
    · exact hi
    · cases Result.word_eq_transportStatus_iff (r := .invalidParameter).mp (hinv.symm.trans hst)

/-- Settles O53: a run stops at its first failed event and its ending tells the failure's kind; each event takes the
next draw. -/
theorem firstFailureEndsCommand : Obligations.FirstFailureEndsCommand := by
  intro i s t h
  refine ⟨?_, fun k => ?_, exec_decides h⟩
  · obtain ⟨-, -, -, hdone⟩ | ⟨k, -, xs, x, htrace, hxs, -⟩ := exec_result h
    · exact fun x hx => hdone x (List.mem_of_mem_dropLast hx)
    · rwa [htrace, List.dropLast_concat]
  · obtain ⟨r, hr, hst, hdone⟩ | ⟨k', hst, xs, x, htrace, -, hx⟩ := exec_result h
    · rw [hst, Result.word_eq_transportStatus_iff, Option.bind_eq_some_iff]
      constructor
      · rintro rfl
        simp at hr
      · rintro ⟨x, hx, hfailed⟩
        cases (failedKind_eq_none_iff.mpr (hdone x (List.mem_of_getLast? hx))).symm.trans hfailed
    · rw [hst, htrace, List.getLast?_concat, Option.bind_some, hx, Option.some_inj, transportStatus_inj]

end Sys2Proof.Proofs
end
